-- ==== Sys2Proof/Word.lean ====
section
/-! DEFINITION. The word types of the HUFF core (00_scope.md R6, R8, R11; 42_tree.md R100): every value is unsigned. -/

namespace Sys2Proof

/-- A host-bus data word and a register, 32 bits (20_memory.md R63, 10_state.md R19). -/
abbrev Word := BitVec 32

/-- A buffer byte and a symbol, 8 bits (00_scope.md R6). -/
abbrev Byte := BitVec 8

/-- A node handle, HANDLE_WIDTH = 9 bits (00_scope.md section 4, 42_tree.md R100). -/
abbrev Handle := BitVec 9

/-- A node weight, WEIGHT_WIDTH = 40 bits (00_scope.md R8). -/
abbrev Weight := BitVec 40

end Sys2Proof
end

