-- ==== Sys2Proof/Syntax.lean ====
section
/-! DEFINITION. The HUFF command set, revision 1 (00_scope.md R3): one constructor per row of spec/opcode_table.json.
A command word has no operand field (30_encoding.md R83), so no constructor has an argument. -/

namespace Sys2Proof

/-- The eight commands of 30_encoding.md R84. -/
inductive Instr where
  /-- No operation (40_control.md R90). -/
  | nop
  /-- Discard frequency table, tree, code table and results (40_control.md R91). -/
  | clear
  /-- Count the input bytes (41_frequency.md R93). -/
  | count
  /-- Build the Huffman tree (42_tree.md R97). -/
  | build
  /-- Generate the code table (43_codes.md R104). -/
  | gencodes
  /-- Pack the codes of the input (44_encode.md R109). -/
  | encode
  /-- Decode the payload (45_decode.md R114). -/
  | decode
  /-- Count, build, generate codes and encode (44_encode.md R110). -/
  | encodeAll
  deriving DecidableEq, Repr

end Sys2Proof
end

