-- ==== Sys2Proof/WellFormed.lean ====
section
/-! DEFINITION. What is well formed: an instruction, a command word, and a choice of the buffer-size parameters. -/

namespace Sys2Proof

/-- A command has no operand (30_encoding.md R83), so every term of `Instr` is well formed. -/
def Instr.wf : Instr → Bool
  | .nop | .clear | .count | .build | .gencodes | .encode | .decode | .encodeAll => true

/-- RSVD = v[31:8] must be 0 (30_encoding.md R82). -/
def reservedClear (v : Word) : Bool := v.extractLsb' 8 24 == 0#24

/-- OPCODE = v[7:0] is at most 0x07 (30_encoding.md R85). -/
def opcodeAssigned (v : Word) : Bool := (v.extractLsb' 0 8).toNat ≤ 0x07

/-- A command word that is not illegal (30_encoding.md R85). -/
def commandWordWf (v : Word) : Bool := reservedClear v && opcodeAssigned v

/-- One buffer size: a multiple of 4 in 4..65536 (00_scope.md R7). -/
def bufferSizeWf (n : Nat) : Bool := n % 4 == 0 && 4 ≤ n && n ≤ 65536

/-- The three buffer sizes of a model (00_scope.md R7). -/
def bufferSizesWf (ibuf pbuf obuf : Nat) : Bool :=
  bufferSizeWf ibuf && bufferSizeWf pbuf && bufferSizeWf obuf && ibuf ≤ pbuf

end Sys2Proof
end

