-- ==== Sys2Proof/Decode.lean ====
section
/-! DEFINITION. Decoding a command word (30_encoding.md R82-R87), and after it the encoder. -/

namespace Sys2Proof

/-- Why a word is illegal (30_encoding.md R86). -/
inductive Reject where
  /-- RSVD, bits [31:8], is not 0. -/
  | reservedBits
  /-- RSVD = 0 and OPCODE is 0x08 or above. -/
  | reservedOpcode
  deriving DecidableEq, Repr

/-- The opcode map of 30_encoding.md R84. -/
def instrOfOpcode (op : Byte) : Option Instr :=
  match op.toNat with
  | 0x00 => some .nop
  | 0x01 => some .clear
  | 0x02 => some .count
  | 0x03 => some .build
  | 0x04 => some .gencodes
  | 0x05 => some .encode
  | 0x06 => some .decode
  | 0x07 => some .encodeAll
  | _ => none

/-- The core's decode of the latched word (30_encoding.md R85): total, rejecting by name. -/
def decode (v : Word) : Except Reject Instr :=
  if v.extractLsb' 8 24 ≠ 0#24 then .error .reservedBits
  else
    match instrOfOpcode (v.extractLsb' 0 8) with
    | some i => .ok i
    | none => .error .reservedOpcode

/-- The command word whose bits are `w`, as spec/opcode_table.json numbers them: one 32-bit word, bit 0 its least
significant bit, written by one host access (30_encoding.md R87), so no byte order is involved. -/
def tableWord (nbits w : Nat) : Word := BitVec.ofNat 32 (w % 2 ^ nbits)

/-- What the decoder reads from an instruction of the table; a command is never longer than 32 bits (R87). -/
def decodeTableWord (nbits w : Nat) : Option Instr :=
  if nbits ≤ 32 then (decode (tableWord nbits w)).toOption else none

/-- The OPCODE column of 30_encoding.md R84. -/
def Instr.opcode : Instr → Byte
  | .nop => 0x00#8
  | .clear => 0x01#8
  | .count => 0x02#8
  | .build => 0x03#8
  | .gencodes => 0x04#8
  | .encode => 0x05#8
  | .decode => 0x06#8
  | .encodeAll => 0x07#8

/-- The word of a command: RSVD = 0 above OPCODE (30_encoding.md R82, R84). -/
def encode (i : Instr) : Word := (0#24 ++ i.opcode : BitVec 32)

end Sys2Proof
end

