-- ==== Sys2Proof/Config.lean ====
section
/-! DEFINITION. What is fixed for the machine (00_scope.md section 4) and the free values of the spec. -/

namespace Sys2Proof.Config

/-- ALPHABET (00_scope.md R6). -/
def alphabet : Nat := 256

/-- IBUF_BYTES: the value R7 gives for this hardware. -/
def ibufBytes : Nat := 65536

/-- PBUF_BYTES: the value R7 gives for this hardware. -/
def pbufBytes : Nat := 65536

/-- OBUF_BYTES: the value R7 gives for this hardware. -/
def obufBytes : Nat := 65536

/-- MAX_NODES = 2 * 256 - 1 (00_scope.md section 4). -/
def maxNodes : Nat := 511

/-- The constant of the ID register, "HUFF" (10_state.md R22). -/
def idValue : Word := 0x48554646#32

/-- BASE in units of 4 bytes: OPEN (00_scope.md R9), so it has no value here (log entry 7). -/
opaque baseWords : Nat

/-- BASE, the platform address of offset 0: any multiple of 4 (20_memory.md R61). -/
def base : Nat := 4 * baseWords

/-- FREE VALUE. The byte drawn for the unwritten buffer byte at offset `a` by draw number `n`
(20_memory.md R71; log entry 1): nothing constrains it. -/
opaque drawByte : (n a : Nat) → Byte

/-- FREE VALUE. The word drawn by draw number `n` for a host read of offset `a` while BUSY = 1
(20_memory.md R65; log entry 1): nothing constrains it. -/
opaque drawWord : (n a : Nat) → Word

end Sys2Proof.Config
end

