-- ==== Sys2Proof/Machine/State.lean ====
section
/-! DEFINITION. The state of the HUFF core as plain data (10_state.md R15), its faults and refusals, and reset (R57). -/

namespace Sys2Proof.Machine

open Sys2Proof

/-- Reasons a step stops the machine: NONE. An illegal word, a stage out of order, a bad length and a corrupt payload
are results recorded in ERR (60_exceptions.md R123, R129), and a bad access is a bus answer (R125); nothing of the
spec stops the block (log entry 10). Safe: a claim "no step faults" is about `step`, and this type leaves it no way to. -/
inductive Fault where
  deriving DecidableEq, Repr

/-- Reasons an instruction has no meaning. -/
inductive Refusal where
  /-- An arm of `exec` that has no meaning yet, by its mnemonic. Safe: the run stops. No arm of this model raises it. -/
  | notModelled (mnemonic : String)
  deriving DecidableEq, Repr

/-- An entry of the node arena with the fields of 10_state.md R47. -/
structure Node where
  leaf : Bool
  sym : Byte
  weight : Weight
  left : Handle
  right : Handle
  deriving DecidableEq, Repr

/-- What an arena entry holds at reset. The spec gives no value, since no entry is valid then (R57);
DESIGN CHOICE, log entry 6. -/
def Node.blank : Node := ⟨false, 0#8, 0#40, 0#9, 0#9⟩

/-- An entry of the code table: 8-bit length and 255-bit code store, code bit 0 in bit 0 (10_state.md R42, R51). -/
structure Code where
  len : BitVec 8
  bits : BitVec 255
  deriving DecidableEq, Repr

/-- An entry of length 0: the symbol has no code (10_state.md R51). -/
def Code.none : Code := ⟨0#8, 0#255⟩

/-- The written bytes of the three buffers by host offset (20_memory.md R58, R70), addresses strictly rising. -/
abbrev Memory := List Host.Cell

/-- The shape of one host access (20_memory.md R63, R64): offset from BASE, width in bytes, enabled byte lanes.
Log entry 11. -/
structure Access where
  offset : Nat
  width : Nat
  lanes : BitVec 4
  deriving DecidableEq, Repr

/-- One transition of 60_exceptions.md R121 and R127, as the world outside and the scheduler line it up (log entry 2). -/
inductive Input where
  /-- A host read. -/
  | read (a : Access)
  /-- A host write of a data word. -/
  | write (a : Access) (v : Word)
  /-- The core's turn: it performs the pending command if BUSY = 1. -/
  | core
  /-- The platform's reset event (70_reset_and_hazards.md R141). -/
  | reset
  deriving DecidableEq, Repr

/-- The block's answer to a host access (20_memory.md R64-R66). -/
inductive Response where
  /-- No access has been answered yet. -/
  | none
  /-- A write was accepted (or ignored by a read-only register, R19). -/
  | ok
  /-- A read returned a data word. -/
  | data (w : Word)
  /-- The access was answered with a bus error; no data. -/
  | busError
  deriving DecidableEq, Repr

/-- The state of the machine. Registers that are functions of other state (ID, STATUS, UNIQUE, the windows) are
computed by `readReg` (log entry 12). -/
structure State where
  /-- CMD (R23). -/
  cmd : Word
  /-- STATUS.BUSY (R24). -/
  busy : Bool
  /-- STATUS.DONE (R24). -/
  done : Bool
  /-- STATUS.TREE_VALID (R24). -/
  treeValid : Bool
  /-- STATUS.CODES_VALID (R24). -/
  codesValid : Bool
  /-- ERR.CODE (R25). -/
  err : Byte
  /-- ERR_INFO (R26). -/
  errInfo : Word
  /-- IRQ_EN.DONE_IE (R27). -/
  doneIe : Bool
  /-- IN_LEN (R28). -/
  inLen : Word
  /-- BIT_LEN (R29). -/
  bitLen : Word
  /-- OUT_LEN (R30). -/
  outLen : Word
  /-- STAT_IN_BITS (R32). -/
  statInBits : Word
  /-- STAT_OUT_BITS (R33). -/
  statOutBits : Word
  /-- NODES (R34). -/
  nodes : Handle
  /-- ROOT (R35). -/
  root : Handle
  /-- NODE_SEL (R36). -/
  nodeSel : Handle
  /-- CT_SEL (R40). -/
  ctSel : Byte
  /-- FREQ[0..255] (R44). -/
  freq : Vector Word 256
  /-- NODE[0..510] (R47). -/
  arena : Vector Node 511
  /-- CT[0..255] (R51). -/
  ct : Vector Code 256
  /-- IBUF, PBUF and OBUF: the bytes that are written (20_memory.md R59, R70). -/
  mem : Memory
  /-- The model's own: what the host, the platform and the scheduler do next, oldest first (log entry 2). -/
  inputs : List Input
  /-- The model's own: the answer to the last host access (log entry 3). -/
  response : Response
  /-- The model's own: how many draws were taken (log entry 1). -/
  draws : Nat
  deriving DecidableEq, Repr

/-- The machine right after reset (10_state.md R57 and the reset column of R21). -/
def State.reset : State where
  cmd := 0#32
  busy := false
  done := false
  treeValid := false
  codesValid := false
  err := 0#8
  errInfo := 0#32
  doneIe := false
  inLen := 0#32
  bitLen := 0#32
  outLen := 0#32
  statInBits := 0#32
  statOutBits := 0#32
  nodes := 0#9
  root := 0#9
  nodeSel := 0#9
  ctSel := 0#8
  freq := Vector.replicate 256 0#32
  arena := Vector.replicate 511 Node.blank
  ct := Vector.replicate 256 Code.none
  mem := []
  inputs := []
  response := .none
  draws := 0

end Sys2Proof.Machine
end

