-- ==== Sys2Proof/Machine/Operands.lean ====
section
/-! DEFINITION. What a host access can name: the address map (20_memory.md R58), the register map (10_state.md R21)
and the bus-error conditions on the access itself (20_memory.md R64 (a) to (c)). A command names no operand (R83). -/

namespace Sys2Proof.Machine

open Sys2Proof

/-- The registers of 10_state.md R21. -/
inductive Reg where
  | id | cmd | status | err | errInfo | irqEn | inLen | bitLen | outLen | unique
  | statInBits | statOutBits | nodes | root | nodeSel | nodeInfo | nodeChild | nodeWlo | nodeWhi
  | ctSel | ctLen
  /-- CT_BITSj, j = 0..7. -/
  | ctBits (j : Fin 8)
  /-- FREQ[s], s = 0..255. -/
  | freq (s : Byte)
  deriving DecidableEq, Repr

/-- The access types of 10_state.md R19, by register as in R21's table. -/
inductive AccessType where
  | ro | rw | w1c
  deriving DecidableEq, Repr

/-- The access column of 10_state.md R21. -/
def Reg.accessType : Reg → AccessType
  | .cmd | .irqEn | .inLen | .bitLen | .nodeSel | .ctSel | .freq _ => .rw
  | .status => .w1c
  | .id | .err | .errInfo | .outLen | .unique | .statInBits | .statOutBits | .nodes | .root | .nodeInfo | .nodeChild
  | .nodeWlo | .nodeWhi | .ctLen | .ctBits _ => .ro

/-- The rows of 10_state.md R21 with one offset each. -/
def registerMap : List (Nat × Reg) :=
  [(0x000, .id), (0x004, .cmd), (0x008, .status), (0x00C, .err), (0x010, .errInfo), (0x014, .irqEn), (0x018, .inLen),
   (0x01C, .bitLen), (0x020, .outLen), (0x024, .unique), (0x028, .statInBits), (0x02C, .statOutBits), (0x030, .nodes),
   (0x034, .root), (0x038, .nodeSel), (0x03C, .nodeInfo), (0x040, .nodeChild), (0x044, .nodeWlo), (0x048, .nodeWhi),
   (0x04C, .ctSel), (0x050, .ctLen)]

/-- The register at a word-aligned offset of the control page, by the table of 10_state.md R21. -/
def regAt (a : Nat) : Option Reg :=
  if h : 0x054 ≤ a ∧ a < 0x074 then some (.ctBits ⟨(a - 0x054) / 4, by omega⟩)
  else if 0x400 ≤ a ∧ a < 0x800 then some (.freq (BitVec.ofNat 8 ((a - 0x400) / 4)))
  else registerMap.lookup a

/-- The buffer windows' bases (20_memory.md R58). -/
def ibufBase : Nat := 0x10000
/-- The base of the PBUF window (20_memory.md R58). -/
def pbufBase : Nat := 0x20000
/-- The base of the OBUF window (20_memory.md R58). -/
def obufBase : Nat := 0x30000

/-- The offset is that of a byte of IBUF, PBUF or OBUF (20_memory.md R58, R59). -/
def isBufferOffset (a : Nat) : Bool :=
  (ibufBase ≤ a && a < ibufBase + Config.ibufBytes) ||
  (pbufBase ≤ a && a < pbufBase + Config.pbufBytes) ||
  (obufBase ≤ a && a < obufBase + Config.obufBytes)

/-- What an offset names. -/
inductive Target where
  /-- A register or counter of the control page. -/
  | reg (r : Reg)
  /-- The buffer word whose first byte is at offset `a`. -/
  | buffer (a : Nat)
  deriving DecidableEq, Repr

/-- The decode of a word-aligned offset (20_memory.md R58); `none` is "not decoded". -/
def decodeOffset (a : Nat) : Option Target :=
  if isBufferOffset a then some (.buffer a) else (regAt a).map .reg

/-- The bus-error conditions of 20_memory.md R64, in the order they are checked. -/
inductive BusFault where
  /-- (a) misaligned. -/
  | misaligned
  /-- (b) not a full 4-byte access. -/
  | partialAccess
  /-- (c) not decoded. -/
  | notDecoded
  /-- (d) a write while BUSY = 1. -/
  | busyWrite
  deriving DecidableEq, Repr

/-- A full access: 4 bytes wide with all four lanes enabled (20_memory.md R63). -/
def Access.isFull (x : Access) : Bool := x.width == 4 && x.lanes == 0b1111#4

/-- The access the host programs of 30_encoding.md R88 make: all four bytes at an offset. -/
def Access.word (a : Nat) : Access := ⟨a, 4, 0b1111#4⟩

/-- Conditions (a), (b), (c) of 20_memory.md R64, in that order: the target of the access, or why there is none. -/
def Access.target (x : Access) : Except BusFault Target :=
  if x.offset % 4 ≠ 0 then .error .misaligned
  else if !x.isFull then .error .partialAccess
  else
    match decodeOffset x.offset with
    | some t => .ok t
    | none => .error .notDecoded

/-- The offset of a platform address: the block's 0x40000-byte space stands at BASE (20_memory.md R61);
`none` where the address lies outside that space, which the platform does not route to the block. -/
def platformOffset (base addr : Nat) : Option Nat :=
  if base ≤ addr ∧ addr < base + 0x40000 then some (addr - base) else none

end Sys2Proof.Machine
end

