-- ==== Sys2Proof/Machine/Ops.lean ====
section
/-! DEFINITION. The named operations on memory, registers, arena and code table, starting a command (30_encoding.md
R81), ending one with or without an error (60_exceptions.md R121, R128), and the reset event (70_reset_and_hazards.md R141). -/

namespace Sys2Proof.Machine

open Sys2Proof

/-! ## Tables -/

/-- `f k, f (k+1), ...`, `n` entries. -/
def tabulateFrom {α : Type} (f : Nat → α) : (k n : Nat) → List α
  | _, 0 => []
  | k, n + 1 => f k :: tabulateFrom f (k + 1) n

theorem length_tabulateFrom {α : Type} (f : Nat → α) (k n : Nat) : (tabulateFrom f k n).length = n := by
  induction n generalizing k with
  | zero => rfl
  | succ n ih => simp [tabulateFrom, ih]

/-- The table whose entry `k` is `f k`. -/
def tabulate {α : Type} (n : Nat) (f : Nat → α) : Vector α n := ⟨⟨tabulateFrom f 0 n⟩, length_tabulateFrom f 0 n⟩

/-- The byte values 0..255 in ascending order (00_scope.md R6). -/
def allSymbols : List Byte := (List.range Config.alphabet).map (BitVec.ofNat 8)

/-! ## Buffer memory (20_memory.md R67, R70, R71) -/

/-- The byte written at `a`; `none` is "unwritten" (20_memory.md R70). -/
def Memory.get? : Memory → Nat → Option Byte
  | [], _ => none
  | (k, b) :: m, a => if k = a then some b else Memory.get? m a

/-- The bytes `bs` as cells at `a`, `a + 1`, ... -/
def cellsFrom : Nat → List Byte → Memory
  | _, [] => []
  | a, b :: bs => (a, b) :: cellsFrom (a + 1) bs

/-- Write the bytes `bs` at `a`, `a + 1`, ...: they become written, every other byte stays as it is. -/
def Memory.writeBytes (m : Memory) (a : Nat) (bs : List Byte) : Memory :=
  m.filter (fun c => c.1 < a) ++ cellsFrom a bs ++ m.filter (fun c => a + bs.length ≤ c.1)

/-- The canonical form: addresses strictly rising and all in the buffer windows. A listed byte is a written byte, and
an unwritten one has no value (log entry 5), so no entry is redundant. -/
abbrev Memory.wf (m : Memory) : Prop :=
  m.Pairwise (fun c d => c.1 < d.1) ∧ ∀ c ∈ m, isBufferOffset c.1 = true

/-- One byte of a buffer: its value if written, else this draw's free value (20_memory.md R71). -/
def State.byteAt (s : State) (a : Nat) : Byte :=
  match s.mem.get? a with
  | some b => b
  | none => Config.drawByte s.draws a

/-- IBUF[i] (20_memory.md R59). -/
def State.ibuf (s : State) (i : Nat) : Byte := s.byteAt (ibufBase + i)
/-- PBUF[i] (20_memory.md R59). -/
def State.pbuf (s : State) (i : Nat) : Byte := s.byteAt (pbufBase + i)
/-- OBUF[i] (20_memory.md R59). -/
def State.obuf (s : State) (i : Nat) : Byte := s.byteAt (obufBase + i)

/-- The input bytes IBUF[0..IN_LEN-1] of a command (20_memory.md R60). -/
def State.inputBytes (s : State) : List Byte := (List.range s.inLen.toNat).map s.ibuf

/-- Payload bit `k`, most significant bit of each byte first (20_memory.md R69). -/
def State.pbit (s : State) (k : Nat) : Bool := (s.pbuf (k >>> 3)).getLsbD (7 - (k &&& 7))

/-- The payload bits pbit(0..BIT_LEN-1) of a command. -/
def State.payloadBits (s : State) : List Bool := (List.range s.bitLen.toNat).map s.pbit

/-- Four bytes as a word, the first in bits [7:0] (20_memory.md R67). -/
def wordOfBytes (b0 b1 b2 b3 : Byte) : Word := (b3 ++ b2 ++ b1 ++ b0 : BitVec 32)

/-- The four bytes of a word, the one in bits [7:0] first (20_memory.md R67). -/
def bytesOfWord (v : Word) : List Byte :=
  [v.extractLsb' 0 8, v.extractLsb' 8 8, v.extractLsb' 16 8, v.extractLsb' 24 8]

/-- The word at buffer offset `a` (20_memory.md R67). -/
def State.bufferWord (s : State) (a : Nat) : Word :=
  wordOfBytes (s.byteAt a) (s.byteAt (a + 1)) (s.byteAt (a + 2)) (s.byteAt (a + 3))

/-- The host's write of a word at buffer offset `a` (20_memory.md R66, R67). -/
def State.writeBufferWord (s : State) (a : Nat) (v : Word) : State :=
  { s with mem := s.mem.writeBytes a (bytesOfWord v) }

/-- A command's write of the payload bytes PBUF[0..] (20_memory.md R60). -/
def State.writePbuf (s : State) (bs : List Byte) : State := { s with mem := s.mem.writeBytes pbufBase bs }

/-- A command's write of the decoded bytes OBUF[0..] (20_memory.md R60). -/
def State.writeObuf (s : State) (bs : List Byte) : State := { s with mem := s.mem.writeBytes obufBase bs }

/-! ## Frequency table, node arena, code table -/

/-- FREQ[sym] (10_state.md R44). -/
def State.freqOf (s : State) (sym : Byte) : Word := s.freq[sym.toNat]'sym.isLt

/-- The host's write of one counter (10_state.md R44). -/
def State.setFreq (s : State) (sym : Byte) (v : Word) : State := { s with freq := s.freq.set sym.toNat v sym.isLt }

/-- NODE[h] (10_state.md R47); there are 511 entries. -/
def State.node (s : State) (h : Handle) : Node := if lt : h.toNat < 511 then s.arena[h.toNat] else Node.blank

/-- CT[sym] (10_state.md R51). -/
def State.codeOf (s : State) (sym : Byte) : Code := s.ct[sym.toNat]'sym.isLt

/-- The code's bits in emission order: code bits 0..len-1 (10_state.md R42, R51). -/
def Code.toBits (c : Code) : List Bool := (List.range c.len.toNat).map c.bits.getLsbD

/-- The entry that holds a bit sequence: its length, and its bits from code bit 0 up, the rest 0 (10_state.md R51). -/
def Code.ofBits (l : List Bool) : Code := ⟨BitVec.ofNat 8 l.length, (BitVec.ofBoolListLE l).setWidth 255⟩

/-- Commit the nodes of a new tree: NODE[0..cnt-1], NODES, ROOT, TREE_VALID (42_tree.md R97, R100). Entries at and
above `cnt` keep what they held, which no rule reads (10_state.md R47). -/
def State.commitTree (s : State) (ns : List Node) : State :=
  { s with
    arena := tabulate 511 (fun h => (ns[h]?).getD (s.node (BitVec.ofNat 9 h)))
    nodes := BitVec.ofNat 9 ns.length
    root := BitVec.ofNat 9 (ns.length - 1)
    treeValid := true }

/-- Drop the tree: NODES, ROOT, TREE_VALID (40_control.md R91). -/
def State.dropTree (s : State) : State := { s with nodes := 0#9, root := 0#9, treeValid := false }

/-- Drop the code table (42_tree.md R97, 40_control.md R91). -/
def State.dropCodes (s : State) : State := { s with ct := Vector.replicate 256 Code.none, codesValid := false }

/-- Commit a new code table (43_codes.md R104). -/
def State.commitCodes (s : State) (t : Vector Code 256) : State := { s with ct := t, codesValid := true }

/-! ## Starting and ending a command -/

/-- The error codes of 60_exceptions.md R123. -/
inductive ErrorCode where
  | illegalCommand | noTree | noCodes | lengthRange | unknownSymbol | payloadOverflow | inconsistentPayload
  | outputOverflow
  deriving DecidableEq, Repr

/-- The code column of 60_exceptions.md R123. -/
def ErrorCode.code : ErrorCode → Byte
  | .illegalCommand => 0x01#8
  | .noTree => 0x02#8
  | .noCodes => 0x03#8
  | .lengthRange => 0x04#8
  | .unknownSymbol => 0x05#8
  | .payloadOverflow => 0x06#8
  | .inconsistentPayload => 0x07#8
  | .outputOverflow => 0x08#8

/-- `CmdError(code, info)` of 00_scope.md R12. -/
structure CmdError where
  code : ErrorCode
  info : Word
  deriving DecidableEq, Repr

/-- The host write of `v` to CMD while idle (30_encoding.md R81). -/
def State.startCommand (s : State) (v : Word) : State :=
  { s with cmd := v, busy := true, done := false, err := 0#8, errInfo := 0#32 }

/-- The end of a command that completed without raise, on the state with its writes committed (60_exceptions.md R121). -/
def State.succeed (s : State) : State :=
  { s with err := 0#8, errInfo := 0#32, busy := false, done := true, draws := s.draws + 1 }

/-- The end of a command that raised, on the state before it (60_exceptions.md R121, R128): the one operation by which
an error is taken. -/
def State.raise (s : State) (e : CmdError) : State :=
  { s with err := e.code.code, errInfo := e.info, busy := false, done := true, draws := s.draws + 1 }

/-- The end of a command started in `s` whose pseudocode answered `r`: all of its writes, or none (60_exceptions.md
R121, R128). -/
def conclude (s : State) (r : Except CmdError State) : Host.Outcome State Fault Refusal :=
  match r with
  | .ok s' => .next s'.succeed
  | .error e => .next (s.raise e)

/-- The host's acknowledgement of a completion: DONE cleared, nothing else (60_exceptions.md R131, R132). There is no
return from an error. -/
def State.acknowledge (s : State) : State := { s with done := false }

/-- The reset event (70_reset_and_hazards.md R141, R142): the reset state, with what is not the block's kept, namely
the events still to come and the count of draws taken (log entries 1 and 2). -/
def State.applyReset (s : State) : State := { State.reset with inputs := s.inputs, draws := s.draws }

end Sys2Proof.Machine
end

