-- ==== Sys2Proof/Machine/Flags.lean ====
section
/-! DEFINITION. The flags and the registers computed from other state: STATUS (10_state.md R24), `irq` (60_exceptions.md
R130), UNIQUE (R31) and the inspection windows (R37-R42). Reserved bits read 0 (R20). -/

namespace Sys2Proof.Machine

open Sys2Proof

/-- STATUS.ERROR: ERR.CODE is not 0 (10_state.md R24). -/
def State.errorFlag (s : State) : Bool := s.err != 0#8

/-- The STATUS word (10_state.md R24). -/
def State.statusWord (s : State) : Word :=
  (0#27 ++ BitVec.ofBool s.codesValid ++ BitVec.ofBool s.treeValid ++ BitVec.ofBool s.errorFlag ++
    BitVec.ofBool s.done ++ BitVec.ofBool s.busy : BitVec 32)

/-- The level interrupt output (60_exceptions.md R130). -/
def State.irq (s : State) : Bool := s.done && s.doneIe

/-- The symbols present in the frequency table, ascending (10_state.md R45, 42_tree.md R97). -/
def State.presentSymbols (s : State) : List Byte := allSymbols.filter (fun sym => s.freqOf sym != 0#32)

/-- UNIQUE, the number of non-zero counters (10_state.md R31). -/
def State.uniqueWord (s : State) : Word := BitVec.ofNat 32 s.presentSymbols.length

/-- The selected entry is valid: NODE_SEL < NODES (10_state.md R37). -/
def State.selectedValid (s : State) : Bool := s.nodeSel.toNat < s.nodes.toNat

/-- NODE_INFO (10_state.md R37). -/
def State.nodeInfoWord (s : State) : Word :=
  if s.selectedValid then
    let n := s.node s.nodeSel
    (0#16 ++ (if n.leaf then n.sym else 0#8) ++ 0#6 ++ BitVec.ofBool n.leaf ++ 1#1 : BitVec 32)
  else 0#32

/-- NODE_CHILD (10_state.md R38). -/
def State.nodeChildWord (s : State) : Word :=
  let n := s.node s.nodeSel
  if s.selectedValid && !n.leaf then (0#7 ++ n.right ++ 0#7 ++ n.left : BitVec 32) else 0#32

/-- NODE_WLO (10_state.md R39). -/
def State.nodeWloWord (s : State) : Word :=
  if s.selectedValid then (s.node s.nodeSel).weight.extractLsb' 0 32 else 0#32

/-- NODE_WHI (10_state.md R39). -/
def State.nodeWhiWord (s : State) : Word :=
  if s.selectedValid then (0#24 ++ (s.node s.nodeSel).weight.extractLsb' 32 8 : BitVec 32) else 0#32

/-- CT_LEN (10_state.md R41). -/
def State.ctLenWord (s : State) : Word := (0#24 ++ (s.codeOf s.ctSel).len : BitVec 32)

/-- The code store with every bit at or above the length read as 0 (10_state.md R42). -/
def Code.maskedBits (c : Code) : BitVec 256 := c.bits.setWidth 256 &&& ((1#256 <<< c.len.toNat) - 1#256)

/-- CT_BITSj (10_state.md R42). -/
def State.ctBitsWord (s : State) (j : Fin 8) : Word := (s.codeOf s.ctSel).maskedBits.extractLsb' (32 * j.val) 32

end Sys2Proof.Machine
end

