-- ==== Sys2Proof/Machine/Control.lean ====
section
/-! DEFINITION. The control commands NOP and CLEAR, and the illegal command word (40_control.md R90-R92). -/

namespace Sys2Proof.Machine

open Sys2Proof

/-- NOP (40_control.md R90): nothing beyond completing. -/
def execNop (s : State) : Host.Outcome State Fault Refusal := conclude s (.ok s)

/-- The writes of CLEAR (40_control.md R91). -/
def State.cleared (s : State) : State :=
  { s.dropTree.dropCodes with
    freq := Vector.replicate 256 0#32
    bitLen := 0#32
    outLen := 0#32
    statInBits := 0#32
    statOutBits := 0#32 }

/-- CLEAR (40_control.md R91). -/
def execClear (s : State) : Host.Outcome State Fault Refusal := conclude s (.ok s.cleared)

/-- An illegal command word (40_control.md R92): ILLEGAL_COMMAND with ERR_INFO = the word. -/
def illegalCommand (s : State) : Host.Outcome State Fault Refusal :=
  conclude s (.error ⟨.illegalCommand, s.cmd⟩)

end Sys2Proof.Machine
end

