-- ==== Sys2Proof/Machine/Decoder.lean ====
section
/-! DEFINITION. The bit-unpacking decoder: DECODE (45_decode.md R114-R118). -/

namespace Sys2Proof.Machine

open Sys2Proof

/-- The walk of 45_decode.md R114 for a tree of two or more leaves, standing at node `h` after `k` bits with `m`
symbols emitted, the unfinished codeword starting at bit `start`: the symbols it emits from here on, or its error. -/
def walkBits (node : Handle → Node) (root : Handle) :
    (h : Handle) → (start k m : Nat) → List Bool → Except CmdError (List Byte)
  | h, start, _, _, [] => if h ≠ root then .error ⟨.inconsistentPayload, BitVec.ofNat 32 start⟩ else .ok []
  | h, start, k, m, b :: bs =>
    let h' := if b then (node h).right else (node h).left
    if (node h').leaf then
      if m = Config.obufBytes then .error ⟨.outputOverflow, BitVec.ofNat 32 start⟩
      else
        match walkBits node root root (k + 1) (k + 1) (m + 1) bs with
        | .ok rest => .ok ((node h').sym :: rest)
        | .error e => .error e
    else walkBits node root h' start (k + 1) m bs

/-- The decoded bytes of the payload: the three cases of 45_decode.md R114 (empty tree R117, single leaf R116, two or
more leaves R115 and R118). For a single leaf, bit `k` overflows at `k` = OBUF_BYTES, since each bit gives one symbol. -/
def State.decodedBytes (s : State) : Except CmdError (List Byte) :=
  if s.nodes = 0#9 then
    if s.bitLen ≠ 0#32 then .error ⟨.inconsistentPayload, 0#32⟩ else .ok []
  else if (s.node s.root).leaf then
    if s.bitLen.toNat > Config.obufBytes then .error ⟨.outputOverflow, BitVec.ofNat 32 Config.obufBytes⟩
    else .ok (List.replicate s.bitLen.toNat (s.node s.root).sym)
  else walkBits s.node s.root s.root 0 0 0 s.payloadBits

/-- The writes of a successful DECODE (45_decode.md R114). -/
def State.decoded (s : State) (out : List Byte) : State :=
  { s.writeObuf out with outLen := BitVec.ofNat 32 out.length }

/-- The pseudocode of DECODE (45_decode.md R114). -/
def decodeStage (s : State) : Except CmdError State :=
  if s.treeValid = false then .error ⟨.noTree, 0#32⟩
  else if s.bitLen.toNat > 8 * Config.pbufBytes then .error ⟨.lengthRange, s.bitLen⟩
  else
    match s.decodedBytes with
    | .ok out => .ok (s.decoded out)
    | .error e => .error e

/-- DECODE (45_decode.md R114). -/
def execDecode (s : State) : Host.Outcome State Fault Refusal := conclude s (decodeStage s)

end Sys2Proof.Machine
end

