-- ==== Sys2Proof/Machine/Codes.lean ====
section
/-! DEFINITION. The code table generator: GENCODES (43_codes.md R104-R108). -/

namespace Sys2Proof.Machine

open Sys2Proof

/-- `visit(h, path)` of 43_codes.md R104 on the nodes `node`: the codes of the leaves below `h`, in visiting order.
A child's handle is below its parent's (10_state.md R48), so a depth of NODES is never used up (log entry 9). -/
def visitCodes (node : Handle → Node) : (depth : Nat) → Handle → List Bool → List (Byte × List Bool)
  | 0, _, _ => []
  | d + 1, h, path =>
    if (node h).leaf then [((node h).sym, path)]
    else visitCodes node d (node h).left (path ++ [false]) ++ visitCodes node d (node h).right (path ++ [true])

/-- The codes GENCODES assigns on the held tree: none for the empty tree, `0` for a single leaf (43_codes.md R105),
else the paths from the root (R106). -/
def State.treeCodes (s : State) : List (Byte × List Bool) :=
  if s.nodes = 0#9 then []
  else if (s.node s.root).leaf then [((s.node s.root).sym, [false])]
  else visitCodes s.node s.nodes.toNat s.root []

/-- The code table of a list of codes; a symbol without a code has length 0 (43_codes.md R104). On a tree of
10_state.md R48 no symbol has two codes. -/
def codeTable (cs : List (Byte × List Bool)) : Vector Code 256 :=
  tabulate 256 (fun k => ((cs.lookup (BitVec.ofNat 8 k)).map Code.ofBits).getD Code.none)

/-- The pseudocode of GENCODES (43_codes.md R104). -/
def gencodesStage (s : State) : Except CmdError State :=
  if s.treeValid = false then .error ⟨.noTree, 0#32⟩
  else .ok (s.commitCodes (codeTable s.treeCodes))

/-- GENCODES (43_codes.md R104). -/
def execGencodes (s : State) : Host.Outcome State Fault Refusal := conclude s (gencodesStage s)

end Sys2Proof.Machine
end

