-- ==== Sys2Proof/Machine/Frequency.lean ====
section
/-! DEFINITION. The frequency counter: COUNT (41_frequency.md R93-R96). -/

namespace Sys2Proof.Machine

open Sys2Proof

/-- The number of occurrences of every byte value in `bs` (41_frequency.md R93). -/
def countBytes (bs : List Byte) : Vector Word 256 :=
  tabulate 256 (fun k => BitVec.ofNat 32 (bs.count (BitVec.ofNat 8 k)))

/-- The pseudocode of COUNT (41_frequency.md R93). -/
def countStage (s : State) : Except CmdError State :=
  if s.inLen.toNat > Config.ibufBytes then .error ⟨.lengthRange, s.inLen⟩
  else .ok { s with freq := countBytes s.inputBytes }

/-- COUNT (41_frequency.md R93). -/
def execCount (s : State) : Host.Outcome State Fault Refusal := conclude s (countStage s)

end Sys2Proof.Machine
end

