-- ==== Sys2Proof/Machine/Tree.lean ====
section
/-! DEFINITION. The Huffman tree builder: BUILD (42_tree.md R97-R101). -/

namespace Sys2Proof.Machine

open Sys2Proof

/-- A handle awaiting a parent, with its exact weight: the key of 42_tree.md R98. -/
structure Pending where
  weight : Nat
  handle : Nat
  deriving DecidableEq, Repr

/-- Keys compare lexicographically: smaller weight first, then smaller handle (42_tree.md R98, 00_scope.md R12). -/
def Pending.le (p q : Pending) : Bool := p.weight < q.weight || (p.weight == q.weight && p.handle ≤ q.handle)

/-- The smaller of two keys. -/
def Pending.min (p q : Pending) : Pending := if p.le q then p else q

/-- argmin over the nodes awaiting a parent, and the rest of them (42_tree.md R97); `none` if there is none. -/
def extractMin : List Pending → Option (Pending × List Pending)
  | [] => none
  | p :: q =>
    let m := q.foldl Pending.min p
    some (m, (p :: q).erase m)

/-- An internal node: the first node extracted is the left child, the second the right one, the weight is their sum
(42_tree.md R97, R98, R101). -/
def internalNode (a b : Pending) : Node :=
  ⟨false, 0#8, BitVec.ofNat 40 (a.weight + b.weight), BitVec.ofNat 9 a.handle, BitVec.ofNat 9 b.handle⟩

/-- The merge loop of 42_tree.md R97 from the nodes `q` awaiting a parent, the next node taking handle `next`: the
internal nodes in creation order. `fuel` is at least the number of merges. -/
def mergeLoop : (fuel next : Nat) → List Pending → List Node
  | 0, _, _ => []
  | fuel + 1, next, q =>
    match extractMin q with
    | none => []
    | some (a, q₁) =>
      match extractMin q₁ with
      | none => []
      | some (b, q₂) => internalNode a b :: mergeLoop fuel (next + 1) (⟨a.weight + b.weight, next⟩ :: q₂)

/-- The leaf of a present symbol (42_tree.md R97, R99). -/
def leafNode (sym : Byte) (f : Word) : Node := ⟨true, sym, f.setWidth 40, 0#9, 0#9⟩

/-- The leaves, in ascending symbol order (42_tree.md R99). -/
def State.leafNodes (s : State) : List Node := s.presentSymbols.map (fun sym => leafNode sym (s.freqOf sym))

/-- The keys of a list of nodes that take handles from `k` up. -/
def pendingFrom : Nat → List Node → List Pending
  | _, [] => []
  | k, n :: ns => ⟨n.weight.toNat, k⟩ :: pendingFrom (k + 1) ns

/-- The nodes of the tree over the leaves `ls`: the leaves, then the internal nodes (42_tree.md R97). -/
def treeOver (ls : List Node) : List Node := ls ++ mergeLoop ls.length ls.length (pendingFrom 0 ls)

/-- The writes of BUILD (42_tree.md R97). -/
def State.built (s : State) : State := (s.commitTree (treeOver s.leafNodes)).dropCodes

/-- The pseudocode of BUILD, which cannot fail (42_tree.md R97). -/
def buildStage (s : State) : Except CmdError State := .ok s.built

/-- BUILD (42_tree.md R97). -/
def execBuild (s : State) : Host.Outcome State Fault Refusal := conclude s (buildStage s)

end Sys2Proof.Machine
end

