-- ==== Sys2Proof/Machine/Encoder.lean ====
section
/-! DEFINITION. The bit-packing encoder: ENCODE and ENCODE_ALL (44_encode.md R109-R113). -/

namespace Sys2Proof.Machine

open Sys2Proof

/-- The loop of 44_encode.md R109 over the input bytes from index `i` on, `t` payload bits standing: the bits it
appends, or the error of the first byte that fails. -/
def packCodes (code : Byte → Code) : (i t : Nat) → List Byte → Except CmdError (List Bool)
  | _, _, [] => .ok []
  | i, t, b :: bs =>
    if (code b).len = 0#8 then .error ⟨.unknownSymbol, BitVec.ofNat 32 i⟩
    else if t + (code b).len.toNat > 8 * Config.pbufBytes then .error ⟨.payloadOverflow, BitVec.ofNat 32 i⟩
    else
      match packCodes code (i + 1) (t + (code b).len.toNat) bs with
      | .ok rest => .ok ((code b).toBits ++ rest)
      | .error e => .error e

/-- The byte whose bits, most significant first, are the first eight of `l`, absent ones 0 (20_memory.md R69). -/
def byteOfBits (l : List Bool) : Byte :=
  BitVec.ofNat 8 ((List.range 8).foldl (fun acc k => 2 * acc + (l.getD k false).toNat) 0)

/-- `n` bytes packed from the bits `l`, padding bits 0 (20_memory.md R69, 44_encode.md R112). -/
def packBytes : (n : Nat) → List Bool → List Byte
  | 0, _ => []
  | n + 1, l => byteOfBits (l.take 8) :: packBytes n (l.drop 8)

/-- The payload bytes PBUF[0..⌈t/8⌉-1] of `t` bits (44_encode.md R109). -/
def payloadBytes (bits : List Bool) : List Byte := packBytes ((bits.length + 7) / 8) bits

/-- The writes of a successful ENCODE whose payload is `bits` (44_encode.md R109). -/
def State.encoded (s : State) (bits : List Bool) : State :=
  { s.writePbuf (payloadBytes bits) with
    bitLen := BitVec.ofNat 32 bits.length
    statInBits := BitVec.ofNat 32 (8 * s.inLen.toNat)
    statOutBits := BitVec.ofNat 32 bits.length }

/-- The pseudocode of ENCODE (44_encode.md R109). -/
def encodeStage (s : State) : Except CmdError State :=
  if s.codesValid = false then .error ⟨.noCodes, 0#32⟩
  else if s.inLen.toNat > Config.ibufBytes then .error ⟨.lengthRange, s.inLen⟩
  else
    match packCodes s.codeOf 0 0 s.inputBytes with
    | .ok bits => .ok (s.encoded bits)
    | .error e => .error e

/-- ENCODE (44_encode.md R109). -/
def execEncode (s : State) : Host.Outcome State Fault Refusal := conclude s (encodeStage s)

/-- The pseudocode of ENCODE_ALL: each stage on the state its predecessor produced, the input bytes drawn once for the
whole command (44_encode.md R110, 20_memory.md R71). -/
def encodeAllStage (s : State) : Except CmdError State :=
  if s.inLen.toNat > Config.ibufBytes then .error ⟨.lengthRange, s.inLen⟩
  else
    match countStage s with
    | .error e => .error e
    | .ok s₁ =>
      match buildStage s₁ with
      | .error e => .error e
      | .ok s₂ =>
        match gencodesStage s₂ with
        | .error e => .error e
        | .ok s₃ => encodeStage s₃

/-- ENCODE_ALL (44_encode.md R110). -/
def execEncodeAll (s : State) : Host.Outcome State Fault Refusal := conclude s (encodeAllStage s)

end Sys2Proof.Machine
end

