-- ==== Sys2Proof/Machine/HostBus.lean ====
section
/-! DEFINITION. The host's bus accesses (20_memory.md R63-R67, R73; 10_state.md R19-R44). -/

namespace Sys2Proof.Machine

open Sys2Proof

/-- The value of a register (10_state.md R22-R44). -/
def State.readReg (s : State) : Reg → Word
  | .id => Config.idValue
  | .cmd => s.cmd
  | .status => s.statusWord
  | .err => (0#24 ++ s.err : BitVec 32)
  | .errInfo => s.errInfo
  | .irqEn => (0#31 ++ BitVec.ofBool s.doneIe : BitVec 32)
  | .inLen => s.inLen
  | .bitLen => s.bitLen
  | .outLen => s.outLen
  | .unique => s.uniqueWord
  | .statInBits => s.statInBits
  | .statOutBits => s.statOutBits
  | .nodes => (0#23 ++ s.nodes : BitVec 32)
  | .root => (0#23 ++ s.root : BitVec 32)
  | .nodeSel => (0#23 ++ s.nodeSel : BitVec 32)
  | .nodeInfo => s.nodeInfoWord
  | .nodeChild => s.nodeChildWord
  | .nodeWlo => s.nodeWloWord
  | .nodeWhi => s.nodeWhiWord
  | .ctSel => (0#24 ++ s.ctSel : BitVec 32)
  | .ctLen => s.ctLenWord
  | .ctBits j => s.ctBitsWord j
  | .freq sym => s.freqOf sym

/-- The registers whose reads keep their value while BUSY = 1 (20_memory.md R65). -/
def readableWhileBusy : Reg → Bool
  | .id | .cmd | .status | .irqEn => true
  | .err | .errInfo | .inLen | .bitLen | .outLen | .unique | .statInBits | .statOutBits | .nodes | .root | .nodeSel
  | .nodeInfo | .nodeChild | .nodeWlo | .nodeWhi | .ctSel | .ctLen | .ctBits _ | .freq _ => false

/-- A host write of `v` to a register while idle (20_memory.md R66): an RO register ignores it, STATUS clears DONE
where bit 1 is set, CMD starts a command, an RW register keeps the bits its rule names. -/
def State.writeReg (s : State) (v : Word) : Reg → State
  | .cmd => s.startCommand v
  | .status => if v.getLsbD 1 then s.acknowledge else s
  | .irqEn => { s with doneIe := v.getLsbD 0 }
  | .inLen => { s with inLen := v }
  | .bitLen => { s with bitLen := v }
  | .nodeSel => { s with nodeSel := v.extractLsb' 0 9 }
  | .ctSel => { s with ctSel := v.extractLsb' 0 8 }
  | .freq sym => s.setFreq sym v
  | .id | .err | .errInfo | .outLen | .unique | .statInBits | .statOutBits | .nodes | .root | .nodeInfo | .nodeChild
  | .nodeWlo | .nodeWhi | .ctLen | .ctBits _ => s

/-- The data word of a read of a decoded target at offset `a` (20_memory.md R65): while BUSY = 1 a draw, but for four
registers. -/
def State.readTarget (s : State) (a : Nat) : Target → Word
  | .reg r => if s.busy && !readableWhileBusy r then Config.drawWord s.draws a else s.readReg r
  | .buffer b => if s.busy then Config.drawWord s.draws a else s.bufferWord b

/-- A write of `v` to a decoded target while idle (20_memory.md R66). -/
def State.writeTarget (s : State) (v : Word) : Target → State
  | .reg r => s.writeReg v r
  | .buffer b => s.writeBufferWord b v

/-- The conditions (a) to (d) of 20_memory.md R64, in that order, for a write. -/
def State.writeTarget? (s : State) (x : Access) : Except BusFault Target :=
  match x.target with
  | .error f => .error f
  | .ok t => if s.busy then .error .busyWrite else .ok t

/-- A host read (20_memory.md R64, R65): it changes no state of the block (R73); the model counts its draw. -/
def State.hostRead (s : State) (x : Access) : State :=
  match x.target with
  | .error _ => { s with response := .busError }
  | .ok t => { s with response := .data (s.readTarget x.offset t), draws := s.draws + 1 }

/-- A host write (20_memory.md R64, R66). -/
def State.hostWrite (s : State) (x : Access) (v : Word) : State :=
  match s.writeTarget? x with
  | .error _ => { s with response := .busError }
  | .ok t => { s.writeTarget v t with response := .ok }

/-- A host read at a platform address (20_memory.md R61): `none` where the address is not the block's. -/
def platformRead (base addr : Nat) : Option Input :=
  (platformOffset base addr).map (fun a => .read (.word a))

/-- A host write at a platform address (20_memory.md R61): `none` where the address is not the block's. -/
def platformWrite (base addr : Nat) (v : Word) : Option Input :=
  (platformOffset base addr).map (fun a => .write (.word a) v)

end Sys2Proof.Machine
end

