-- ==== Sys2Proof/Machine/Step.lean ====
section
/-! DEFINITION. One transition of the machine (60_exceptions.md R121, R127). -/

namespace Sys2Proof.Machine

open Sys2Proof

/-- The core's one step, for BUSY = 1: it performs the latched command word (60_exceptions.md R121). -/
def coreStep (s : State) : Host.Outcome State Fault Refusal :=
  match decode s.cmd with
  | .ok i => exec i s
  | .error _ => illegalCommand s

/-- The core's turn: its step is enabled exactly when BUSY = 1 (60_exceptions.md R121); else the turn passes. -/
def coreTurn (s : State) : Host.Outcome State Fault Refusal := if s.busy then coreStep s else .next s

/-- One transition: the event at the head of the queue; where none is lined up, the core's turn, so that a pending
command completes (70_reset_and_hazards.md R150) and an idle block keeps its state (60_exceptions.md R139).
Log entry 2. -/
def step (s : State) : Host.Outcome State Fault Refusal :=
  match s.inputs with
  | [] => coreTurn s
  | .core :: rest => coreTurn { s with inputs := rest }
  | .read a :: rest => .next (State.hostRead { s with inputs := rest } a)
  | .write a v :: rest => .next (State.hostWrite { s with inputs := rest } a v)
  | .reset :: rest => .next (State.applyReset { s with inputs := rest })

/-- The command word `w` handed over where the core takes its next command: it is latched in CMD and started as by the
host write of 30_encoding.md R81, and the next turn is the core's (log entry 4). -/
def State.withFetchWord (s : State) (nbits w : Nat) : State :=
  { s.startCommand (tableWord nbits w) with inputs := .core :: s.inputs }

end Sys2Proof.Machine
end

