-- ==== Sys2Proof/Machine/HostProgram.lean ====
section
/-! DEFINITION. The host-program lines of 30_encoding.md R88 and R89 as the bus accesses they stand for. -/

namespace Sys2Proof.Machine

open Sys2Proof

/-- A line of a host program (30_encoding.md R88). -/
inductive HostLine where
  /-- `WR offset, value`. -/
  | wr (a : Nat) (v : Word)
  /-- `RD offset`. -/
  | rd (a : Nat)
  /-- `WAIT`. -/
  | wait
  /-- A mnemonic: `WR CMD, OPCODE`. -/
  | command (i : Instr)
  /-- `RUN mnemonic`. -/
  | run (i : Instr)
  deriving DecidableEq, Repr

/-- The offset of CMD (10_state.md R21). -/
def cmdOffset : Nat := 0x004
/-- The offset of STATUS (10_state.md R21). -/
def statusOffset : Nat := 0x008

/-- `WAIT` (30_encoding.md R89) on the run in which the core takes its step after `polls` reads of STATUS: those reads,
the core's step, and the read that sees BUSY = 0 and ends the loop. Any `polls` may occur (70_reset_and_hazards.md
R150; log entry 13). -/
def waitInputs (polls : Nat) : List Input :=
  List.replicate polls (.read (.word statusOffset)) ++ [.core, .read (.word statusOffset)]

/-- The expansion of a line (30_encoding.md R88, R89), `polls` being the number of reads a `WAIT` makes before the
core's step. -/
def HostLine.expand (polls : Nat) : HostLine → List Input
  | .wr a v => [.write (.word a) v]
  | .rd a => [.read (.word a)]
  | .wait => waitInputs polls
  | .command i => [.write (.word cmdOffset) (encode i)]
  | .run i => .write (.word cmdOffset) (encode i) :: waitInputs polls

end Sys2Proof.Machine
end

