-- ==== Sys2Proof/Safety.lean ====
section
/-! DEFINITION. The terms claims are stated in: runs, what a step keeps, the shape of a tree (10_state.md R48, R49), the
merge order (42_tree.md R98), paths and prefix-free codes, and the invariant of the machine. -/

namespace Sys2Proof.Machine

open Sys2Proof

/-! ## Runs -/

/-- `n` steps lead from `s` to `t`. -/
def StepsTo : Nat → State → State → Prop
  | 0, s, t => t = s
  | n + 1, s, t => ∃ u, step s = .next u ∧ StepsTo n u t

/-- The state with the event at the head of its queue taken off. -/
def State.popInput (s : State) : State := { s with inputs := s.inputs.tail }

/-- The next transition is the core's turn (60_exceptions.md R121): nothing else is lined up before it. -/
def State.coreNext (s : State) : Prop := s.inputs = [] ∨ s.inputs.head? = some .core

/-- The event is a host access (20_memory.md R63). -/
def Input.isAccess : Input → Bool
  | .read _ | .write _ _ => true
  | .core | .reset => false

/-- The decoded offsets among the multiples of 4 (10_state.md R21, 20_memory.md R58): the registers 0x000-0x070, the
counters 0x400-0x7FC, the buffer windows 0x10000-0x3FFFC. -/
def MappedOffset (a : Nat) : Prop :=
  a ≤ 0x070 ∨ (0x400 ≤ a ∧ a ≤ 0x7FC) ∨ (0x10000 ≤ a ∧ a ≤ 0x3FFFC)

/-! ## What is kept -/

/-- The registers only the host and reset write, and CMD (10_state.md R23, R27, R28, R36, R40). -/
def SameHostRegs (s t : State) : Prop :=
  t.cmd = s.cmd ∧ t.doneIe = s.doneIe ∧ t.inLen = s.inLen ∧ t.nodeSel = s.nodeSel ∧ t.ctSel = s.ctSel

/-- The result registers (10_state.md R29, R30, R32, R33). -/
def SameResults (s t : State) : Prop :=
  t.bitLen = s.bitLen ∧ t.outLen = s.outLen ∧ t.statInBits = s.statInBits ∧ t.statOutBits = s.statOutBits

/-- The frequency table (10_state.md R44). -/
def SameFreq (s t : State) : Prop := ∀ sym, t.freqOf sym = s.freqOf sym

/-- The tree (10_state.md R50). -/
def SameTree (s t : State) : Prop :=
  t.treeValid = s.treeValid ∧ t.nodes = s.nodes ∧ t.root = s.root ∧ ∀ h : Handle, t.node h = s.node h

/-- The code table (10_state.md R53). -/
def SameCodes (s t : State) : Prop := t.codesValid = s.codesValid ∧ ∀ sym, t.codeOf sym = s.codeOf sym

/-- Every buffer byte, and whether it is written (20_memory.md R70). -/
def SameMem (s t : State) : Prop := ∀ a, t.mem.get? a = s.mem.get? a

/-- Every buffer byte outside the `n` bytes from `base` on. -/
def SameMemOutside (base n : Nat) (s t : State) : Prop :=
  ∀ a, ¬(base ≤ a ∧ a < base + n) → t.mem.get? a = s.mem.get? a

/-- The events still to come and the last bus answer are kept, and one draw number is used: no command touches more of
the world outside the block. -/
def SameOutside (s t : State) : Prop :=
  t.inputs = s.inputs ∧ t.response = s.response ∧ t.draws = s.draws + 1

/-- A command ended without error (60_exceptions.md R121). -/
def Succeeded (t : State) : Prop := t.err = 0#8 ∧ t.errInfo = 0#32 ∧ t.busy = false ∧ t.done = true

/-- `t` is `s` after a command that raised `code` with `info` (60_exceptions.md R121, R128): nothing else moved. -/
def FailedWith (code : Byte) (info : Word) (s t : State) : Prop :=
  t = { s with err := code, errInfo := info, busy := false, done := true, draws := s.draws + 1 }

/-- The number of symbols present in the frequency table (10_state.md R31, R45). -/
def presentCount (s : State) : Nat := (Finset.univ.filter (fun sym : Byte => s.freqOf sym ≠ 0#32)).card

/-- The number of present symbols below `sym`: its place in ascending order (42_tree.md R99). -/
def presentBelow (s : State) (sym : Byte) : Nat :=
  (Finset.univ.filter (fun x : Byte => s.freqOf x ≠ 0#32 ∧ x.toNat < sym.toNat)).card

/-! ## Trees and codes -/

/-- NODE[h] by number. -/
def State.nodeAt (s : State) (h : Nat) : Node := s.node (BitVec.ofNat 9 h)

/-- `h` is a child of entry `p`. -/
abbrev State.isChild (s : State) (p h : Nat) : Prop :=
  (s.nodeAt p).left.toNat = h ∨ (s.nodeAt p).right.toNat = h

/-- The arena holds a tree of `n` leaves (10_state.md R48, R49 (c); 42_tree.md R98-R100). -/
structure TreeShape (s : State) (n : Nat) : Prop where
  /-- At least one leaf and at most one per symbol (R48). -/
  leaves_pos : 1 ≤ n
  leaves_le : n ≤ 256
  /-- NODES = 2n - 1 and ROOT = 2n - 2 (R34, R35, R100). -/
  nodes_eq : s.nodes.toNat = 2 * n - 1
  root_eq : s.root.toNat = 2 * n - 2
  /-- Leaves stand at handles 0..n-1, internal nodes above them (R98). -/
  leaf_iff : ∀ h, h < 2 * n - 1 → ((s.nodeAt h).leaf = true ↔ h < n)
  /-- Leaves hold distinct symbols, in ascending order (R48, R99). -/
  sym_lt : ∀ h, h < n → ∀ k, k < h → (s.nodeAt k).sym.toNat < (s.nodeAt h).sym.toNat
  /-- A child's handle is less than its parent's, and the two children differ (R48). -/
  child_lt : ∀ p, p < 2 * n - 1 → n ≤ p →
    (s.nodeAt p).left.toNat < p ∧ (s.nodeAt p).right.toNat < p ∧ (s.nodeAt p).left ≠ (s.nodeAt p).right
  /-- A node's weight is the exact sum of its children's (R48, R101). -/
  weight_eq : ∀ p, p < 2 * n - 1 → n ≤ p →
    (s.nodeAt p).weight.toNat =
      (s.nodeAt (s.nodeAt p).left.toNat).weight.toNat + (s.nodeAt (s.nodeAt p).right.toNat).weight.toNat
  /-- Every entry other than the root is the child of exactly one internal entry (R48). -/
  one_parent : ∀ h, h < 2 * n - 2 → ∃ p, p < 2 * n - 1 ∧ n ≤ p ∧ s.isChild p h ∧
    ∀ q, q < 2 * n - 1 → n ≤ q → s.isChild q h → q = p

/-- Handles below `p` that no internal node created before `p` has as a child: those awaiting a parent when entry `p`
is made (42_tree.md R97, R98), in a tree of `n` leaves. -/
def Awaiting (s : State) (n p h : Nat) : Prop := h < p ∧ ∀ q, q < p → n ≤ q → ¬ s.isChild q h

/-- `a` comes no later than `b` in the order (weight, handle) of 42_tree.md R98. -/
def KeyLe (s : State) (a b : Nat) : Prop :=
  (s.nodeAt a).weight.toNat < (s.nodeAt b).weight.toNat ∨
  ((s.nodeAt a).weight.toNat = (s.nodeAt b).weight.toNat ∧ a ≤ b)

/-- Following a path from a node: 0 to the left child, 1 to the right (10_state.md R52). -/
def State.follow (s : State) : Handle → List Bool → Handle
  | h, [] => h
  | h, b :: bs => s.follow (if b then (s.node h).right else (s.node h).left) bs

/-- `path` leads from the root to the leaf at handle `h` (43_codes.md R106), with no leaf before its end. -/
def PathTo (s : State) (path : List Bool) (h : Nat) : Prop :=
  s.follow s.root path = BitVec.ofNat 9 h ∧ (s.nodeAt h).leaf = true ∧
  ∀ pre, pre <+: path → pre ≠ path → (s.node (s.follow s.root pre)).leaf = false

/-- No code of a symbol in `P` is a prefix of another's (43_codes.md R107). -/
def PrefixFree (P : Byte → Prop) (c : Byte → List Bool) : Prop :=
  ∀ a b, P a → P b → a ≠ b → ¬ c a <+: c b

/-! ## The invariant -/

/-- The tree state is one of three (10_state.md R49). -/
def TreeOk (s : State) : Prop :=
  (s.treeValid = false ∧ s.nodes = 0#9 ∧ s.root = 0#9) ∨
  (s.treeValid = true ∧ s.nodes = 0#9 ∧ s.root = 0#9) ∨
  (s.treeValid = true ∧ ∃ n, TreeShape s n)

/-- The code table is empty, or it is the one of the held tree (10_state.md R24, R51, R52). -/
def CodesOk (s : State) : Prop :=
  (s.codesValid = false ∧ ∀ sym, s.codeOf sym = Code.none) ∨
  (s.codesValid = true ∧ s.treeValid = true ∧ s.ct = codeTable s.treeCodes)

/-- The command state (10_state.md R24-R26, R54; 60_exceptions.md R123): a pending command has no result yet, only
codes 0x00-0x08 occur, and a success has no information word. -/
def CommandOk (s : State) : Prop :=
  (s.busy = true → s.done = false ∧ s.err = 0#8) ∧ s.err.toNat ≤ 8 ∧ (s.err = 0#8 → s.errInfo = 0#32)

/-- The results lie within the buffers' capacities (10_state.md R30, R32, R33). -/
def ResultsOk (s : State) : Prop :=
  s.outLen.toNat ≤ Config.obufBytes ∧ s.statInBits.toNat ≤ 8 * Config.ibufBytes ∧
  s.statOutBits.toNat ≤ 8 * Config.pbufBytes

/-- The invariant of the machine. -/
structure Inv (s : State) : Prop where
  mem : s.mem.wf
  command : CommandOk s
  tree : TreeOk s
  codes : CodesOk s
  results : ResultsOk s

/-- A safe run of `n` steps: none stops, and the invariant holds all along. -/
def SafeRun : Nat → State → Prop
  | 0, s => Inv s
  | n + 1, s => Inv s ∧ ∃ t, step s = .next t ∧ SafeRun n t

end Sys2Proof.Machine
end

