-- ==== Sys2Proof/Certificates/Slice0/Obligations.lean ====
section
/-! DEFINITION. The statements for the provers. Each docstring names the rule of spec/ it formalises. -/

open Sys2Proof Sys2Proof.Machine

/-! ## Encoding and the step -/

/-- Words written out from 30_encoding.md R84 and R86. -/
def Obligations.SampleWordsDecode : Prop :=
  decode 0x00000000#32 = .ok .nop ∧ decode 0x00000003#32 = .ok .build ∧ decode 0x00000006#32 = .ok .decode ∧
  decode 0x00000007#32 = .ok .encodeAll ∧ decode 0x00000100#32 = .error .reservedBits ∧
  decode 0x00000008#32 = .error .reservedOpcode ∧ decode 0xFFFFFFFF#32 = .error .reservedBits

/-- 30_encoding.md R84: each command is selected by the whole word, match = OPCODE, mask = 0xFFFFFFFF. -/
def Obligations.WholeWordSelectsCommand : Prop :=
  ∀ row ∈ [(0x00000000#32, Instr.nop), (0x00000001#32, Instr.clear), (0x00000002#32, Instr.count),
      (0x00000003#32, Instr.build), (0x00000004#32, Instr.gencodes), (0x00000005#32, Instr.encode),
      (0x00000006#32, Instr.decode), (0x00000007#32, Instr.encodeAll)],
    ∀ w : Word, decode w = .ok row.2 ↔ w &&& 0xFFFFFFFF#32 = row.1

/-- 30_encoding.md R85 and 40_control.md R92: which words are illegal, and how one is performed. -/
def Obligations.IllegalWordsRaiseIllegalCommand : Prop :=
  ∀ v : Word,
    (v.extractLsb' 8 24 ≠ 0#24 → decode v = .error .reservedBits) ∧
    (v.extractLsb' 8 24 = 0#24 → 0x08 ≤ (v.extractLsb' 0 8).toNat → decode v = .error .reservedOpcode) ∧
    (v.extractLsb' 8 24 = 0#24 → (v.extractLsb' 0 8).toNat ≤ 0x07 →
      ∃ i, decode v = .ok i ∧ i.opcode = v.extractLsb' 0 8) ∧
    (v.extractLsb' 8 24 ≠ 0#24 ∨ 0x08 ≤ (v.extractLsb' 0 8).toNat →
      ∀ s : State, s.cmd = v → ∃ t, coreStep s = .next t ∧ FailedWith 0x01#8 v s t)

/-- 30_encoding.md R82-R87: decode and encode agree, both ways. -/
def Obligations.EncodeDecodeAgree : Prop :=
  (∀ i : Instr, i.wf = true → decode (encode i) = .ok i ∧ decodeTableWord 32 (encode i).toNat = some i) ∧
  ∀ v : Word, commandWordWf v = true → ∃ i : Instr, i.wf = true ∧ encode i = v

/-- 60_exceptions.md R121: where BUSY = 1 and the turn is the core's, a step is the latched command; where BUSY = 0 the core
has no step, and its turn leaves the whole block as it is (R139). That the next transition is read off a queue in State is the
model's choice (log entry 2). -/
def Obligations.StepRunsLatchedCommand : Prop :=
  (∀ s : State, s.busy = true → s.coreNext →
    (∀ i, decode s.cmd = .ok i → step s = exec i s.popInput) ∧
    (∀ r, decode s.cmd = .error r → ∃ t, step s = .next t ∧ FailedWith 0x01#8 s.cmd s.popInput t)) ∧
  ∀ s : State, s.busy = false → s.coreNext → step s = .next s.popInput

/-- A command word handed over by `withFetchWord` is the next one performed (log entry 4). -/
def Obligations.HandedOverWordRunsNext : Prop :=
  ∀ (s : State) (i : Instr), i.wf = true →
    step (s.withFetchWord 32 (encode i).toNat) = exec i (s.startCommand (encode i))

/-- 30_encoding.md R81: the host write that starts a command, its refusal while busy, and that nothing else starts one. -/
def Obligations.CmdWriteStartsCommand : Prop :=
  (∀ (s : State) (v : Word) (rest : List Input), s.inputs = .write (.word 0x004) v :: rest →
    (s.busy = false → ∃ t, step s = .next t ∧
      t = { s with inputs := rest, response := .ok, cmd := v, busy := true, done := false, err := 0#8, errInfo := 0#32 } ∧
      (∀ i, decode v = .ok i → step { t with inputs := [] } = exec i { t with inputs := [] }) ∧
      (∀ r, decode v = .error r → ∃ u, step { t with inputs := [] } = .next u ∧
        FailedWith 0x01#8 v { t with inputs := [] } u)) ∧
    (s.busy = true → step s = .next { s with inputs := rest, response := .busError })) ∧
  ∀ s t : State, step s = .next t → s.busy = false → t.busy = true →
    ∃ x v rest, s.inputs = .write x v :: rest ∧ x.offset = 0x004 ∧ t.cmd = v

/-! ## Host accesses -/

/-- 20_memory.md R64: exactly which accesses are answered with a bus error, in which order the conditions are checked,
and that such an access changes no state of the block. -/
def Obligations.BusErrorConditions : Prop :=
  ∀ (s : State) (x : Access) (rest : List Input),
    (s.inputs = .read x :: rest → ∃ t, step s = .next t ∧
      (t.response = .busError ↔
        x.offset % 4 ≠ 0 ∨ ¬(x.width = 4 ∧ x.lanes = 0b1111#4) ∨ ¬MappedOffset x.offset) ∧
      (t.response = .busError → t = { s with inputs := rest, response := .busError })) ∧
    (∀ v, s.inputs = .write x v :: rest → ∃ t, step s = .next t ∧
      (t.response = .busError ↔
        x.offset % 4 ≠ 0 ∨ ¬(x.width = 4 ∧ x.lanes = 0b1111#4) ∨ ¬MappedOffset x.offset ∨ s.busy = true) ∧
      (t.response = .busError → t = { s with inputs := rest, response := .busError })) ∧
    (s.writeTarget? x = .error .misaligned ↔ x.offset % 4 ≠ 0) ∧
    (s.writeTarget? x = .error .partialAccess ↔ x.offset % 4 = 0 ∧ ¬(x.width = 4 ∧ x.lanes = 0b1111#4)) ∧
    (s.writeTarget? x = .error .notDecoded ↔
      x.offset % 4 = 0 ∧ (x.width = 4 ∧ x.lanes = 0b1111#4) ∧ ¬MappedOffset x.offset) ∧
    (s.writeTarget? x = .error .busyWrite ↔
      x.offset % 4 = 0 ∧ (x.width = 4 ∧ x.lanes = 0b1111#4) ∧ MappedOffset x.offset ∧ s.busy = true)

/-- 20_memory.md R65: what a read returns, idle and busy; it moves nothing but the answer and the count of draws
(R73). The idle values are named by
offset in terms of the state's fields (10_state.md R21-R36, R40); NodeWindowsShowEntry and CodeWindowsShowEntry say the rest. The
statement holds whatever the drawn words are. -/
def Obligations.ReadReturnsValueOrDraw : Prop :=
  ∀ (s : State) (a : Nat) (rest : List Input), a % 4 = 0 → MappedOffset a → s.inputs = .read (.word a) :: rest →
    ∃ w, step s = .next { s with inputs := rest, response := .data w, draws := s.draws + 1 } ∧
      (s.busy = false →
        (∀ r, regAt a = some r → w = s.readReg r) ∧
        (a = 0x000 → w = 0x48554646#32) ∧ (a = 0x004 → w = s.cmd) ∧ (a = 0x008 → w = s.statusWord) ∧
        (a = 0x00C → w = s.err.setWidth 32) ∧ (a = 0x010 → w = s.errInfo) ∧
        (a = 0x014 → w = if s.doneIe then 1#32 else 0#32) ∧ (a = 0x018 → w = s.inLen) ∧ (a = 0x01C → w = s.bitLen) ∧
        (a = 0x020 → w = s.outLen) ∧ (a = 0x024 → w.toNat = presentCount s) ∧ (a = 0x028 → w = s.statInBits) ∧
        (a = 0x02C → w = s.statOutBits) ∧ (a = 0x030 → w = s.nodes.setWidth 32) ∧ (a = 0x034 → w = s.root.setWidth 32) ∧
        (a = 0x038 → w = s.nodeSel.setWidth 32) ∧ (a = 0x04C → w = s.ctSel.setWidth 32) ∧
        (∀ sym : Byte, a = 0x400 + 4 * sym.toNat → w = s.freqOf sym) ∧
        (0x10000 ≤ a → w = s.bufferWord a)) ∧
      (s.busy = true →
        (a = 0x000 → w = 0x48554646#32) ∧ (a = 0x004 → w = s.cmd) ∧ (a = 0x008 → w = s.statusWord) ∧
        (a = 0x014 → w = if s.doneIe then 1#32 else 0#32) ∧
        (a ≠ 0x000 → a ≠ 0x004 → a ≠ 0x008 → a ≠ 0x014 → w = Config.drawWord s.draws a))

/-- 10_state.md R24: the fields of STATUS; the reserved bits read 0 (R20). -/
def Obligations.StatusWordFields : Prop :=
  ∀ s : State,
    (s.readReg .status).getLsbD 0 = s.busy ∧ (s.readReg .status).getLsbD 1 = s.done ∧
    ((s.readReg .status).getLsbD 2 = true ↔ s.err ≠ 0#8) ∧ (s.readReg .status).getLsbD 3 = s.treeValid ∧
    (s.readReg .status).getLsbD 4 = s.codesValid ∧ ∀ k, 5 ≤ k → (s.readReg .status).getLsbD k = false

/-- 10_state.md R37-R39: the windows on the selected arena entry. -/
def Obligations.NodeWindowsShowEntry : Prop :=
  regAt 0x03C = some .nodeInfo ∧ regAt 0x040 = some .nodeChild ∧ regAt 0x044 = some .nodeWlo ∧
  regAt 0x048 = some .nodeWhi ∧ (∀ r ∈ [Reg.nodeInfo, .nodeChild, .nodeWlo, .nodeWhi], r.accessType = .ro) ∧
  ∀ s : State,
    (s.nodes.toNat ≤ s.nodeSel.toNat →
      s.readReg .nodeInfo = 0#32 ∧ s.readReg .nodeChild = 0#32 ∧ s.readReg .nodeWlo = 0#32 ∧
      s.readReg .nodeWhi = 0#32) ∧
    (s.nodeSel.toNat < s.nodes.toNat →
      (s.readReg .nodeInfo).extractLsb' 0 1 = 1#1 ∧
      (s.readReg .nodeInfo).getLsbD 1 = (s.node s.nodeSel).leaf ∧
      (s.readReg .nodeInfo).extractLsb' 8 8 = (if (s.node s.nodeSel).leaf then (s.node s.nodeSel).sym else 0#8) ∧
      (s.readReg .nodeInfo).extractLsb' 2 6 = 0#6 ∧ (s.readReg .nodeInfo).extractLsb' 16 16 = 0#16 ∧
      ((s.node s.nodeSel).leaf = true → s.readReg .nodeChild = 0#32) ∧
      ((s.node s.nodeSel).leaf = false →
        (s.readReg .nodeChild).extractLsb' 0 9 = (s.node s.nodeSel).left ∧
        (s.readReg .nodeChild).extractLsb' 16 9 = (s.node s.nodeSel).right ∧
        (s.readReg .nodeChild).extractLsb' 9 7 = 0#7 ∧ (s.readReg .nodeChild).extractLsb' 25 7 = 0#7) ∧
      s.readReg .nodeWlo = (s.node s.nodeSel).weight.extractLsb' 0 32 ∧
      (s.readReg .nodeWhi).extractLsb' 0 8 = (s.node s.nodeSel).weight.extractLsb' 32 8 ∧
      (s.readReg .nodeWhi).extractLsb' 8 24 = 0#24)

/-- 10_state.md R41 and R42: the windows on the selected code-table entry. -/
def Obligations.CodeWindowsShowEntry : Prop :=
  regAt 0x050 = some .ctLen ∧ (∀ j : Fin 8, regAt (0x054 + 4 * j.val) = some (.ctBits j)) ∧
  Reg.ctLen.accessType = .ro ∧ (∀ j : Fin 8, (Reg.ctBits j).accessType = .ro) ∧
  ∀ s : State,
    (s.readReg .ctLen).toNat = (s.codeOf s.ctSel).len.toNat ∧
    ∀ (j : Fin 8) (b : Nat), b < 32 →
      (s.readReg (.ctBits j)).getLsbD b =
        (decide (32 * j.val + b < (s.codeOf s.ctSel).len.toNat) && (s.codeOf s.ctSel).bits.getLsbD (32 * j.val + b))

/-- 10_state.md R31: UNIQUE is the number of non-zero counters, at every moment, and 0 at reset. -/
def Obligations.UniqueCountsPresentSymbols : Prop :=
  regAt 0x024 = some .unique ∧ Reg.unique.accessType = .ro ∧
  (∀ s : State, (s.readReg .unique).toNat = presentCount s ∧ presentCount s ≤ 256) ∧
  State.reset.readReg .unique = 0#32

/-- 20_memory.md R66: what an accepted host write does, by what it names; the read-only offsets are those of 10_state.md R21. -/
def Obligations.HostWriteEffects : Prop :=
  ∀ (s : State) (a : Nat) (v : Word) (rest : List Input), s.busy = false → a % 4 = 0 → MappedOffset a →
    s.inputs = .write (.word a) v :: rest →
    ∃ t, step s = .next t ∧
      (∀ r, regAt a = some r → r.accessType = .ro → t = { s with inputs := rest, response := .ok }) ∧
      (a ∈ [0x000, 0x00C, 0x010, 0x020, 0x024, 0x028, 0x02C, 0x030, 0x034, 0x03C, 0x040, 0x044, 0x048, 0x050, 0x054, 0x058,
          0x05C, 0x060, 0x064, 0x068, 0x06C, 0x070] → t = { s with inputs := rest, response := .ok }) ∧
      (a = 0x004 → t = { s with
        inputs := rest, response := .ok, cmd := v, busy := true, done := false, err := 0#8, errInfo := 0#32 }) ∧
      (a = 0x008 → t = { s with inputs := rest, response := .ok, done := s.done && !v.getLsbD 1 }) ∧
      (a = 0x014 → t = { s with inputs := rest, response := .ok, doneIe := v.getLsbD 0 }) ∧
      (a = 0x018 → t = { s with inputs := rest, response := .ok, inLen := v }) ∧
      (a = 0x01C → t = { s with inputs := rest, response := .ok, bitLen := v }) ∧
      (a = 0x038 → t = { s with inputs := rest, response := .ok, nodeSel := v.extractLsb' 0 9 }) ∧
      (a = 0x04C → t = { s with inputs := rest, response := .ok, ctSel := v.extractLsb' 0 8 }) ∧
      (∀ sym : Byte, a = 0x400 + 4 * sym.toNat →
        t = { s with inputs := rest, response := .ok, freq := t.freq } ∧
        ∀ x, t.freqOf x = if x = sym then v else s.freqOf x) ∧
      (0x10000 ≤ a →
        t = { s with inputs := rest, response := .ok, mem := t.mem } ∧ SameMemOutside a 4 s t ∧
        ∀ k, k < 4 → t.mem.get? (a + k) = some (v.extractLsb' (8 * k) 8))

/-- 70_reset_and_hazards.md R149: a read that follows a host write while idle sees the written value, as far as the
register keeps it (10_state.md R27, R36, R40). -/
def Obligations.ReadAfterWriteSeesValue : Prop :=
  ∀ (s : State) (a : Nat) (v : Word), s.busy = false → a % 4 = 0 →
    s.inputs = [.write (.word a) v, .read (.word a)] →
    ∀ keep : Word,
      (a = 0x014 ∧ keep = 0x00000001#32) ∨ (a = 0x038 ∧ keep = 0x000001FF#32) ∨ (a = 0x04C ∧ keep = 0x000000FF#32) ∨
      ((a = 0x018 ∨ a = 0x01C ∨ (0x400 ≤ a ∧ a < 0x800) ∨ (0x10000 ≤ a ∧ a < 0x40000)) ∧ keep = 0xFFFFFFFF#32) →
      ∃ t, StepsTo 2 s t ∧ t.response = .data (v &&& keep)

/-- 20_memory.md R67: buffer windows are little-endian, for reads and for writes. -/
def Obligations.BufferWindowsLittleEndian : Prop :=
  ∀ (s : State) (a : Nat) (rest : List Input), s.busy = false → a % 4 = 0 → 0x10000 ≤ a → a < 0x40000 →
    (s.inputs = .read (.word a) :: rest → ∃ t w, step s = .next t ∧ t.response = .data w ∧
      ∀ k, k < 4 → w.extractLsb' (8 * k) 8 = s.byteAt (a + k)) ∧
    (∀ v, s.inputs = .write (.word a) v :: rest → ∃ t, step s = .next t ∧
      ∀ k, k < 4 → t.mem.get? (a + k) = some (v.extractLsb' (8 * k) 8))

/-- 10_state.md R46: a host write to a counter changes no other counter, no tree, no code table and no buffer. -/
def Obligations.FreqWriteKeepsTreeAndCodes : Prop :=
  ∀ (s : State) (sym : Byte) (v : Word) (rest : List Input), s.busy = false →
    s.inputs = .write (.word (0x400 + 4 * sym.toNat)) v :: rest →
    ∃ t, step s = .next t ∧ t.freqOf sym = v ∧ (∀ x, x ≠ sym → t.freqOf x = s.freqOf x) ∧ SameTree s t ∧
      SameCodes s t ∧ SameMem s t ∧ SameResults s t ∧ SameHostRegs s t

/-- 60_exceptions.md R130: the level of `irq`, and that every completion raises it where it is enabled. -/
def Obligations.InterruptFollowsDone : Prop :=
  (∀ s : State, s.irq = ((s.readReg .status).getLsbD 1 && (s.readReg .irqEn).getLsbD 0)) ∧
  ∀ s : State, ∃ t, coreStep s = .next t ∧ t.irq = s.doneIe

/-- 60_exceptions.md R131: what masks, raises and clears the interrupt. -/
def Obligations.InterruptMaskedAndCleared : Prop :=
  (∀ (s : State) (v : Word) (rest : List Input), s.busy = false →
    (s.inputs = .write (.word 0x008) v :: rest → v.getLsbD 1 = true → ∃ t, step s = .next t ∧ t.irq = false ∧ t.done = false) ∧
    (s.inputs = .write (.word 0x004) v :: rest → ∃ t, step s = .next t ∧ t.irq = false ∧ t.done = false) ∧
    (s.inputs = .write (.word 0x014) v :: rest → v.getLsbD 0 = false →
      ∃ t, step s = .next t ∧ t.irq = false ∧ t.done = s.done) ∧
    (s.inputs = .write (.word 0x014) v :: rest → v.getLsbD 0 = true → s.done = true →
      ∃ t, step s = .next t ∧ t.irq = true)) ∧
  ∀ (s : State) (rest : List Input), s.inputs = .reset :: rest → ∃ t, step s = .next t ∧ t.irq = false ∧ t.done = false

/-! ## Reset -/

/-- 10_state.md R57 and the reset column of R21. -/
def Obligations.ResetValues : Prop :=
  (∀ a r, regAt a = some r → State.reset.readReg r = if a = 0x000 then 0x48554646#32 else 0#32) ∧
  (∀ sym, State.reset.freqOf sym = 0#32 ∧ (State.reset.codeOf sym).len = 0#8 ∧ (State.reset.codeOf sym).bits = 0#255) ∧
  State.reset.nodes = 0#9 ∧ State.reset.root = 0#9 ∧ State.reset.treeValid = false ∧ State.reset.codesValid = false ∧
  State.reset.busy = false ∧ State.reset.done = false ∧
  ∀ a, State.reset.mem.get? a = none ∧ State.reset.byteAt a = Config.drawByte State.reset.draws a

/-- Reset at any time, a pending command included (70_reset_and_hazards.md R141, R142). That the state is State.reset as a
whole is more than the rules say, and the model's choice: the zero fields of arena entries (log entry 6), the last bus answer
none (log entry 3), and the count of draws and the events still lined up going on (log entries 1 and 2). -/
def Obligations.ResetEventRestoresReset : Prop :=
  ∀ (s : State) (rest : List Input), s.inputs = .reset :: rest →
    ∃ t, step s = .next t ∧ t = { State.reset with inputs := rest, draws := s.draws } ∧ t.irq = false

/-! ## NOP, CLEAR, COUNT -/

/-- 40_control.md R90: NOP does nothing beyond completing; started while DONE = 1, it clears DONE and sets it again. -/
def Obligations.NopOnlyCompletes : Prop :=
  (∀ s : State, exec .nop s =
    .next { s with err := 0#8, errInfo := 0#32, busy := false, done := true, draws := s.draws + 1 }) ∧
  (∀ (s : State) (rest : List Input), s.busy = false → s.inputs = .write (.word 0x004) 0x00000000#32 :: rest →
    ∃ u t, step s = .next u ∧ u.done = false ∧ step { u with inputs := [] } = .next t ∧ t.done = true ∧
      t.irq = s.doneIe ∧ t.treeValid = s.treeValid ∧ t.codesValid = s.codesValid) ∧
  ∃ t, step (State.reset.startCommand 0x00000000#32) = .next t ∧ t.readReg .status = 0x00000002#32 ∧ t.err = 0#8

/-- What CLEAR zeroes and what it keeps, and what the stages answer after it (40_control.md R91). That the arena entries keep
what they held is the model's choice (log entry 6): R91 only makes none of them valid. -/
def Obligations.ClearDiscardsResults : Prop :=
  ∀ s : State, ∃ t, exec .clear s = .next t ∧ Succeeded t ∧
    (∀ sym, t.freqOf sym = 0#32 ∧ (t.codeOf sym).len = 0#8 ∧ (t.codeOf sym).bits = 0#255) ∧
    t.nodes = 0#9 ∧ t.root = 0#9 ∧ t.treeValid = false ∧ t.codesValid = false ∧
    t.bitLen = 0#32 ∧ t.outLen = 0#32 ∧ t.statInBits = 0#32 ∧ t.statOutBits = 0#32 ∧
    t.readReg .unique = 0#32 ∧ (∀ h, t.node h = s.node h) ∧ SameHostRegs s t ∧ SameMem s t ∧ SameOutside s t ∧
    (∃ u, exec .gencodes t = .next u ∧ u.err = 0x02#8) ∧ (∃ u, exec .decode t = .next u ∧ u.err = 0x02#8) ∧
    (∃ u, exec .encode t = .next u ∧ u.err = 0x03#8)

/-- 41_frequency.md R93: COUNT, its error and its frame. -/
def Obligations.CountCountsInput : Prop :=
  ∀ s : State,
    (s.inLen.toNat ≤ 65536 → ∃ t, exec .count s = .next t ∧ Succeeded t ∧
      (∀ sym, (t.freqOf sym).toNat = ((Finset.range s.inLen.toNat).filter (fun i => s.ibuf i = sym)).card) ∧
      SameTree s t ∧ SameCodes s t ∧ SameResults s t ∧ SameHostRegs s t ∧ SameMem s t ∧ SameOutside s t) ∧
    (65536 < s.inLen.toNat → ∃ t, exec .count s = .next t ∧ FailedWith 0x04#8 s.inLen s t)

/-- 41_frequency.md R94: the counters add up to the input length and show the distinct bytes. -/
def Obligations.CountTotalsInputLength : Prop :=
  ∀ s : State, s.inLen.toNat ≤ 65536 → ∃ t, exec .count s = .next t ∧
    ∑ sym : Byte, (t.freqOf sym).toNat = s.inLen.toNat ∧
    ∀ sym, 1 ≤ (t.freqOf sym).toNat ↔ ∃ i, i < s.inLen.toNat ∧ s.ibuf i = sym

/-! ## BUILD -/

/-- 42_tree.md R97: BUILD cannot fail, discards the code table, and keeps everything but the tree; without a present
symbol it makes the empty tree. -/
def Obligations.BuildAlwaysCompletes : Prop :=
  ∀ s : State, ∃ t, exec .build s = .next t ∧ Succeeded t ∧ t.treeValid = true ∧ t.codesValid = false ∧
    (∀ sym, t.codeOf sym = Code.none) ∧ (presentCount s = 0 → t.nodes = 0#9 ∧ t.root = 0#9) ∧
    SameFreq s t ∧ SameResults s t ∧ SameHostRegs s t ∧ SameMem s t ∧ SameOutside s t

/-- 42_tree.md R99: leaf k holds the k-th present symbol in ascending order, with its counter as weight, and there are no
other leaves. -/
def Obligations.BuildLeavesInSymbolOrder : Prop :=
  ∀ s : State, ∃ t, exec .build s = .next t ∧
    (∀ sym : Byte, s.freqOf sym ≠ 0#32 →
      presentBelow s sym < presentCount s ∧ (t.nodeAt (presentBelow s sym)).leaf = true ∧
      (t.nodeAt (presentBelow s sym)).sym = sym ∧
      (t.nodeAt (presentBelow s sym)).weight.toNat = (s.freqOf sym).toNat) ∧
    ∀ h, h < t.nodes.toNat → (t.nodeAt h).leaf = true →
      s.freqOf (t.nodeAt h).sym ≠ 0#32 ∧ h = presentBelow s (t.nodeAt h).sym

/-- 42_tree.md R100: the size, the root and the height of the tree. -/
def Obligations.BuildSizeRootHeight : Prop :=
  ∀ s : State, ∃ t, exec .build s = .next t ∧
    (presentCount s = 0 → t.nodes = 0#9) ∧
    (presentCount s = 1 → t.nodes = 1#9 ∧ t.root = 0#9 ∧ (t.nodeAt 0).leaf = true) ∧
    (2 ≤ presentCount s →
      t.nodes.toNat = 2 * presentCount s - 1 ∧ t.nodes.toNat ≤ 511 ∧ t.root.toNat = 2 * presentCount s - 2 ∧
      ((Finset.range t.nodes.toNat).filter (fun h => (t.nodeAt h).leaf = false)).card = presentCount s - 1 ∧
      ∀ p h, PathTo t p h → p.length ≤ presentCount s - 1 ∧ p.length ≤ 255)

/-- 42_tree.md R98: the leaves take the first handles in symbol order; then every merge takes the two smallest nodes awaiting a
parent by (weight, handle), the smaller as the left child, under a node that weighs their sum and takes the next handle; the
last node made is the root. -/
def Obligations.BuildMergesSmallestFirst : Prop :=
  ∀ s : State, ∃ t, exec .build s = .next t ∧
    (∀ h, h < presentCount s → (t.nodeAt h).leaf = true ∧ ∀ k, k < h → (t.nodeAt k).sym.toNat < (t.nodeAt h).sym.toNat) ∧
    (1 ≤ presentCount s → t.nodes.toNat = 2 * presentCount s - 1 ∧ t.root.toNat = 2 * presentCount s - 2) ∧
    ∀ p, presentCount s ≤ p → p < 2 * presentCount s - 1 →
      (t.nodeAt p).leaf = false ∧
      (t.nodeAt p).weight.toNat = (t.node (t.nodeAt p).left).weight.toNat + (t.node (t.nodeAt p).right).weight.toNat ∧
      Awaiting t (presentCount s) p (t.nodeAt p).left.toNat ∧
      (∀ h, Awaiting t (presentCount s) p h → KeyLe t (t.nodeAt p).left.toNat h) ∧
      Awaiting t (presentCount s) p (t.nodeAt p).right.toNat ∧
      (t.nodeAt p).right.toNat ≠ (t.nodeAt p).left.toNat ∧
      ∀ h, Awaiting t (presentCount s) p h → h ≠ (t.nodeAt p).left.toNat → KeyLe t (t.nodeAt p).right.toNat h

/-- 10_state.md R48 for the tree BUILD makes. -/
def Obligations.BuildMakesStrictTree : Prop :=
  ∀ s : State, 1 ≤ presentCount s → ∃ t, exec .build s = .next t ∧ TreeShape t (presentCount s)

/-- 42_tree.md R101: leaf weights are counters, internal weights exact sums, the root weighs the whole table, below 2^40;
after a COUNT it weighs IN_LEN. -/
def Obligations.BuildWeightsExact : Prop :=
  (∀ s : State, 1 ≤ presentCount s → ∃ t, exec .build s = .next t ∧
    (∀ h, h < presentCount s → (t.nodeAt h).weight = (s.freqOf (t.nodeAt h).sym).setWidth 40) ∧
    (∀ p, presentCount s ≤ p → p < 2 * presentCount s - 1 →
      (t.nodeAt p).weight.toNat = (t.node (t.nodeAt p).left).weight.toNat + (t.node (t.nodeAt p).right).weight.toNat) ∧
    (t.node t.root).weight.toNat = ∑ sym : Byte, (s.freqOf sym).toNat ∧
    ∑ sym : Byte, (s.freqOf sym).toNat < 2 ^ 40) ∧
  ∀ s : State, 1 ≤ s.inLen.toNat → s.inLen.toNat ≤ 65536 → ∃ u t, exec .count s = .next u ∧ exec .build u = .next t ∧
    (t.node t.root).weight.toNat = s.inLen.toNat

/-- 42_tree.md R102: no prefix code for the counters has a smaller weighted length than the codes of the tree BUILD makes
(two or more present symbols). -/
def Obligations.BuildIsOptimal : Prop :=
  ∀ s : State, 2 ≤ presentCount s → ∃ t u, exec .build s = .next t ∧ exec .gencodes t = .next u ∧
    ∀ c : Byte → List Bool, PrefixFree (fun sym => s.freqOf sym ≠ 0#32) c →
      ∑ sym : Byte, (s.freqOf sym).toNat * (u.codeOf sym).len.toNat ≤ ∑ sym : Byte, (s.freqOf sym).toNat * (c sym).length

/-! ## GENCODES -/

/-- 43_codes.md R106: on a tree of two or more leaves the code of each leaf's symbol is the path to it, every other symbol
has none; nothing else changes. -/
def Obligations.GencodesAssignsPaths : Prop :=
  ∀ (s : State) (n : Nat), s.treeValid = true → TreeShape s n → 2 ≤ n → ∃ t, exec .gencodes s = .next t ∧ Succeeded t ∧
    t.codesValid = true ∧
    (∀ h, h < n → ∃ p, PathTo s p h ∧ (t.codeOf (s.nodeAt h).sym).toBits = p ∧
      (t.codeOf (s.nodeAt h).sym).len.toNat = p.length ∧ 1 ≤ p.length ∧ p.length ≤ n - 1 ∧ n - 1 ≤ 255) ∧
    (∀ sym, (∀ h, h < n → (s.nodeAt h).sym ≠ sym) → t.codeOf sym = Code.none) ∧
    SameTree s t ∧ SameFreq s t ∧ SameResults s t ∧ SameHostRegs s t ∧ SameMem s t ∧ SameOutside s t

/-- 43_codes.md R104 and R105: no tree, the empty tree, and the single leaf with its one-bit code `0`. -/
def Obligations.GencodesSmallTrees : Prop :=
  ∀ s : State,
    (s.treeValid = false → ∃ t, exec .gencodes s = .next t ∧ FailedWith 0x02#8 0#32 s t) ∧
    (s.treeValid = true → s.nodes = 0#9 → ∃ t, exec .gencodes s = .next t ∧ Succeeded t ∧ t.codesValid = true ∧
      (∀ sym, t.codeOf sym = Code.none) ∧ SameTree s t ∧ SameFreq s t ∧ SameResults s t ∧ SameHostRegs s t ∧
      SameMem s t ∧ SameOutside s t) ∧
    (s.treeValid = true → TreeShape s 1 → ∃ t, exec .gencodes s = .next t ∧ Succeeded t ∧ t.codesValid = true ∧
      (∀ sym, (t.codeOf sym).toBits = if sym = (s.nodeAt 0).sym then [false] else []) ∧
      SameTree s t ∧ SameFreq s t ∧ SameResults s t ∧ SameHostRegs s t ∧ SameMem s t ∧ SameOutside s t)

/-- 43_codes.md R107: a valid code table is prefix-free, and so is every table GENCODES writes. -/
def Obligations.CodeTableIsPrefixFree : Prop :=
  ∀ s : State, Inv s →
    (s.codesValid = true → PrefixFree (fun sym => (s.codeOf sym).len ≠ 0#8) (fun sym => (s.codeOf sym).toBits)) ∧
    (s.treeValid = true → ∃ t, exec .gencodes s = .next t ∧ t.codesValid = true ∧
      PrefixFree (fun sym => (t.codeOf sym).len ≠ 0#8) (fun sym => (t.codeOf sym).toBits))

/-! ## ENCODE and ENCODE_ALL -/

/-- 44_encode.md R109 and R112: a successful ENCODE. The stored bytes are PBUF[0..⌈t/8⌉-1]. -/
def Obligations.EncodePacksCodes : Prop :=
  ∀ (s : State) (bits : List Bool),
    bits = (List.range s.inLen.toNat).flatMap (fun i => (s.codeOf (s.ibuf i)).toBits) →
    s.codesValid = true → s.inLen.toNat ≤ 65536 →
    (∀ i, i < s.inLen.toNat → (s.codeOf (s.ibuf i)).len ≠ 0#8) → bits.length ≤ 8 * 65536 →
    ∃ t, exec .encode s = .next t ∧ Succeeded t ∧
      (∀ k (h : k < bits.length), t.pbit k = bits[k]) ∧
      (∀ k, bits.length ≤ k → k < 8 * ((bits.length + 7) / 8) → t.pbit k = false) ∧
      SameMemOutside 0x20000 ((bits.length + 7) / 8) s t ∧
      t.bitLen.toNat = bits.length ∧ t.statInBits.toNat = 8 * s.inLen.toNat ∧ t.statOutBits.toNat = bits.length ∧
      t.outLen = s.outLen ∧ SameFreq s t ∧ SameTree s t ∧ SameCodes s t ∧ SameHostRegs s t ∧ SameOutside s t

/-- 44_encode.md R109: the errors of ENCODE, in the order they are checked. -/
def Obligations.EncodeErrorsInOrder : Prop :=
  ∀ s : State,
    (s.codesValid = false → ∃ t, exec .encode s = .next t ∧ FailedWith 0x03#8 0#32 s t) ∧
    (s.codesValid = true → 65536 < s.inLen.toNat → ∃ t, exec .encode s = .next t ∧ FailedWith 0x04#8 s.inLen s t) ∧
    (s.codesValid = true → s.inLen.toNat ≤ 65536 → ∀ i, i < s.inLen.toNat →
      (∀ j, j < i → (s.codeOf (s.ibuf j)).len ≠ 0#8) →
      ∑ j ∈ Finset.range i, (s.codeOf (s.ibuf j)).len.toNat ≤ 8 * 65536 →
      ((s.codeOf (s.ibuf i)).len = 0#8 → ∃ t, exec .encode s = .next t ∧ FailedWith 0x05#8 (BitVec.ofNat 32 i) s t) ∧
      ((s.codeOf (s.ibuf i)).len ≠ 0#8 → 8 * 65536 < ∑ j ∈ Finset.range (i + 1), (s.codeOf (s.ibuf j)).len.toNat →
        ∃ t, exec .encode s = .next t ∧ FailedWith 0x06#8 (BitVec.ofNat 32 i) s t))

/-- 44_encode.md R110: ENCODE_ALL is COUNT, BUILD, GENCODES and ENCODE, as one command, all or nothing. The input bytes are
written, since four commands draw an unwritten byte once each and one command only once (20_memory.md R71). The clause for a
last stage that fails says what R110 says of it; EncodeAllAlwaysFits states that it is never met. -/
def Obligations.EncodeAllIsTheFourStages : Prop :=
  ∀ s : State,
    (65536 < s.inLen.toNat → ∃ e, exec .encodeAll s = .next e ∧ FailedWith 0x04#8 s.inLen s e) ∧
    (s.inLen.toNat ≤ 65536 → (∀ i, i < s.inLen.toNat → s.mem.get? (0x10000 + i) ≠ none) →
      ∃ a b c d e, exec .count s = .next a ∧ exec .build a = .next b ∧ exec .gencodes b = .next c ∧
        exec .encode c = .next d ∧ exec .encodeAll s = .next e ∧
        (d.err = 0#8 → e = { d with draws := s.draws + 1 }) ∧ (d.err ≠ 0#8 → FailedWith d.err d.errInfo s e))

/-- 44_encode.md R110 and R111: ENCODE_ALL of an input in range always succeeds, unwritten input bytes included; its
payload is at most 8 * IN_LEN bits, IN_LEN bits for one distinct symbol, none for an empty input. -/
def Obligations.EncodeAllAlwaysFits : Prop :=
  ∀ s : State, s.inLen.toNat ≤ 65536 → ∃ t, exec .encodeAll s = .next t ∧ Succeeded t ∧ t.treeValid = true ∧
    t.codesValid = true ∧
    (∀ sym, (t.freqOf sym).toNat = ((Finset.range s.inLen.toNat).filter (fun i => s.ibuf i = sym)).card) ∧
    t.bitLen.toNat ≤ 8 * s.inLen.toNat ∧ (presentCount t = 1 → t.bitLen.toNat = s.inLen.toNat) ∧
    (presentCount t = 0 → t.bitLen = 0#32) ∧
    t.statInBits.toNat = 8 * s.inLen.toNat ∧ t.statOutBits = t.bitLen ∧
    SameMemOutside 0x20000 ((t.bitLen.toNat + 7) / 8) s t ∧ t.outLen = s.outLen ∧ SameHostRegs s t ∧ SameOutside s t

/-! ## DECODE -/

/-- 45_decode.md R117: decoding with the empty tree. -/
def Obligations.DecodeWithEmptyTree : Prop :=
  ∀ s : State, s.treeValid = true → s.nodes = 0#9 →
    (s.bitLen = 0#32 → ∃ t, exec .decode s = .next t ∧ Succeeded t ∧ t.outLen = 0#32 ∧ SameMem s t ∧
      SameTree s t ∧ SameCodes s t ∧ SameFreq s t ∧ SameHostRegs s t ∧ t.bitLen = s.bitLen ∧
      t.statInBits = s.statInBits ∧ t.statOutBits = s.statOutBits ∧ SameOutside s t) ∧
    (s.bitLen ≠ 0#32 → s.bitLen.toNat ≤ 8 * 65536 → ∃ t, exec .decode s = .next t ∧ FailedWith 0x07#8 0#32 s t)

/-- 45_decode.md R116: with a single leaf every bit gives its symbol, whatever the bit; the 65537th symbol overflows. -/
def Obligations.DecodeWithSingleLeaf : Prop :=
  ∀ s : State, s.treeValid = true → TreeShape s 1 →
    (s.bitLen.toNat ≤ 65536 → ∃ t, exec .decode s = .next t ∧ Succeeded t ∧ t.outLen = s.bitLen ∧
      (∀ j, j < s.bitLen.toNat → t.mem.get? (0x30000 + j) = some (s.nodeAt 0).sym) ∧
      SameMemOutside 0x30000 s.bitLen.toNat s t ∧ SameTree s t ∧ SameCodes s t ∧ SameFreq s t ∧ SameHostRegs s t ∧
      t.bitLen = s.bitLen ∧ t.statInBits = s.statInBits ∧ t.statOutBits = s.statOutBits ∧ SameOutside s t) ∧
    (65536 < s.bitLen.toNat → s.bitLen.toNat ≤ 8 * 65536 →
      ∃ t, exec .decode s = .next t ∧ FailedWith 0x08#8 65536#32 s t)

/-- 45_decode.md R114 and R115: a payload of whole codewords decodes to their symbols. The stored bytes are
OBUF[0..m-1]. -/
def Obligations.DecodeWalksCodewords : Prop :=
  ∀ (s : State) (n : Nat) (cw : List (List Bool × Nat)), s.treeValid = true → TreeShape s n → 2 ≤ n →
    s.bitLen.toNat ≤ 8 * 65536 → (∀ c ∈ cw, c.2 < n ∧ PathTo s c.1 c.2) →
    (List.range s.bitLen.toNat).map s.pbit = cw.flatMap Prod.fst → cw.length ≤ 65536 →
    ∃ t, exec .decode s = .next t ∧ Succeeded t ∧ t.outLen.toNat = cw.length ∧
      (∀ j (h : j < cw.length), t.mem.get? (0x30000 + j) = some (s.nodeAt cw[j].2).sym) ∧
      SameMemOutside 0x30000 cw.length s t ∧ SameTree s t ∧ SameCodes s t ∧ SameFreq s t ∧ SameHostRegs s t ∧
      t.bitLen = s.bitLen ∧ t.statInBits = s.statInBits ∧ t.statOutBits = s.statOutBits ∧ SameOutside s t

/-- 45_decode.md R118: a payload that ends inside the tree is an error, with the first bit of the unfinished codeword, and
no decoded byte is committed. -/
def Obligations.DecodeUnfinishedCodewordFails : Prop :=
  ∀ (s : State) (n : Nat) (cw : List (List Bool × Nat)) (q : List Bool), s.treeValid = true → TreeShape s n → 2 ≤ n →
    s.bitLen.toNat ≤ 8 * 65536 → (∀ c ∈ cw, c.2 < n ∧ PathTo s c.1 c.2) →
    (List.range s.bitLen.toNat).map s.pbit = cw.flatMap Prod.fst ++ q → cw.length ≤ 65536 → q ≠ [] →
    (∀ pre, pre <+: q → (s.node (s.follow s.root pre)).leaf = false) →
    ∃ t, exec .decode s = .next t ∧ FailedWith 0x07#8 (BitVec.ofNat 32 (cw.flatMap Prod.fst).length) s t

/-- 45_decode.md R114: the first symbol beyond OBUF overflows, with the first bit of its codeword, whatever follows. -/
def Obligations.DecodeOverflowFails : Prop :=
  ∀ (s : State) (n : Nat) (cw : List (List Bool × Nat)) (c : List Bool × Nat) (rest : List Bool),
    s.treeValid = true → TreeShape s n → 2 ≤ n → s.bitLen.toNat ≤ 8 * 65536 →
    (∀ d ∈ c :: cw, d.2 < n ∧ PathTo s d.1 d.2) → cw.length = 65536 →
    (List.range s.bitLen.toNat).map s.pbit = cw.flatMap Prod.fst ++ c.1 ++ rest →
    ∃ t, exec .decode s = .next t ∧ FailedWith 0x08#8 (BitVec.ofNat 32 (cw.flatMap Prod.fst).length) s t

/-- 45_decode.md R114: DECODE depends on the tree, BIT_LEN and the payload bits below BIT_LEN alone: neither padding bits
nor the counters, the codes or the input matter. -/
def Obligations.DecodeReadsOnlyPayloadBits : Prop :=
  ∀ s s' : State, SameTree s s' → s'.bitLen = s.bitLen → (∀ k, k < s.bitLen.toNat → s'.pbit k = s.pbit k) →
    ∃ t t', exec .decode s = .next t ∧ exec .decode s' = .next t' ∧ t'.err = t.err ∧ t'.errInfo = t.errInfo ∧
      (t.err = 0#8 → t'.outLen = t.outLen ∧
        ∀ j, j < t.outLen.toNat → t'.mem.get? (0x30000 + j) = t.mem.get? (0x30000 + j))

/-- 45_decode.md R120: DECODE after ENCODE_ALL gives the input back, whatever the host did in between, as long as the tree,
BIT_LEN and the payload bytes are those ENCODE_ALL left. -/
def Obligations.DecodeInvertsEncodeAll : Prop :=
  ∀ s : State, s.inLen.toNat ≤ 65536 → (∀ i, i < s.inLen.toNat → s.mem.get? (0x10000 + i) ≠ none) →
    ∃ t, exec .encodeAll s = .next t ∧ Succeeded t ∧
      ∀ u : State, SameTree t u → u.bitLen = t.bitLen →
        (∀ k, k < 65536 → u.mem.get? (0x20000 + k) = t.mem.get? (0x20000 + k)) →
        ∃ w, exec .decode u = .next w ∧ Succeeded w ∧ w.outLen = s.inLen ∧
          ∀ i, i < s.inLen.toNat → w.mem.get? (0x30000 + i) = s.mem.get? (0x10000 + i)

/-! ## Errors -/

/-- 60_exceptions.md R128: a command that raises commits nothing but ERR, ERR_INFO, BUSY and DONE. -/
def Obligations.ErrorsCommitNothing : Prop :=
  ∀ s t : State, coreStep s = .next t → t.err ≠ 0#8 → FailedWith t.err t.errInfo s t

/-- 60_exceptions.md R121 and R123: every command word is performed in one step that ends it, with a result among codes
0x00-0x08 and no information word on success. -/
def Obligations.EveryCommandCompletes : Prop :=
  ∀ s : State, ∃ t, coreStep s = .next t ∧ t.busy = false ∧ t.done = true ∧ t.err.toNat ≤ 8 ∧
    (t.err = 0#8 → t.errInfo = 0#32) ∧ SameHostRegs s t ∧ SameOutside s t

/-- 60_exceptions.md R123: the errors each command can raise. -/
def Obligations.ErrorCodesByCommand : Prop :=
  ∀ s : State,
    (∃ t, exec .nop s = .next t ∧ t.err = 0x00#8) ∧ (∃ t, exec .clear s = .next t ∧ t.err = 0x00#8) ∧
    (∃ t, exec .count s = .next t ∧ t.err ∈ [0x00#8, 0x04#8]) ∧ (∃ t, exec .build s = .next t ∧ t.err = 0x00#8) ∧
    (∃ t, exec .gencodes s = .next t ∧ t.err ∈ [0x00#8, 0x02#8]) ∧
    (∃ t, exec .encode s = .next t ∧ t.err ∈ [0x00#8, 0x03#8, 0x04#8, 0x05#8, 0x06#8]) ∧
    (∃ t, exec .decode s = .next t ∧ t.err ∈ [0x00#8, 0x02#8, 0x04#8, 0x07#8, 0x08#8]) ∧
    (∃ t, exec .encodeAll s = .next t ∧ t.err ∈ [0x00#8, 0x04#8, 0x06#8])

/-- 60_exceptions.md R126: the stage precondition comes before the length, whatever the length. -/
def Obligations.PreconditionBeforeLength : Prop :=
  ∀ s : State,
    (s.treeValid = false → ∃ t, exec .decode s = .next t ∧ FailedWith 0x02#8 0#32 s t) ∧
    (s.treeValid = true → 8 * 65536 < s.bitLen.toNat → ∃ t, exec .decode s = .next t ∧ FailedWith 0x04#8 s.bitLen s t) ∧
    (s.codesValid = false → ∃ t, exec .encode s = .next t ∧ FailedWith 0x03#8 0#32 s t) ∧
    (s.codesValid = true → 65536 < s.inLen.toNat → ∃ t, exec .encode s = .next t ∧ FailedWith 0x04#8 s.inLen s t)

/-! ## The whole machine -/

/-- No transition stops the machine. This is the model's deduction (log entry 10, marked DEDUCED): 60_exceptions.md R123, R125
and R129 give every command word and every access an outcome, and no rule says in so many words that nothing stops. -/
def Obligations.NoStepStops : Prop := ∀ s : State, ∃ t, step s = .next t

/-- The invariant holds at reset. -/
def Obligations.InvariantAtReset : Prop := Inv State.reset

/-- Every transition keeps the invariant: the canonical memory, the command state, one of the three tree states of
10_state.md R49 with the tree of R48, the code table of R51 and R52, the bounds of the results. -/
def Obligations.InvariantKeptByStep : Prop := ∀ s t : State, Inv s → step s = .next t → Inv t

/-- 10_state.md R50: what writes the tree. -/
def Obligations.OnlyBuildersWriteTree : Prop :=
  ∀ s t : State, step s = .next t → ¬SameTree s t →
    (s.busy = true ∧ s.coreNext ∧
      (decode s.cmd = .ok .build ∨ decode s.cmd = .ok .encodeAll ∨ decode s.cmd = .ok .clear)) ∨
    ∃ rest, s.inputs = .reset :: rest

/-- 10_state.md R53: what writes the code table. -/
def Obligations.OnlyGeneratorsWriteCodes : Prop :=
  ∀ s t : State, step s = .next t → ¬SameCodes s t →
    (s.busy = true ∧ s.coreNext ∧
      (decode s.cmd = .ok .gencodes ∨ decode s.cmd = .ok .encodeAll ∨ decode s.cmd = .ok .build ∨
        decode s.cmd = .ok .clear)) ∨
    ∃ rest, s.inputs = .reset :: rest

/-- 10_state.md R44: what writes the frequency table. -/
def Obligations.OnlyCountersWriteFreq : Prop :=
  ∀ (s t : State) (sym : Byte), step s = .next t → t.freqOf sym ≠ s.freqOf sym →
    (s.busy = true ∧ s.coreNext ∧
      (decode s.cmd = .ok .count ∨ decode s.cmd = .ok .encodeAll ∨ decode s.cmd = .ok .clear)) ∨
    (s.busy = false ∧ ∃ x v rest, s.inputs = .write x v :: rest ∧ x.offset = 0x400 + 4 * sym.toNat ∧ t.freqOf sym = v) ∨
    ∃ rest, s.inputs = .reset :: rest

/-- 20_memory.md R60: what writes a buffer byte, and in which window. -/
def Obligations.OnlyTheseWriteBuffers : Prop :=
  ∀ (s t : State) (a : Nat), step s = .next t → t.mem.get? a ≠ s.mem.get? a →
    (s.busy = true ∧ s.coreNext ∧ 0x20000 ≤ a ∧ a < 0x30000 ∧
      (decode s.cmd = .ok .encode ∨ decode s.cmd = .ok .encodeAll)) ∨
    (s.busy = true ∧ s.coreNext ∧ 0x30000 ≤ a ∧ a < 0x40000 ∧ decode s.cmd = .ok .decode) ∨
    (s.busy = false ∧ ∃ x v rest, s.inputs = .write x v :: rest ∧ x.offset ≤ a ∧ a < x.offset + 4 ∧
      0x10000 ≤ a ∧ a < 0x40000) ∨
    ∃ rest, s.inputs = .reset :: rest

/-- 70_reset_and_hazards.md R150 and 20_memory.md R75, R76: however many accesses the host makes, the pending command is
then performed, on the state as it stood at its start but for the last bus answer and the count of draws. The queue of
events is the model's form (log entry 2). -/
def Obligations.PendingCommandIsPerformed : Prop :=
  ∀ s : State, s.busy = true → (∀ x ∈ s.inputs, x.isAccess = true) →
    ∃ t, StepsTo (s.inputs.length + 1) s t ∧ t.busy = false ∧ t.done = true ∧
      ∃ r d, s.draws ≤ d ∧ coreStep { s with inputs := [], response := r, draws := d } = .next t

/-- 30_encoding.md R89: WAIT ends, with a STATUS read that shows BUSY = 0 and DONE = 1. How many polls come first is an
argument, the model's choice (log entry 13). -/
def Obligations.WaitEndsWithDone : Prop :=
  ∀ (s : State) (polls : Nat) (rest : List Input), s.busy = true → s.inputs = waitInputs polls ++ rest →
    ∃ t w, StepsTo (polls + 2) s t ∧ t.inputs = rest ∧ t.busy = false ∧ t.response = .data w ∧
      w.getLsbD 0 = false ∧ w.getLsbD 1 = true
end

