-- ==== Sys2Proof/Laws/State.lean ====
section
/-! SUPPORT. One lemma per field per named update of State, true by rfl, so that no later proof unfolds an update. -/

namespace Sys2Proof.Machine

open Sys2Proof

variable (s : State)

@[simp] theorem State.startCommand_cmd (v : Word) : (s.startCommand v).cmd = v := rfl
@[simp] theorem State.startCommand_busy (v : Word) : (s.startCommand v).busy = true := rfl
@[simp] theorem State.startCommand_done (v : Word) : (s.startCommand v).done = false := rfl
@[simp] theorem State.startCommand_treeValid (v : Word) : (s.startCommand v).treeValid = s.treeValid := rfl
@[simp] theorem State.startCommand_codesValid (v : Word) : (s.startCommand v).codesValid = s.codesValid := rfl
@[simp] theorem State.startCommand_err (v : Word) : (s.startCommand v).err = 0#8 := rfl
@[simp] theorem State.startCommand_errInfo (v : Word) : (s.startCommand v).errInfo = 0#32 := rfl
@[simp] theorem State.startCommand_doneIe (v : Word) : (s.startCommand v).doneIe = s.doneIe := rfl
@[simp] theorem State.startCommand_inLen (v : Word) : (s.startCommand v).inLen = s.inLen := rfl
@[simp] theorem State.startCommand_bitLen (v : Word) : (s.startCommand v).bitLen = s.bitLen := rfl
@[simp] theorem State.startCommand_outLen (v : Word) : (s.startCommand v).outLen = s.outLen := rfl
@[simp] theorem State.startCommand_statInBits (v : Word) : (s.startCommand v).statInBits = s.statInBits := rfl
@[simp] theorem State.startCommand_statOutBits (v : Word) : (s.startCommand v).statOutBits = s.statOutBits := rfl
@[simp] theorem State.startCommand_nodes (v : Word) : (s.startCommand v).nodes = s.nodes := rfl
@[simp] theorem State.startCommand_root (v : Word) : (s.startCommand v).root = s.root := rfl
@[simp] theorem State.startCommand_nodeSel (v : Word) : (s.startCommand v).nodeSel = s.nodeSel := rfl
@[simp] theorem State.startCommand_ctSel (v : Word) : (s.startCommand v).ctSel = s.ctSel := rfl
@[simp] theorem State.startCommand_freq (v : Word) : (s.startCommand v).freq = s.freq := rfl
@[simp] theorem State.startCommand_arena (v : Word) : (s.startCommand v).arena = s.arena := rfl
@[simp] theorem State.startCommand_ct (v : Word) : (s.startCommand v).ct = s.ct := rfl
@[simp] theorem State.startCommand_mem (v : Word) : (s.startCommand v).mem = s.mem := rfl
@[simp] theorem State.startCommand_inputs (v : Word) : (s.startCommand v).inputs = s.inputs := rfl
@[simp] theorem State.startCommand_response (v : Word) : (s.startCommand v).response = s.response := rfl
@[simp] theorem State.startCommand_draws (v : Word) : (s.startCommand v).draws = s.draws := rfl

@[simp] theorem State.succeed_cmd : (s.succeed).cmd = s.cmd := rfl
@[simp] theorem State.succeed_busy : (s.succeed).busy = false := rfl
@[simp] theorem State.succeed_done : (s.succeed).done = true := rfl
@[simp] theorem State.succeed_treeValid : (s.succeed).treeValid = s.treeValid := rfl
@[simp] theorem State.succeed_codesValid : (s.succeed).codesValid = s.codesValid := rfl
@[simp] theorem State.succeed_err : (s.succeed).err = 0#8 := rfl
@[simp] theorem State.succeed_errInfo : (s.succeed).errInfo = 0#32 := rfl
@[simp] theorem State.succeed_doneIe : (s.succeed).doneIe = s.doneIe := rfl
@[simp] theorem State.succeed_inLen : (s.succeed).inLen = s.inLen := rfl
@[simp] theorem State.succeed_bitLen : (s.succeed).bitLen = s.bitLen := rfl
@[simp] theorem State.succeed_outLen : (s.succeed).outLen = s.outLen := rfl
@[simp] theorem State.succeed_statInBits : (s.succeed).statInBits = s.statInBits := rfl
@[simp] theorem State.succeed_statOutBits : (s.succeed).statOutBits = s.statOutBits := rfl
@[simp] theorem State.succeed_nodes : (s.succeed).nodes = s.nodes := rfl
@[simp] theorem State.succeed_root : (s.succeed).root = s.root := rfl
@[simp] theorem State.succeed_nodeSel : (s.succeed).nodeSel = s.nodeSel := rfl
@[simp] theorem State.succeed_ctSel : (s.succeed).ctSel = s.ctSel := rfl
@[simp] theorem State.succeed_freq : (s.succeed).freq = s.freq := rfl
@[simp] theorem State.succeed_arena : (s.succeed).arena = s.arena := rfl
@[simp] theorem State.succeed_ct : (s.succeed).ct = s.ct := rfl
@[simp] theorem State.succeed_mem : (s.succeed).mem = s.mem := rfl
@[simp] theorem State.succeed_inputs : (s.succeed).inputs = s.inputs := rfl
@[simp] theorem State.succeed_response : (s.succeed).response = s.response := rfl
@[simp] theorem State.succeed_draws : (s.succeed).draws = s.draws + 1 := rfl

@[simp] theorem State.raise_cmd (e : CmdError) : (s.raise e).cmd = s.cmd := rfl
@[simp] theorem State.raise_busy (e : CmdError) : (s.raise e).busy = false := rfl
@[simp] theorem State.raise_done (e : CmdError) : (s.raise e).done = true := rfl
@[simp] theorem State.raise_treeValid (e : CmdError) : (s.raise e).treeValid = s.treeValid := rfl
@[simp] theorem State.raise_codesValid (e : CmdError) : (s.raise e).codesValid = s.codesValid := rfl
@[simp] theorem State.raise_err (e : CmdError) : (s.raise e).err = e.code.code := rfl
@[simp] theorem State.raise_errInfo (e : CmdError) : (s.raise e).errInfo = e.info := rfl
@[simp] theorem State.raise_doneIe (e : CmdError) : (s.raise e).doneIe = s.doneIe := rfl
@[simp] theorem State.raise_inLen (e : CmdError) : (s.raise e).inLen = s.inLen := rfl
@[simp] theorem State.raise_bitLen (e : CmdError) : (s.raise e).bitLen = s.bitLen := rfl
@[simp] theorem State.raise_outLen (e : CmdError) : (s.raise e).outLen = s.outLen := rfl
@[simp] theorem State.raise_statInBits (e : CmdError) : (s.raise e).statInBits = s.statInBits := rfl
@[simp] theorem State.raise_statOutBits (e : CmdError) : (s.raise e).statOutBits = s.statOutBits := rfl
@[simp] theorem State.raise_nodes (e : CmdError) : (s.raise e).nodes = s.nodes := rfl
@[simp] theorem State.raise_root (e : CmdError) : (s.raise e).root = s.root := rfl
@[simp] theorem State.raise_nodeSel (e : CmdError) : (s.raise e).nodeSel = s.nodeSel := rfl
@[simp] theorem State.raise_ctSel (e : CmdError) : (s.raise e).ctSel = s.ctSel := rfl
@[simp] theorem State.raise_freq (e : CmdError) : (s.raise e).freq = s.freq := rfl
@[simp] theorem State.raise_arena (e : CmdError) : (s.raise e).arena = s.arena := rfl
@[simp] theorem State.raise_ct (e : CmdError) : (s.raise e).ct = s.ct := rfl
@[simp] theorem State.raise_mem (e : CmdError) : (s.raise e).mem = s.mem := rfl
@[simp] theorem State.raise_inputs (e : CmdError) : (s.raise e).inputs = s.inputs := rfl
@[simp] theorem State.raise_response (e : CmdError) : (s.raise e).response = s.response := rfl
@[simp] theorem State.raise_draws (e : CmdError) : (s.raise e).draws = s.draws + 1 := rfl

@[simp] theorem State.acknowledge_cmd : (s.acknowledge).cmd = s.cmd := rfl
@[simp] theorem State.acknowledge_busy : (s.acknowledge).busy = s.busy := rfl
@[simp] theorem State.acknowledge_done : (s.acknowledge).done = false := rfl
@[simp] theorem State.acknowledge_treeValid : (s.acknowledge).treeValid = s.treeValid := rfl
@[simp] theorem State.acknowledge_codesValid : (s.acknowledge).codesValid = s.codesValid := rfl
@[simp] theorem State.acknowledge_err : (s.acknowledge).err = s.err := rfl
@[simp] theorem State.acknowledge_errInfo : (s.acknowledge).errInfo = s.errInfo := rfl
@[simp] theorem State.acknowledge_doneIe : (s.acknowledge).doneIe = s.doneIe := rfl
@[simp] theorem State.acknowledge_inLen : (s.acknowledge).inLen = s.inLen := rfl
@[simp] theorem State.acknowledge_bitLen : (s.acknowledge).bitLen = s.bitLen := rfl
@[simp] theorem State.acknowledge_outLen : (s.acknowledge).outLen = s.outLen := rfl
@[simp] theorem State.acknowledge_statInBits : (s.acknowledge).statInBits = s.statInBits := rfl
@[simp] theorem State.acknowledge_statOutBits : (s.acknowledge).statOutBits = s.statOutBits := rfl
@[simp] theorem State.acknowledge_nodes : (s.acknowledge).nodes = s.nodes := rfl
@[simp] theorem State.acknowledge_root : (s.acknowledge).root = s.root := rfl
@[simp] theorem State.acknowledge_nodeSel : (s.acknowledge).nodeSel = s.nodeSel := rfl
@[simp] theorem State.acknowledge_ctSel : (s.acknowledge).ctSel = s.ctSel := rfl
@[simp] theorem State.acknowledge_freq : (s.acknowledge).freq = s.freq := rfl
@[simp] theorem State.acknowledge_arena : (s.acknowledge).arena = s.arena := rfl
@[simp] theorem State.acknowledge_ct : (s.acknowledge).ct = s.ct := rfl
@[simp] theorem State.acknowledge_mem : (s.acknowledge).mem = s.mem := rfl
@[simp] theorem State.acknowledge_inputs : (s.acknowledge).inputs = s.inputs := rfl
@[simp] theorem State.acknowledge_response : (s.acknowledge).response = s.response := rfl
@[simp] theorem State.acknowledge_draws : (s.acknowledge).draws = s.draws := rfl

@[simp] theorem State.writeBufferWord_cmd (a : Nat) (v : Word) : (s.writeBufferWord a v).cmd = s.cmd := rfl
@[simp] theorem State.writeBufferWord_busy (a : Nat) (v : Word) : (s.writeBufferWord a v).busy = s.busy := rfl
@[simp] theorem State.writeBufferWord_done (a : Nat) (v : Word) : (s.writeBufferWord a v).done = s.done := rfl
@[simp] theorem State.writeBufferWord_treeValid (a : Nat) (v : Word) : (s.writeBufferWord a v).treeValid = s.treeValid := rfl
@[simp] theorem State.writeBufferWord_codesValid (a : Nat) (v : Word) : (s.writeBufferWord a v).codesValid = s.codesValid := rfl
@[simp] theorem State.writeBufferWord_err (a : Nat) (v : Word) : (s.writeBufferWord a v).err = s.err := rfl
@[simp] theorem State.writeBufferWord_errInfo (a : Nat) (v : Word) : (s.writeBufferWord a v).errInfo = s.errInfo := rfl
@[simp] theorem State.writeBufferWord_doneIe (a : Nat) (v : Word) : (s.writeBufferWord a v).doneIe = s.doneIe := rfl
@[simp] theorem State.writeBufferWord_inLen (a : Nat) (v : Word) : (s.writeBufferWord a v).inLen = s.inLen := rfl
@[simp] theorem State.writeBufferWord_bitLen (a : Nat) (v : Word) : (s.writeBufferWord a v).bitLen = s.bitLen := rfl
@[simp] theorem State.writeBufferWord_outLen (a : Nat) (v : Word) : (s.writeBufferWord a v).outLen = s.outLen := rfl
@[simp] theorem State.writeBufferWord_statInBits (a : Nat) (v : Word) : (s.writeBufferWord a v).statInBits = s.statInBits := rfl
@[simp] theorem State.writeBufferWord_statOutBits (a : Nat) (v : Word) : (s.writeBufferWord a v).statOutBits = s.statOutBits := rfl
@[simp] theorem State.writeBufferWord_nodes (a : Nat) (v : Word) : (s.writeBufferWord a v).nodes = s.nodes := rfl
@[simp] theorem State.writeBufferWord_root (a : Nat) (v : Word) : (s.writeBufferWord a v).root = s.root := rfl
@[simp] theorem State.writeBufferWord_nodeSel (a : Nat) (v : Word) : (s.writeBufferWord a v).nodeSel = s.nodeSel := rfl
@[simp] theorem State.writeBufferWord_ctSel (a : Nat) (v : Word) : (s.writeBufferWord a v).ctSel = s.ctSel := rfl
@[simp] theorem State.writeBufferWord_freq (a : Nat) (v : Word) : (s.writeBufferWord a v).freq = s.freq := rfl
@[simp] theorem State.writeBufferWord_arena (a : Nat) (v : Word) : (s.writeBufferWord a v).arena = s.arena := rfl
@[simp] theorem State.writeBufferWord_ct (a : Nat) (v : Word) : (s.writeBufferWord a v).ct = s.ct := rfl
@[simp] theorem State.writeBufferWord_mem (a : Nat) (v : Word) : (s.writeBufferWord a v).mem = s.mem.writeBytes a (bytesOfWord v) := rfl
@[simp] theorem State.writeBufferWord_inputs (a : Nat) (v : Word) : (s.writeBufferWord a v).inputs = s.inputs := rfl
@[simp] theorem State.writeBufferWord_response (a : Nat) (v : Word) : (s.writeBufferWord a v).response = s.response := rfl
@[simp] theorem State.writeBufferWord_draws (a : Nat) (v : Word) : (s.writeBufferWord a v).draws = s.draws := rfl

@[simp] theorem State.writePbuf_cmd (bs : List Byte) : (s.writePbuf bs).cmd = s.cmd := rfl
@[simp] theorem State.writePbuf_busy (bs : List Byte) : (s.writePbuf bs).busy = s.busy := rfl
@[simp] theorem State.writePbuf_done (bs : List Byte) : (s.writePbuf bs).done = s.done := rfl
@[simp] theorem State.writePbuf_treeValid (bs : List Byte) : (s.writePbuf bs).treeValid = s.treeValid := rfl
@[simp] theorem State.writePbuf_codesValid (bs : List Byte) : (s.writePbuf bs).codesValid = s.codesValid := rfl
@[simp] theorem State.writePbuf_err (bs : List Byte) : (s.writePbuf bs).err = s.err := rfl
@[simp] theorem State.writePbuf_errInfo (bs : List Byte) : (s.writePbuf bs).errInfo = s.errInfo := rfl
@[simp] theorem State.writePbuf_doneIe (bs : List Byte) : (s.writePbuf bs).doneIe = s.doneIe := rfl
@[simp] theorem State.writePbuf_inLen (bs : List Byte) : (s.writePbuf bs).inLen = s.inLen := rfl
@[simp] theorem State.writePbuf_bitLen (bs : List Byte) : (s.writePbuf bs).bitLen = s.bitLen := rfl
@[simp] theorem State.writePbuf_outLen (bs : List Byte) : (s.writePbuf bs).outLen = s.outLen := rfl
@[simp] theorem State.writePbuf_statInBits (bs : List Byte) : (s.writePbuf bs).statInBits = s.statInBits := rfl
@[simp] theorem State.writePbuf_statOutBits (bs : List Byte) : (s.writePbuf bs).statOutBits = s.statOutBits := rfl
@[simp] theorem State.writePbuf_nodes (bs : List Byte) : (s.writePbuf bs).nodes = s.nodes := rfl
@[simp] theorem State.writePbuf_root (bs : List Byte) : (s.writePbuf bs).root = s.root := rfl
@[simp] theorem State.writePbuf_nodeSel (bs : List Byte) : (s.writePbuf bs).nodeSel = s.nodeSel := rfl
@[simp] theorem State.writePbuf_ctSel (bs : List Byte) : (s.writePbuf bs).ctSel = s.ctSel := rfl
@[simp] theorem State.writePbuf_freq (bs : List Byte) : (s.writePbuf bs).freq = s.freq := rfl
@[simp] theorem State.writePbuf_arena (bs : List Byte) : (s.writePbuf bs).arena = s.arena := rfl
@[simp] theorem State.writePbuf_ct (bs : List Byte) : (s.writePbuf bs).ct = s.ct := rfl
@[simp] theorem State.writePbuf_mem (bs : List Byte) : (s.writePbuf bs).mem = s.mem.writeBytes pbufBase bs := rfl
@[simp] theorem State.writePbuf_inputs (bs : List Byte) : (s.writePbuf bs).inputs = s.inputs := rfl
@[simp] theorem State.writePbuf_response (bs : List Byte) : (s.writePbuf bs).response = s.response := rfl
@[simp] theorem State.writePbuf_draws (bs : List Byte) : (s.writePbuf bs).draws = s.draws := rfl

@[simp] theorem State.writeObuf_cmd (bs : List Byte) : (s.writeObuf bs).cmd = s.cmd := rfl
@[simp] theorem State.writeObuf_busy (bs : List Byte) : (s.writeObuf bs).busy = s.busy := rfl
@[simp] theorem State.writeObuf_done (bs : List Byte) : (s.writeObuf bs).done = s.done := rfl
@[simp] theorem State.writeObuf_treeValid (bs : List Byte) : (s.writeObuf bs).treeValid = s.treeValid := rfl
@[simp] theorem State.writeObuf_codesValid (bs : List Byte) : (s.writeObuf bs).codesValid = s.codesValid := rfl
@[simp] theorem State.writeObuf_err (bs : List Byte) : (s.writeObuf bs).err = s.err := rfl
@[simp] theorem State.writeObuf_errInfo (bs : List Byte) : (s.writeObuf bs).errInfo = s.errInfo := rfl
@[simp] theorem State.writeObuf_doneIe (bs : List Byte) : (s.writeObuf bs).doneIe = s.doneIe := rfl
@[simp] theorem State.writeObuf_inLen (bs : List Byte) : (s.writeObuf bs).inLen = s.inLen := rfl
@[simp] theorem State.writeObuf_bitLen (bs : List Byte) : (s.writeObuf bs).bitLen = s.bitLen := rfl
@[simp] theorem State.writeObuf_outLen (bs : List Byte) : (s.writeObuf bs).outLen = s.outLen := rfl
@[simp] theorem State.writeObuf_statInBits (bs : List Byte) : (s.writeObuf bs).statInBits = s.statInBits := rfl
@[simp] theorem State.writeObuf_statOutBits (bs : List Byte) : (s.writeObuf bs).statOutBits = s.statOutBits := rfl
@[simp] theorem State.writeObuf_nodes (bs : List Byte) : (s.writeObuf bs).nodes = s.nodes := rfl
@[simp] theorem State.writeObuf_root (bs : List Byte) : (s.writeObuf bs).root = s.root := rfl
@[simp] theorem State.writeObuf_nodeSel (bs : List Byte) : (s.writeObuf bs).nodeSel = s.nodeSel := rfl
@[simp] theorem State.writeObuf_ctSel (bs : List Byte) : (s.writeObuf bs).ctSel = s.ctSel := rfl
@[simp] theorem State.writeObuf_freq (bs : List Byte) : (s.writeObuf bs).freq = s.freq := rfl
@[simp] theorem State.writeObuf_arena (bs : List Byte) : (s.writeObuf bs).arena = s.arena := rfl
@[simp] theorem State.writeObuf_ct (bs : List Byte) : (s.writeObuf bs).ct = s.ct := rfl
@[simp] theorem State.writeObuf_mem (bs : List Byte) : (s.writeObuf bs).mem = s.mem.writeBytes obufBase bs := rfl
@[simp] theorem State.writeObuf_inputs (bs : List Byte) : (s.writeObuf bs).inputs = s.inputs := rfl
@[simp] theorem State.writeObuf_response (bs : List Byte) : (s.writeObuf bs).response = s.response := rfl
@[simp] theorem State.writeObuf_draws (bs : List Byte) : (s.writeObuf bs).draws = s.draws := rfl

@[simp] theorem State.setFreq_cmd (sym : Byte) (v : Word) : (s.setFreq sym v).cmd = s.cmd := rfl
@[simp] theorem State.setFreq_busy (sym : Byte) (v : Word) : (s.setFreq sym v).busy = s.busy := rfl
@[simp] theorem State.setFreq_done (sym : Byte) (v : Word) : (s.setFreq sym v).done = s.done := rfl
@[simp] theorem State.setFreq_treeValid (sym : Byte) (v : Word) : (s.setFreq sym v).treeValid = s.treeValid := rfl
@[simp] theorem State.setFreq_codesValid (sym : Byte) (v : Word) : (s.setFreq sym v).codesValid = s.codesValid := rfl
@[simp] theorem State.setFreq_err (sym : Byte) (v : Word) : (s.setFreq sym v).err = s.err := rfl
@[simp] theorem State.setFreq_errInfo (sym : Byte) (v : Word) : (s.setFreq sym v).errInfo = s.errInfo := rfl
@[simp] theorem State.setFreq_doneIe (sym : Byte) (v : Word) : (s.setFreq sym v).doneIe = s.doneIe := rfl
@[simp] theorem State.setFreq_inLen (sym : Byte) (v : Word) : (s.setFreq sym v).inLen = s.inLen := rfl
@[simp] theorem State.setFreq_bitLen (sym : Byte) (v : Word) : (s.setFreq sym v).bitLen = s.bitLen := rfl
@[simp] theorem State.setFreq_outLen (sym : Byte) (v : Word) : (s.setFreq sym v).outLen = s.outLen := rfl
@[simp] theorem State.setFreq_statInBits (sym : Byte) (v : Word) : (s.setFreq sym v).statInBits = s.statInBits := rfl
@[simp] theorem State.setFreq_statOutBits (sym : Byte) (v : Word) : (s.setFreq sym v).statOutBits = s.statOutBits := rfl
@[simp] theorem State.setFreq_nodes (sym : Byte) (v : Word) : (s.setFreq sym v).nodes = s.nodes := rfl
@[simp] theorem State.setFreq_root (sym : Byte) (v : Word) : (s.setFreq sym v).root = s.root := rfl
@[simp] theorem State.setFreq_nodeSel (sym : Byte) (v : Word) : (s.setFreq sym v).nodeSel = s.nodeSel := rfl
@[simp] theorem State.setFreq_ctSel (sym : Byte) (v : Word) : (s.setFreq sym v).ctSel = s.ctSel := rfl
@[simp] theorem State.setFreq_freq (sym : Byte) (v : Word) : (s.setFreq sym v).freq = s.freq.set sym.toNat v sym.isLt := rfl
@[simp] theorem State.setFreq_arena (sym : Byte) (v : Word) : (s.setFreq sym v).arena = s.arena := rfl
@[simp] theorem State.setFreq_ct (sym : Byte) (v : Word) : (s.setFreq sym v).ct = s.ct := rfl
@[simp] theorem State.setFreq_mem (sym : Byte) (v : Word) : (s.setFreq sym v).mem = s.mem := rfl
@[simp] theorem State.setFreq_inputs (sym : Byte) (v : Word) : (s.setFreq sym v).inputs = s.inputs := rfl
@[simp] theorem State.setFreq_response (sym : Byte) (v : Word) : (s.setFreq sym v).response = s.response := rfl
@[simp] theorem State.setFreq_draws (sym : Byte) (v : Word) : (s.setFreq sym v).draws = s.draws := rfl

@[simp] theorem State.commitTree_cmd (ns : List Node) : (s.commitTree ns).cmd = s.cmd := rfl
@[simp] theorem State.commitTree_busy (ns : List Node) : (s.commitTree ns).busy = s.busy := rfl
@[simp] theorem State.commitTree_done (ns : List Node) : (s.commitTree ns).done = s.done := rfl
@[simp] theorem State.commitTree_treeValid (ns : List Node) : (s.commitTree ns).treeValid = true := rfl
@[simp] theorem State.commitTree_codesValid (ns : List Node) : (s.commitTree ns).codesValid = s.codesValid := rfl
@[simp] theorem State.commitTree_err (ns : List Node) : (s.commitTree ns).err = s.err := rfl
@[simp] theorem State.commitTree_errInfo (ns : List Node) : (s.commitTree ns).errInfo = s.errInfo := rfl
@[simp] theorem State.commitTree_doneIe (ns : List Node) : (s.commitTree ns).doneIe = s.doneIe := rfl
@[simp] theorem State.commitTree_inLen (ns : List Node) : (s.commitTree ns).inLen = s.inLen := rfl
@[simp] theorem State.commitTree_bitLen (ns : List Node) : (s.commitTree ns).bitLen = s.bitLen := rfl
@[simp] theorem State.commitTree_outLen (ns : List Node) : (s.commitTree ns).outLen = s.outLen := rfl
@[simp] theorem State.commitTree_statInBits (ns : List Node) : (s.commitTree ns).statInBits = s.statInBits := rfl
@[simp] theorem State.commitTree_statOutBits (ns : List Node) : (s.commitTree ns).statOutBits = s.statOutBits := rfl
@[simp] theorem State.commitTree_nodes (ns : List Node) : (s.commitTree ns).nodes = BitVec.ofNat 9 ns.length := rfl
@[simp] theorem State.commitTree_root (ns : List Node) : (s.commitTree ns).root = BitVec.ofNat 9 (ns.length - 1) := rfl
@[simp] theorem State.commitTree_nodeSel (ns : List Node) : (s.commitTree ns).nodeSel = s.nodeSel := rfl
@[simp] theorem State.commitTree_ctSel (ns : List Node) : (s.commitTree ns).ctSel = s.ctSel := rfl
@[simp] theorem State.commitTree_freq (ns : List Node) : (s.commitTree ns).freq = s.freq := rfl
@[simp] theorem State.commitTree_arena (ns : List Node) : (s.commitTree ns).arena = tabulate 511 (fun h => (ns[h]?).getD (s.node (BitVec.ofNat 9 h))) := rfl
@[simp] theorem State.commitTree_ct (ns : List Node) : (s.commitTree ns).ct = s.ct := rfl
@[simp] theorem State.commitTree_mem (ns : List Node) : (s.commitTree ns).mem = s.mem := rfl
@[simp] theorem State.commitTree_inputs (ns : List Node) : (s.commitTree ns).inputs = s.inputs := rfl
@[simp] theorem State.commitTree_response (ns : List Node) : (s.commitTree ns).response = s.response := rfl
@[simp] theorem State.commitTree_draws (ns : List Node) : (s.commitTree ns).draws = s.draws := rfl

@[simp] theorem State.dropTree_cmd : (s.dropTree).cmd = s.cmd := rfl
@[simp] theorem State.dropTree_busy : (s.dropTree).busy = s.busy := rfl
@[simp] theorem State.dropTree_done : (s.dropTree).done = s.done := rfl
@[simp] theorem State.dropTree_treeValid : (s.dropTree).treeValid = false := rfl
@[simp] theorem State.dropTree_codesValid : (s.dropTree).codesValid = s.codesValid := rfl
@[simp] theorem State.dropTree_err : (s.dropTree).err = s.err := rfl
@[simp] theorem State.dropTree_errInfo : (s.dropTree).errInfo = s.errInfo := rfl
@[simp] theorem State.dropTree_doneIe : (s.dropTree).doneIe = s.doneIe := rfl
@[simp] theorem State.dropTree_inLen : (s.dropTree).inLen = s.inLen := rfl
@[simp] theorem State.dropTree_bitLen : (s.dropTree).bitLen = s.bitLen := rfl
@[simp] theorem State.dropTree_outLen : (s.dropTree).outLen = s.outLen := rfl
@[simp] theorem State.dropTree_statInBits : (s.dropTree).statInBits = s.statInBits := rfl
@[simp] theorem State.dropTree_statOutBits : (s.dropTree).statOutBits = s.statOutBits := rfl
@[simp] theorem State.dropTree_nodes : (s.dropTree).nodes = 0#9 := rfl
@[simp] theorem State.dropTree_root : (s.dropTree).root = 0#9 := rfl
@[simp] theorem State.dropTree_nodeSel : (s.dropTree).nodeSel = s.nodeSel := rfl
@[simp] theorem State.dropTree_ctSel : (s.dropTree).ctSel = s.ctSel := rfl
@[simp] theorem State.dropTree_freq : (s.dropTree).freq = s.freq := rfl
@[simp] theorem State.dropTree_arena : (s.dropTree).arena = s.arena := rfl
@[simp] theorem State.dropTree_ct : (s.dropTree).ct = s.ct := rfl
@[simp] theorem State.dropTree_mem : (s.dropTree).mem = s.mem := rfl
@[simp] theorem State.dropTree_inputs : (s.dropTree).inputs = s.inputs := rfl
@[simp] theorem State.dropTree_response : (s.dropTree).response = s.response := rfl
@[simp] theorem State.dropTree_draws : (s.dropTree).draws = s.draws := rfl

@[simp] theorem State.dropCodes_cmd : (s.dropCodes).cmd = s.cmd := rfl
@[simp] theorem State.dropCodes_busy : (s.dropCodes).busy = s.busy := rfl
@[simp] theorem State.dropCodes_done : (s.dropCodes).done = s.done := rfl
@[simp] theorem State.dropCodes_treeValid : (s.dropCodes).treeValid = s.treeValid := rfl
@[simp] theorem State.dropCodes_codesValid : (s.dropCodes).codesValid = false := rfl
@[simp] theorem State.dropCodes_err : (s.dropCodes).err = s.err := rfl
@[simp] theorem State.dropCodes_errInfo : (s.dropCodes).errInfo = s.errInfo := rfl
@[simp] theorem State.dropCodes_doneIe : (s.dropCodes).doneIe = s.doneIe := rfl
@[simp] theorem State.dropCodes_inLen : (s.dropCodes).inLen = s.inLen := rfl
@[simp] theorem State.dropCodes_bitLen : (s.dropCodes).bitLen = s.bitLen := rfl
@[simp] theorem State.dropCodes_outLen : (s.dropCodes).outLen = s.outLen := rfl
@[simp] theorem State.dropCodes_statInBits : (s.dropCodes).statInBits = s.statInBits := rfl
@[simp] theorem State.dropCodes_statOutBits : (s.dropCodes).statOutBits = s.statOutBits := rfl
@[simp] theorem State.dropCodes_nodes : (s.dropCodes).nodes = s.nodes := rfl
@[simp] theorem State.dropCodes_root : (s.dropCodes).root = s.root := rfl
@[simp] theorem State.dropCodes_nodeSel : (s.dropCodes).nodeSel = s.nodeSel := rfl
@[simp] theorem State.dropCodes_ctSel : (s.dropCodes).ctSel = s.ctSel := rfl
@[simp] theorem State.dropCodes_freq : (s.dropCodes).freq = s.freq := rfl
@[simp] theorem State.dropCodes_arena : (s.dropCodes).arena = s.arena := rfl
@[simp] theorem State.dropCodes_ct : (s.dropCodes).ct = Vector.replicate 256 Code.none := rfl
@[simp] theorem State.dropCodes_mem : (s.dropCodes).mem = s.mem := rfl
@[simp] theorem State.dropCodes_inputs : (s.dropCodes).inputs = s.inputs := rfl
@[simp] theorem State.dropCodes_response : (s.dropCodes).response = s.response := rfl
@[simp] theorem State.dropCodes_draws : (s.dropCodes).draws = s.draws := rfl

@[simp] theorem State.commitCodes_cmd (t : Vector Code 256) : (s.commitCodes t).cmd = s.cmd := rfl
@[simp] theorem State.commitCodes_busy (t : Vector Code 256) : (s.commitCodes t).busy = s.busy := rfl
@[simp] theorem State.commitCodes_done (t : Vector Code 256) : (s.commitCodes t).done = s.done := rfl
@[simp] theorem State.commitCodes_treeValid (t : Vector Code 256) : (s.commitCodes t).treeValid = s.treeValid := rfl
@[simp] theorem State.commitCodes_codesValid (t : Vector Code 256) : (s.commitCodes t).codesValid = true := rfl
@[simp] theorem State.commitCodes_err (t : Vector Code 256) : (s.commitCodes t).err = s.err := rfl
@[simp] theorem State.commitCodes_errInfo (t : Vector Code 256) : (s.commitCodes t).errInfo = s.errInfo := rfl
@[simp] theorem State.commitCodes_doneIe (t : Vector Code 256) : (s.commitCodes t).doneIe = s.doneIe := rfl
@[simp] theorem State.commitCodes_inLen (t : Vector Code 256) : (s.commitCodes t).inLen = s.inLen := rfl
@[simp] theorem State.commitCodes_bitLen (t : Vector Code 256) : (s.commitCodes t).bitLen = s.bitLen := rfl
@[simp] theorem State.commitCodes_outLen (t : Vector Code 256) : (s.commitCodes t).outLen = s.outLen := rfl
@[simp] theorem State.commitCodes_statInBits (t : Vector Code 256) : (s.commitCodes t).statInBits = s.statInBits := rfl
@[simp] theorem State.commitCodes_statOutBits (t : Vector Code 256) : (s.commitCodes t).statOutBits = s.statOutBits := rfl
@[simp] theorem State.commitCodes_nodes (t : Vector Code 256) : (s.commitCodes t).nodes = s.nodes := rfl
@[simp] theorem State.commitCodes_root (t : Vector Code 256) : (s.commitCodes t).root = s.root := rfl
@[simp] theorem State.commitCodes_nodeSel (t : Vector Code 256) : (s.commitCodes t).nodeSel = s.nodeSel := rfl
@[simp] theorem State.commitCodes_ctSel (t : Vector Code 256) : (s.commitCodes t).ctSel = s.ctSel := rfl
@[simp] theorem State.commitCodes_freq (t : Vector Code 256) : (s.commitCodes t).freq = s.freq := rfl
@[simp] theorem State.commitCodes_arena (t : Vector Code 256) : (s.commitCodes t).arena = s.arena := rfl
@[simp] theorem State.commitCodes_ct (t : Vector Code 256) : (s.commitCodes t).ct = t := rfl
@[simp] theorem State.commitCodes_mem (t : Vector Code 256) : (s.commitCodes t).mem = s.mem := rfl
@[simp] theorem State.commitCodes_inputs (t : Vector Code 256) : (s.commitCodes t).inputs = s.inputs := rfl
@[simp] theorem State.commitCodes_response (t : Vector Code 256) : (s.commitCodes t).response = s.response := rfl
@[simp] theorem State.commitCodes_draws (t : Vector Code 256) : (s.commitCodes t).draws = s.draws := rfl

@[simp] theorem State.encoded_cmd (bits : List Bool) : (s.encoded bits).cmd = s.cmd := rfl
@[simp] theorem State.encoded_busy (bits : List Bool) : (s.encoded bits).busy = s.busy := rfl
@[simp] theorem State.encoded_done (bits : List Bool) : (s.encoded bits).done = s.done := rfl
@[simp] theorem State.encoded_treeValid (bits : List Bool) : (s.encoded bits).treeValid = s.treeValid := rfl
@[simp] theorem State.encoded_codesValid (bits : List Bool) : (s.encoded bits).codesValid = s.codesValid := rfl
@[simp] theorem State.encoded_err (bits : List Bool) : (s.encoded bits).err = s.err := rfl
@[simp] theorem State.encoded_errInfo (bits : List Bool) : (s.encoded bits).errInfo = s.errInfo := rfl
@[simp] theorem State.encoded_doneIe (bits : List Bool) : (s.encoded bits).doneIe = s.doneIe := rfl
@[simp] theorem State.encoded_inLen (bits : List Bool) : (s.encoded bits).inLen = s.inLen := rfl
@[simp] theorem State.encoded_bitLen (bits : List Bool) : (s.encoded bits).bitLen = BitVec.ofNat 32 bits.length := rfl
@[simp] theorem State.encoded_outLen (bits : List Bool) : (s.encoded bits).outLen = s.outLen := rfl
@[simp] theorem State.encoded_statInBits (bits : List Bool) : (s.encoded bits).statInBits = BitVec.ofNat 32 (8 * s.inLen.toNat) := rfl
@[simp] theorem State.encoded_statOutBits (bits : List Bool) : (s.encoded bits).statOutBits = BitVec.ofNat 32 bits.length := rfl
@[simp] theorem State.encoded_nodes (bits : List Bool) : (s.encoded bits).nodes = s.nodes := rfl
@[simp] theorem State.encoded_root (bits : List Bool) : (s.encoded bits).root = s.root := rfl
@[simp] theorem State.encoded_nodeSel (bits : List Bool) : (s.encoded bits).nodeSel = s.nodeSel := rfl
@[simp] theorem State.encoded_ctSel (bits : List Bool) : (s.encoded bits).ctSel = s.ctSel := rfl
@[simp] theorem State.encoded_freq (bits : List Bool) : (s.encoded bits).freq = s.freq := rfl
@[simp] theorem State.encoded_arena (bits : List Bool) : (s.encoded bits).arena = s.arena := rfl
@[simp] theorem State.encoded_ct (bits : List Bool) : (s.encoded bits).ct = s.ct := rfl
@[simp] theorem State.encoded_mem (bits : List Bool) : (s.encoded bits).mem = s.mem.writeBytes pbufBase (payloadBytes bits) := rfl
@[simp] theorem State.encoded_inputs (bits : List Bool) : (s.encoded bits).inputs = s.inputs := rfl
@[simp] theorem State.encoded_response (bits : List Bool) : (s.encoded bits).response = s.response := rfl
@[simp] theorem State.encoded_draws (bits : List Bool) : (s.encoded bits).draws = s.draws := rfl

@[simp] theorem State.decoded_cmd (out : List Byte) : (s.decoded out).cmd = s.cmd := rfl
@[simp] theorem State.decoded_busy (out : List Byte) : (s.decoded out).busy = s.busy := rfl
@[simp] theorem State.decoded_done (out : List Byte) : (s.decoded out).done = s.done := rfl
@[simp] theorem State.decoded_treeValid (out : List Byte) : (s.decoded out).treeValid = s.treeValid := rfl
@[simp] theorem State.decoded_codesValid (out : List Byte) : (s.decoded out).codesValid = s.codesValid := rfl
@[simp] theorem State.decoded_err (out : List Byte) : (s.decoded out).err = s.err := rfl
@[simp] theorem State.decoded_errInfo (out : List Byte) : (s.decoded out).errInfo = s.errInfo := rfl
@[simp] theorem State.decoded_doneIe (out : List Byte) : (s.decoded out).doneIe = s.doneIe := rfl
@[simp] theorem State.decoded_inLen (out : List Byte) : (s.decoded out).inLen = s.inLen := rfl
@[simp] theorem State.decoded_bitLen (out : List Byte) : (s.decoded out).bitLen = s.bitLen := rfl
@[simp] theorem State.decoded_outLen (out : List Byte) : (s.decoded out).outLen = BitVec.ofNat 32 out.length := rfl
@[simp] theorem State.decoded_statInBits (out : List Byte) : (s.decoded out).statInBits = s.statInBits := rfl
@[simp] theorem State.decoded_statOutBits (out : List Byte) : (s.decoded out).statOutBits = s.statOutBits := rfl
@[simp] theorem State.decoded_nodes (out : List Byte) : (s.decoded out).nodes = s.nodes := rfl
@[simp] theorem State.decoded_root (out : List Byte) : (s.decoded out).root = s.root := rfl
@[simp] theorem State.decoded_nodeSel (out : List Byte) : (s.decoded out).nodeSel = s.nodeSel := rfl
@[simp] theorem State.decoded_ctSel (out : List Byte) : (s.decoded out).ctSel = s.ctSel := rfl
@[simp] theorem State.decoded_freq (out : List Byte) : (s.decoded out).freq = s.freq := rfl
@[simp] theorem State.decoded_arena (out : List Byte) : (s.decoded out).arena = s.arena := rfl
@[simp] theorem State.decoded_ct (out : List Byte) : (s.decoded out).ct = s.ct := rfl
@[simp] theorem State.decoded_mem (out : List Byte) : (s.decoded out).mem = s.mem.writeBytes obufBase out := rfl
@[simp] theorem State.decoded_inputs (out : List Byte) : (s.decoded out).inputs = s.inputs := rfl
@[simp] theorem State.decoded_response (out : List Byte) : (s.decoded out).response = s.response := rfl
@[simp] theorem State.decoded_draws (out : List Byte) : (s.decoded out).draws = s.draws := rfl

@[simp] theorem State.popInput_cmd : (s.popInput).cmd = s.cmd := rfl
@[simp] theorem State.popInput_busy : (s.popInput).busy = s.busy := rfl
@[simp] theorem State.popInput_done : (s.popInput).done = s.done := rfl
@[simp] theorem State.popInput_treeValid : (s.popInput).treeValid = s.treeValid := rfl
@[simp] theorem State.popInput_codesValid : (s.popInput).codesValid = s.codesValid := rfl
@[simp] theorem State.popInput_err : (s.popInput).err = s.err := rfl
@[simp] theorem State.popInput_errInfo : (s.popInput).errInfo = s.errInfo := rfl
@[simp] theorem State.popInput_doneIe : (s.popInput).doneIe = s.doneIe := rfl
@[simp] theorem State.popInput_inLen : (s.popInput).inLen = s.inLen := rfl
@[simp] theorem State.popInput_bitLen : (s.popInput).bitLen = s.bitLen := rfl
@[simp] theorem State.popInput_outLen : (s.popInput).outLen = s.outLen := rfl
@[simp] theorem State.popInput_statInBits : (s.popInput).statInBits = s.statInBits := rfl
@[simp] theorem State.popInput_statOutBits : (s.popInput).statOutBits = s.statOutBits := rfl
@[simp] theorem State.popInput_nodes : (s.popInput).nodes = s.nodes := rfl
@[simp] theorem State.popInput_root : (s.popInput).root = s.root := rfl
@[simp] theorem State.popInput_nodeSel : (s.popInput).nodeSel = s.nodeSel := rfl
@[simp] theorem State.popInput_ctSel : (s.popInput).ctSel = s.ctSel := rfl
@[simp] theorem State.popInput_freq : (s.popInput).freq = s.freq := rfl
@[simp] theorem State.popInput_arena : (s.popInput).arena = s.arena := rfl
@[simp] theorem State.popInput_ct : (s.popInput).ct = s.ct := rfl
@[simp] theorem State.popInput_mem : (s.popInput).mem = s.mem := rfl
@[simp] theorem State.popInput_inputs : (s.popInput).inputs = s.inputs.tail := rfl
@[simp] theorem State.popInput_response : (s.popInput).response = s.response := rfl
@[simp] theorem State.popInput_draws : (s.popInput).draws = s.draws := rfl

theorem State.applyReset_eq : s.applyReset = { State.reset with inputs := s.inputs, draws := s.draws } := rfl

end Sys2Proof.Machine
end

