-- ==== Sys2Proof/Laws/Bits.lean ====
section
/-! SUPPORT. Bit and byte order: words of bytes (20_memory.md R67), bytes of bits (R69), and the code store (10_state.md
R42, R51). -/

namespace Sys2Proof.Machine

open Sys2Proof

/-- The four bytes of a word put together again are the word (20_memory.md R67). -/
theorem wordOfBytes_bytesOfWord (v : Word) :
    wordOfBytes (v.extractLsb' 0 8) (v.extractLsb' 8 8) (v.extractLsb' 16 8) (v.extractLsb' 24 8) = v := by
  apply BitVec.eq_of_getLsbD_eq
  intro i hi
  simp only [wordOfBytes, BitVec.getLsbD_append, BitVec.getLsbD_extractLsb']
  repeat' split
  all_goals first
    | (simp only [show i < 8 by omega, decide_true, Bool.true_and, Nat.zero_add])
    | (rw [decide_eq_true (by omega), Bool.true_and]; congr 1; omega)

/-- Bit 7 - k of a packed byte is bit `k` of the sequence (20_memory.md R69); absent bits are 0 (44_encode.md R112). -/
theorem getLsbD_byteOfBits (l : List Bool) (k : Nat) (hk : k < 8) :
    (byteOfBits l).getLsbD (7 - k) = l.getD k false := by
  have e : List.range 8 = [0, 1, 2, 3, 4, 5, 6, 7] := rfl
  have key : ∀ b0 b1 b2 b3 b4 b5 b6 b7 : Bool, ∀ k : Fin 8,
      (BitVec.ofNat 8 (2 * (2 * (2 * (2 * (2 * (2 * (2 * (2 * 0 + b0.toNat) + b1.toNat) + b2.toNat) + b3.toNat)
        + b4.toNat) + b5.toNat) + b6.toNat) + b7.toNat)).getLsbD (7 - k.val) =
        [b0, b1, b2, b3, b4, b5, b6, b7].getD k.val false := by decide +kernel
  simp only [byteOfBits, e, List.foldl]
  rw [key _ _ _ _ _ _ _ _ ⟨k, hk⟩]
  interval_cases k <;> rfl

@[simp] theorem length_packBytes (n : Nat) (l : List Bool) : (packBytes n l).length = n := by
  induction n generalizing l with
  | zero => rfl
  | succ n ih => simp [packBytes, ih]

/-- Byte `j` of a packed sequence holds its bits 8j..8j+7. -/
theorem getElem_packBytes (n : Nat) (l : List Bool) (j : Nat) (h : j < (packBytes n l).length) :
    (packBytes n l)[j] = byteOfBits ((l.drop (8 * j)).take 8) := by
  induction n generalizing l j with
  | zero => simp at h
  | succ n ih =>
    cases j with
    | zero => simp [packBytes]
    | succ j => simp only [packBytes, List.getElem_cons_succ, ih, List.drop_drop]; congr 3; omega

/-- Bit `k` of the packed bytes, most significant bit first, is bit `k` of the sequence, padding bits 0 (20_memory.md
R69, 44_encode.md R112). -/
theorem pbit_packBytes (n : Nat) (l : List Bool) (k : Nat) (hk : k < 8 * n) :
    ((packBytes n l).getD (k >>> 3) 0#8).getLsbD (7 - (k &&& 7)) = l.getD k false := by
  have h3 : k >>> 3 = k / 8 := by simp [Nat.shiftRight_eq_div_pow]
  have h7 : k &&& 7 = k % 8 := by simpa using Nat.and_two_pow_sub_one_eq_mod k 3
  have hl : k / 8 < (packBytes n l).length := by simp; omega
  rw [h3, h7, List.getD_eq_getElem _ _ hl, getElem_packBytes, getLsbD_byteOfBits _ _ (Nat.mod_lt _ (by omega))]
  simp only [List.getD_eq_getElem?_getD, List.getElem?_take, List.getElem?_drop, Nat.mod_lt k (show 8 > 0 by omega),
    if_true, Nat.div_add_mod]

/-- A code entry gives back the bit sequence it was made from, up to 255 bits (10_state.md R51). -/
theorem toBits_ofBits (l : List Bool) (h : l.length ≤ 255) : (Code.ofBits l).toBits = l := by
  have hl : (BitVec.ofNat 8 l.length).toNat = l.length := by simp; omega
  apply List.ext_getElem
  · simp [Code.ofBits, Code.toBits, Nat.mod_eq_of_lt (show l.length < 256 by omega)]
  · intro i h1 h2
    simp [Code.ofBits, Code.toBits, show i < 255 by omega, h2, BitVec.getLsbD_ofBoolListLE,
      - BitVec.getLsbD_eq_getElem]

theorem len_ofBits (l : List Bool) (h : l.length ≤ 255) : (Code.ofBits l).len.toNat = l.length := by
  simp [Code.ofBits]; omega

@[simp] theorem length_toBits (c : Code) : c.toBits.length = c.len.toNat := by simp [Code.toBits]

end Sys2Proof.Machine
end

