-- ==== Sys2Proof/Laws/Tables.lean ====
section
/-! SUPPORT. Tables, the frequency table, the arena and the code table: what a read answers after a write. -/

namespace Sys2Proof.Machine

open Sys2Proof

theorem getElem_tabulateFrom {α : Type} (f : Nat → α) (k n i : Nat) (h : i < (tabulateFrom f k n).length) :
    (tabulateFrom f k n)[i] = f (k + i) := by
  induction n generalizing k i with
  | zero => simp [tabulateFrom] at h
  | succ n ih =>
    cases i with
    | zero => simp [tabulateFrom]
    | succ i => simp only [tabulateFrom, List.getElem_cons_succ, ih]; congr 1; omega

/-- Entry `i` of a table is the function's value at `i`. -/
@[simp] theorem getElem_tabulate {α : Type} (n : Nat) (f : Nat → α) (i : Nat) (h : i < n) : (tabulate n f)[i] = f i := by
  have := getElem_tabulateFrom f 0 n i (by rw [length_tabulateFrom]; exact h)
  rw [Nat.zero_add] at this
  exact this

/-- A written counter reads back, every other counter stays (10_state.md R44). -/
@[simp] theorem freqOf_setFreq (s : State) (sym sym' : Byte) (v : Word) :
    (s.setFreq sym v).freqOf sym' = if sym = sym' then v else s.freqOf sym' := by
  simp [State.freqOf, Vector.getElem_set, BitVec.toNat_inj]

@[simp] theorem codeOf_dropCodes (s : State) (sym : Byte) : s.dropCodes.codeOf sym = Code.none := by
  simp [State.codeOf]

@[simp] theorem codeOf_commitCodes (s : State) (cs : List (Byte × List Bool)) (sym : Byte) :
    (s.commitCodes (codeTable cs)).codeOf sym = ((cs.lookup sym).map Code.ofBits).getD Code.none := by
  simp [State.codeOf, codeTable]

/-- A committed tree reads back as its list of nodes; entries above it stay (42_tree.md R97). -/
theorem node_commitTree (s : State) (ns : List Node) (h : Handle) (hh : h.toNat < 511) :
    (s.commitTree ns).node h = (ns[h.toNat]?).getD (s.node h) := by
  have e : BitVec.ofNat 9 h.toNat = h := by simp
  simp only [State.node, hh, dif_pos, State.commitTree_arena, getElem_tabulate, e]

theorem mem_allSymbols (sym : Byte) : sym ∈ allSymbols :=
  List.mem_map.2 ⟨sym.toNat, by simpa [Config.alphabet] using sym.isLt, by simp⟩

theorem nodup_allSymbols : allSymbols.Nodup := by
  refine (List.nodup_map_iff_inj_on List.nodup_range).2 fun a ha b hb e => ?_
  simp only [Config.alphabet, List.mem_range] at ha hb
  have := congrArg BitVec.toNat e
  simp only [BitVec.toNat_ofNat] at this
  omega

/-- A symbol is present exactly when its counter is not 0 (10_state.md R45). -/
theorem mem_presentSymbols (s : State) (sym : Byte) : sym ∈ s.presentSymbols ↔ s.freqOf sym ≠ 0#32 := by
  simp [State.presentSymbols, mem_allSymbols]

end Sys2Proof.Machine
end

