-- ==== Sys2Proof/Laws/Codes.lean ====
section
/-! SUPPORT. Paths in a held tree and the traversal of the code table generator (43_codes.md R104-R108). -/

namespace Sys2Proof.Machine

open Sys2Proof

@[simp] theorem follow_nil (s : State) (h : Handle) : s.follow h [] = h := rfl

@[simp] theorem follow_cons (s : State) (h : Handle) (b : Bool) (bs : List Bool) :
    s.follow h (b :: bs) = s.follow (if b then (s.node h).right else (s.node h).left) bs := rfl

theorem follow_append (s : State) (h : Handle) (p q : List Bool) : s.follow h (p ++ q) = s.follow (s.follow h p) q := by
  induction p generalizing h with
  | nil => rfl
  | cons b p ih => simp [ih]

@[simp] theorem nodeAt_toNat (s : State) (h : Handle) : s.nodeAt h.toNat = s.node h := by simp [State.nodeAt]

/-- `q` leads from `h` down to the leaf `z`, all nodes before it internal. -/
def LeadsTo (s : State) : Handle → List Bool → Handle → Prop
  | h, [], z => h = z ∧ (s.node h).leaf = true
  | h, b :: q, z => (s.node h).leaf = false ∧ LeadsTo s (if b then (s.node h).right else (s.node h).left) q z

theorem leadsTo_iff (s : State) (h z : Handle) (q : List Bool) :
    LeadsTo s h q z ↔ s.follow h q = z ∧ (s.node z).leaf = true ∧
      ∀ pre, pre <+: q → pre ≠ q → (s.node (s.follow h pre)).leaf = false := by
  induction q generalizing h with
  | nil =>
    simp only [LeadsTo, follow_nil, List.prefix_nil]
    constructor
    · rintro ⟨rfl, hl⟩; exact ⟨rfl, hl, fun pre e ne => absurd e ne⟩
    · rintro ⟨rfl, hl, -⟩; exact ⟨rfl, hl⟩
  | cons b q ih =>
    simp only [LeadsTo, ih, follow_cons]
    constructor
    · rintro ⟨h0, hz, hl, hp⟩
      refine ⟨hz, hl, fun pre hpre hne => ?_⟩
      cases pre with
      | nil => exact h0
      | cons c pre =>
        obtain ⟨rfl, hpre'⟩ := List.cons_prefix_cons.1 hpre
        exact hp pre hpre' (by simpa using hne)
    · rintro ⟨hz, hl, hp⟩
      refine ⟨hp [] (by simp) (by simp), hz, hl, fun pre hpre hne => ?_⟩
      exact hp (b :: pre) (List.cons_prefix_cons.2 ⟨rfl, hpre⟩) (by simpa using hne)

theorem pathTo_iff (s : State) (p : List Bool) (h : Nat) :
    PathTo s p h ↔ LeadsTo s s.root p (BitVec.ofNat 9 h) := by
  rw [leadsTo_iff]; rfl

/-- A path that leads to a leaf is no prefix of another one that does (43_codes.md R107). -/
theorem leadsTo_prefix {s : State} {h z z' : Handle} {p q : List Bool} (hp : LeadsTo s h p z) (hq : LeadsTo s h q z')
    (hpre : p <+: q) : p = q ∧ z = z' := by
  induction p generalizing h q with
  | nil =>
    obtain ⟨rfl, hl⟩ := hp
    cases q with
    | nil => exact ⟨rfl, hq.1⟩
    | cons b q => exact absurd (hq.1.symm.trans hl) (by simp)
  | cons b p ih =>
    cases q with
    | nil => simp at hpre
    | cons c q =>
      obtain ⟨rfl, hpre'⟩ := List.cons_prefix_cons.1 hpre
      obtain ⟨e, ez⟩ := ih hp.2 hq.2 hpre'
      exact ⟨by rw [e], ez⟩

/-- The traversal visits exactly the leaves below `h`, each with the path to it (43_codes.md R104, R106), provided
handles fall along the way and the depth allowed exceeds the handle. -/
theorem mem_visitCodes {s : State} {d : Nat} {h : Handle} {pre : List Bool} (hd : h.toNat < d)
    (hc : ∀ x : Handle, x.toNat ≤ h.toNat → (s.node x).leaf = false →
      (s.node x).left.toNat < x.toNat ∧ (s.node x).right.toNat < x.toNat) (sym : Byte) (p : List Bool) :
    (sym, p) ∈ visitCodes s.node d h pre ↔ ∃ q z, p = pre ++ q ∧ LeadsTo s h q z ∧ (s.node z).sym = sym := by
  induction d generalizing h pre with
  | zero => omega
  | succ d ih =>
    rw [visitCodes]
    by_cases hl : (s.node h).leaf = true
    · rw [if_pos hl]
      simp only [List.mem_singleton, Prod.mk.injEq]
      constructor
      · rintro ⟨rfl, rfl⟩; exact ⟨[], h, by simp, ⟨rfl, hl⟩, rfl⟩
      · rintro ⟨q, z, rfl, hq, rfl⟩
        cases q with
        | nil => obtain ⟨rfl, -⟩ := hq; simp
        | cons b q => exact absurd (hq.1.symm.trans hl) (by simp)
    · have hl' : (s.node h).leaf = false := by simpa using hl
      obtain ⟨h1, h2⟩ := hc h le_rfl hl'
      rw [if_neg hl, List.mem_append,
        ih (by omega) (fun x hx => hc x (by omega)), ih (by omega) (fun x hx => hc x (by omega))]
      constructor
      · rintro (⟨q, z, rfl, hq, hs⟩ | ⟨q, z, rfl, hq, hs⟩)
        · exact ⟨false :: q, z, by simp, ⟨hl', by simpa using hq⟩, hs⟩
        · exact ⟨true :: q, z, by simp, ⟨hl', by simpa using hq⟩, hs⟩
      · rintro ⟨q, z, rfl, hq, hs⟩
        cases q with
        | nil => exact absurd hq.2 hl
        | cons b q =>
          cases b with
          | false => exact .inl ⟨q, z, by simp, by simpa using hq.2, hs⟩
          | true => exact .inr ⟨q, z, by simp, by simpa using hq.2, hs⟩

/-- Every node before the end of the path from the root is internal. -/
def InnerPath (s : State) (p : List Bool) : Prop :=
  ∀ pre, pre <+: p → pre ≠ p → (s.node (s.follow s.root pre)).leaf = false

theorem innerPath_concat {s : State} {p : List Bool} {b : Bool} (h : InnerPath s (p ++ [b])) :
    InnerPath s p ∧ (s.node (s.follow s.root p)).leaf = false := by
  refine ⟨fun pre h1 _ => h pre (h1.trans (List.prefix_append _ _)) ?_, h p (List.prefix_append _ _) (by simp)⟩
  rintro rfl; have := h1.length_le; simp at this

/-! ## What rests on the tree alone -/

theorem SameTree.nodeAt {s t : State} (h : SameTree s t) (k : Nat) : t.nodeAt k = s.nodeAt k := h.2.2.2 _

theorem SameTree.follow {s t : State} (h : SameTree s t) (x : Handle) (p : List Bool) : t.follow x p = s.follow x p := by
  induction p generalizing x with
  | nil => rfl
  | cons b p ih => rw [follow_cons, follow_cons, ih, h.2.2.2]

/-- The shape of the tree is kept where the tree is (10_state.md R50). -/
theorem SameTree.treeShape {s t : State} (h : SameTree s t) {n : Nat} (T : TreeShape s n) : TreeShape t n where
  leaves_pos := T.leaves_pos
  leaves_le := T.leaves_le
  nodes_eq := by rw [h.2.1]; exact T.nodes_eq
  root_eq := by rw [h.2.2.1]; exact T.root_eq
  leaf_iff := by simpa only [h.nodeAt] using T.leaf_iff
  sym_lt := by simpa only [h.nodeAt] using T.sym_lt
  child_lt := by simpa only [h.nodeAt] using T.child_lt
  weight_eq := by simpa only [h.nodeAt] using T.weight_eq
  one_parent := by simpa only [State.isChild, h.nodeAt] using T.one_parent

/-- So are the paths. -/
theorem SameTree.pathTo {s t : State} (h : SameTree s t) {p : List Bool} {k : Nat} (hp : PathTo s p k) :
    PathTo t p k := by
  simpa only [PathTo, h.nodeAt, h.follow, h.2.2.1, h.2.2.2] using hp

/-! ## In a tree of the shape of 10_state.md R48 -/

section
variable {s : State} {n : Nat} (T : TreeShape s n)
include T

theorem TreeShape.nodes_le : s.nodes.toNat ≤ 511 := by have := T.nodes_eq; have := T.leaves_le; omega

theorem TreeShape.leaf_iff_handle {h : Handle} (hh : h.toNat < 2 * n - 1) : (s.node h).leaf = true ↔ h.toNat < n := by
  have := T.leaf_iff h.toNat hh
  rwa [nodeAt_toNat] at this

theorem TreeShape.child_lt_handle {h : Handle} (hh : h.toNat < 2 * n - 1) (hl : (s.node h).leaf = false) :
    (s.node h).left.toNat < h.toNat ∧ (s.node h).right.toNat < h.toNat ∧ (s.node h).left ≠ (s.node h).right := by
  have hn : n ≤ h.toNat := by
    by_contra hcon
    have := (T.leaf_iff_handle hh).2 (by omega)
    simp [hl] at this
  have := T.child_lt h.toNat hh hn
  simpa using this

/-- A path never climbs. -/
theorem TreeShape.leadsTo_le {h z : Handle} {q : List Bool} (hh : h.toNat < 2 * n - 1) (hq : LeadsTo s h q z) :
    z.toNat + q.length ≤ h.toNat ∧ z.toNat < n := by
  induction q generalizing h with
  | nil =>
    obtain ⟨rfl, hl⟩ := hq
    exact ⟨by simp, (T.leaf_iff_handle hh).1 hl⟩
  | cons b q ih =>
    obtain ⟨h1, h2, -⟩ := T.child_lt_handle hh hq.1
    have hlt : (if b then (s.node h).right else (s.node h).left).toNat < h.toNat := by split <;> assumption
    have := ih (by omega) hq.2
    simp only [List.length_cons]
    omega

/-- Every node has a path from the root, the nodes before its end internal (10_state.md R48). -/
theorem TreeShape.path_exists {h : Nat} (hh : h < 2 * n - 1) :
    ∃ p, s.follow s.root p = BitVec.ofNat 9 h ∧ InnerPath s p := by
  have hn := T.leaves_le
  have hroot : s.root = BitVec.ofNat 9 (2 * n - 2) := by
    apply BitVec.eq_of_toNat_eq; rw [T.root_eq]; simp; omega
  obtain ⟨d, hd⟩ : ∃ d, d = 2 * n - 2 - h := ⟨_, rfl⟩
  induction d using Nat.strong_induction_on generalizing h with
  | _ d ih =>
    by_cases hr : h = 2 * n - 2
    · exact ⟨[], by rw [follow_nil, hroot, hr], fun pre hp hne => absurd (List.prefix_nil.1 hp) hne⟩
    · obtain ⟨x, hx, hnx, hc, -⟩ := T.one_parent h (by omega)
      have hlt := T.child_lt x hx hnx
      have hhx : h < x := by rcases hc with rfl | rfl <;> omega
      obtain ⟨p, hp, hpre⟩ := ih (2 * n - 2 - x) (by omega) hx rfl
      have hxl : (s.node (BitVec.ofNat 9 x)).leaf = false := by
        have := T.leaf_iff x hx
        rw [State.nodeAt] at this
        by_contra hcon
        have := this.1 (by simpa using hcon)
        omega
      have key : ∀ b : Bool, (if b then (s.nodeAt x).right else (s.nodeAt x).left).toNat = h →
          ∃ p, s.follow s.root p = BitVec.ofNat 9 h ∧ InnerPath s p := by
        intro b hb
        refine ⟨p ++ [b], ?_, ?_⟩
        · rw [follow_append, hp, follow_cons, follow_nil]
          apply BitVec.eq_of_toNat_eq
          rw [← hb]; simp [State.nodeAt]
        · intro pre hq hne
          rcases List.prefix_concat_iff.1 hq with e | hq'
          · exact absurd e hne
          · by_cases e : pre = p
            · rw [e, hp]; exact hxl
            · exact hpre pre hq' e
      rcases hc with hc | hc
      · exact key false (by simpa using hc)
      · exact key true (by simpa using hc)

/-- A path whose inner nodes are internal loses one handle per bit at least. -/
theorem TreeShape.innerPath_le {p : List Bool} (hp : InnerPath s p) :
    (s.follow s.root p).toNat + p.length ≤ 2 * n - 2 := by
  have hpos := T.leaves_pos
  induction p using List.reverseRecOn with
  | nil => rw [follow_nil, T.root_eq]; simp
  | append_singleton p b ih =>
    obtain ⟨h0, hl⟩ := innerPath_concat hp
    have h1 := ih h0
    have := T.child_lt_handle (h := s.follow s.root p) (by omega) hl
    rw [follow_append, follow_cons, follow_nil, List.length_append]
    simp only [List.length_cons, List.length_nil]
    split <;> omega

/-- An internal node has at most one parent and its children differ, so the last edge of a path is determined. -/
theorem TreeShape.last_edge {x y : Handle} {b c : Bool} (hx : x.toNat ≤ 2 * n - 2) (hy : y.toNat ≤ 2 * n - 2)
    (hxl : (s.node x).leaf = false) (hyl : (s.node y).leaf = false)
    (e : (if b then (s.node x).right else (s.node x).left) = (if c then (s.node y).right else (s.node y).left)) :
    x = y ∧ b = c := by
  have hpos := T.leaves_pos
  have hcx := T.child_lt_handle (h := x) (by omega) hxl
  have hcy := T.child_lt_handle (h := y) (by omega) hyl
  have hin : ∀ z : Handle, z.toNat ≤ 2 * n - 2 → (s.node z).leaf = false → n ≤ z.toNat := fun z hz hl => by
    by_contra hcon
    have := (T.leaf_iff_handle (h := z) (by omega)).2 (by omega)
    simp [hl] at this
  generalize hz : (if b then (s.node x).right else (s.node x).left) = z at e
  have hzx : s.isChild x.toNat z.toNat := by
    simp only [State.isChild, nodeAt_toNat, ← hz]; cases b <;> simp
  have hzy : s.isChild y.toNat z.toNat := by
    simp only [State.isChild, nodeAt_toNat, e]; cases c <;> simp
  have hlt : z.toNat < x.toNat := by rw [← hz]; split <;> omega
  obtain ⟨w, -, -, -, hu⟩ := T.one_parent z.toNat (by omega)
  have hxy : x = y := by
    apply BitVec.eq_of_toNat_eq
    rw [hu x.toNat (by omega) (hin x hx hxl) hzx, hu y.toNat (by omega) (hin y hy hyl) hzy]
  subst hxy
  refine ⟨rfl, ?_⟩
  have hne := hcx.2.2
  rw [e] at hz
  cases b <;> cases c <;> first | rfl | exact absurd hz hne | exact absurd hz.symm hne

/-- The path to a node is unique (10_state.md R48: no sharing). -/
theorem TreeShape.path_unique {p q : List Bool} (hp : InnerPath s p) (hq : InnerPath s q)
    (e : s.follow s.root p = s.follow s.root q) : p = q := by
  have hpos := T.leaves_pos
  induction p using List.reverseRecOn generalizing q with
  | nil =>
    have := T.innerPath_le hq
    rw [← e, follow_nil, T.root_eq] at this
    exact (List.length_eq_zero_iff.1 (by omega)).symm
  | append_singleton p b ih =>
    rcases List.eq_nil_or_concat q with rfl | ⟨q, c, rfl⟩
    · have := T.innerPath_le hp
      rw [e, follow_nil, T.root_eq, List.length_append] at this
      simp only [List.length_cons, List.length_nil] at this
      omega
    · obtain ⟨hp', hpl⟩ := innerPath_concat hp
      rw [List.concat_eq_append] at *
      obtain ⟨hq', hql⟩ := innerPath_concat hq
      rw [follow_append, follow_append, follow_cons, follow_cons, follow_nil, follow_nil] at e
      have hpb := T.innerPath_le hp'
      have hqb := T.innerPath_le hq'
      obtain ⟨hxy, rfl⟩ := T.last_edge (by omega) (by omega) hpl hql e
      rw [ih hp' hq' hxy]

/-- The path to a leaf of a tree of `n` leaves has at most `n - 1` bits (43_codes.md R106): its nodes before the end are
distinct internal ones. -/
theorem TreeShape.pathTo_length {p : List Bool} {h : Nat} (hp : PathTo s p h) : p.length ≤ n - 1 := by
  rcases List.eq_nil_or_concat p with rfl | ⟨q, b, rfl⟩
  · simp
  · rw [List.concat_eq_append] at *
    have hpos := T.leaves_pos
    obtain ⟨hq, hl⟩ := innerPath_concat (s := s) hp.2.2
    have h1 := T.innerPath_le hq
    have : n ≤ (s.follow s.root q).toNat := by
      by_contra hcon
      have := (T.leaf_iff_handle (h := s.follow s.root q) (by omega)).2 (by omega)
      simp [hl] at this
    simp only [List.length_append, List.length_cons, List.length_nil]
    omega

end

end Sys2Proof.Machine
end

