-- ==== Sys2Proof/Laws/Decoder.lean ====
section
/-! SUPPORT. The decoder's walk over codewords (45_decode.md R114, R115, R118). -/

namespace Sys2Proof.Machine

open Sys2Proof

/-- The walk over one codeword: it comes down to the leaf, emits its symbol (or overflows) and starts again at the root. -/
theorem walkBits_leadsTo {s : State} {h z : Handle} {q rest : List Bool} {start k m : Nat} (hq : LeadsTo s h q z)
    (hne : q ≠ []) :
    walkBits s.node s.root h start k m (q ++ rest) =
      if m = Config.obufBytes then .error ⟨.outputOverflow, BitVec.ofNat 32 start⟩
      else (walkBits s.node s.root s.root (k + q.length) (k + q.length) (m + 1) rest).map ((s.node z).sym :: ·) := by
  induction q generalizing h k with
  | nil => exact absurd rfl hne
  | cons b q ih =>
    rw [List.cons_append, walkBits]
    cases q with
    | nil =>
      obtain ⟨-, rfl, hl⟩ := hq
      simp only [hl, if_true, List.nil_append, List.length_cons, List.length_nil, Nat.zero_add]
      split
      · rfl
      · cases walkBits s.node s.root s.root (k + 1) (k + 1) (m + 1) rest <;> rfl
    | cons c q =>
      have hl : (s.node (if b then (s.node h).right else (s.node h).left)).leaf = false := hq.2.1
      simp only [hl, Bool.false_eq_true, if_false]
      rw [ih hq.2 (by simp)]
      simp only [List.length_cons, Nat.add_assoc, Nat.add_comm 1]

/-- The walk over a sequence of whole codewords emits their symbols in order (45_decode.md R115). -/
theorem walkBits_codewords {s : State} (hroot : (s.node s.root).leaf = false) (cw : List (List Bool × Handle))
    (hcw : ∀ c ∈ cw, LeadsTo s s.root c.1 c.2) (rest : List Bool) (k m : Nat)
    (hm : m + cw.length ≤ Config.obufBytes) :
    walkBits s.node s.root s.root k k m (cw.flatMap Prod.fst ++ rest) =
      (walkBits s.node s.root s.root (k + (cw.flatMap Prod.fst).length) (k + (cw.flatMap Prod.fst).length)
        (m + cw.length) rest).map ((cw.map fun c => (s.node c.2).sym) ++ ·) := by
  induction cw generalizing k m with
  | nil =>
    simp only [List.flatMap_nil, List.nil_append, List.length_nil, Nat.add_zero, List.map_nil]
    cases walkBits s.node s.root s.root k k m rest <;> rfl
  | cons c cw ih =>
    have hc := hcw c (by simp)
    have hne : c.1 ≠ [] := by
      intro e; rw [e] at hc
      exact absurd (hroot.symm.trans hc.2) (by simp)
    simp only [List.length_cons] at hm
    rw [List.flatMap_cons, List.append_assoc, walkBits_leadsTo hc hne, if_neg (by omega),
      ih (fun x hx => hcw x (by simp [hx])) _ _ (by omega)]
    have e1 : k + c.1.length + (cw.flatMap Prod.fst).length = k + (c.1 ++ cw.flatMap Prod.fst).length := by
      rw [List.length_append]; omega
    have e2 : m + 1 + cw.length = m + (c :: cw).length := by simp only [List.length_cons]; omega
    rw [e1, e2]
    cases walkBits s.node s.root s.root (k + (c.1 ++ cw.flatMap Prod.fst).length)
      (k + (c.1 ++ cw.flatMap Prod.fst).length) (m + (c :: cw).length) rest <;> simp [Except.map]

/-- A walk that ends inside the tree fails with the first bit of the unfinished codeword (45_decode.md R118). -/
theorem walkBits_unfinished {s : State} {h : Handle} {q : List Bool} {start k m : Nat}
    (hin : ∀ pre, pre <+: q → pre ≠ [] → (s.node (s.follow h pre)).leaf = false) (hend : s.follow h q ≠ s.root) :
    walkBits s.node s.root h start k m q = .error ⟨.inconsistentPayload, BitVec.ofNat 32 start⟩ := by
  induction q generalizing h k with
  | nil => rw [walkBits, if_pos]; exact hend
  | cons b q ih =>
    have h1 : (s.node (if b then (s.node h).right else (s.node h).left)).leaf = false := by
      simpa using hin [b] (by simp) (by simp)
    rw [walkBits]
    simp only [h1, Bool.false_eq_true, if_false]
    exact ih (fun pre hp _ => by simpa using hin (b :: pre) (List.cons_prefix_cons.2 ⟨rfl, hp⟩) (by simp)) hend

/-- The walk never emits more symbols than OBUF holds (45_decode.md R114). -/
theorem length_walkBits {node : Handle → Node} {root h : Handle} {start k m : Nat} {bits : List Bool} {out : List Byte}
    (hm : m ≤ Config.obufBytes) (hw : walkBits node root h start k m bits = .ok out) :
    m + out.length ≤ Config.obufBytes := by
  induction bits generalizing h start k m out with
  | nil =>
    rw [walkBits] at hw
    split at hw
    · simp at hw
    · simp only [Except.ok.injEq] at hw; subst hw; simpa using hm
  | cons b bits ih =>
    rw [walkBits] at hw
    generalize (if b then (node h).right else (node h).left) = h' at hw
    split at hw
    · split at hw
      · simp at hw
      · split at hw
        · rename_i rest he
          simp only [Except.ok.injEq] at hw
          subst hw
          have := ih (by omega) he
          simp only [List.length_cons]; omega
        · simp at hw
    · exact ih hm hw

end Sys2Proof.Machine
end

