-- ==== Sys2Proof/Laws/Memory.lean ====
section
/-! SUPPORT. The buffer memory: read after write, and the canonical form is kept (20_memory.md R67, R70). -/

namespace Sys2Proof.Machine

open Sys2Proof

@[simp] theorem Memory.get?_nil (a : Nat) : Memory.get? [] a = none := rfl

theorem Memory.get?_append (m m' : Memory) (a : Nat) :
    Memory.get? (m ++ m') a = (Memory.get? m a).or (Memory.get? m' a) := by
  induction m with
  | nil => rfl
  | cons c m ih =>
    obtain ⟨k, b⟩ := c
    by_cases h : k = a <;> simp [Memory.get?, h, ih]

theorem Memory.get?_filter (m : Memory) (p : Nat → Bool) (a : Nat) :
    Memory.get? (m.filter (fun c => p c.1)) a = if p a then Memory.get? m a else none := by
  induction m with
  | nil => simp
  | cons c m ih =>
    obtain ⟨k, b⟩ := c
    by_cases h : k = a
    · subst h; by_cases hp : p k <;> simp_all [Memory.get?]
    · by_cases hp : p k <;> simp_all [Memory.get?]

theorem Memory.get?_cellsFrom (a : Nat) (bs : List Byte) (x : Nat) :
    Memory.get? (cellsFrom a bs) x = if a ≤ x then bs[x - a]? else none := by
  induction bs generalizing a with
  | nil => simp [cellsFrom]
  | cons b bs ih =>
    rw [cellsFrom, Memory.get?, ih]
    by_cases h : a = x
    · subst h; simp
    · by_cases h' : a ≤ x
      · obtain ⟨d, rfl⟩ : ∃ d, x = a + 1 + d := ⟨x - a - 1, by omega⟩
        simp [show a + 1 + d - a = d + 1 by omega, h', h]
      · simp [h, h', show ¬ a + 1 ≤ x by omega]

/-- Read after write: the written bytes read back, every other byte is as before. -/
theorem Memory.get?_writeBytes (m : Memory) (a : Nat) (bs : List Byte) (x : Nat) :
    (m.writeBytes a bs).get? x = if a ≤ x ∧ x < a + bs.length then bs[x - a]? else m.get? x := by
  rw [Memory.writeBytes, Memory.get?_append, Memory.get?_append,
    Memory.get?_filter m (fun k => decide (k < a)), Memory.get?_filter m (fun k => decide (a + bs.length ≤ k)),
    Memory.get?_cellsFrom]
  by_cases h₁ : a ≤ x
  · by_cases h₂ : x < a + bs.length
    · simp [h₁, h₂, show ¬ x < a by omega, List.getElem?_eq_getElem (show x - a < bs.length by omega)]
    · simp [h₁, show ¬ x < a by omega, show a + bs.length ≤ x by omega, h₂,
        List.getElem?_eq_none (show bs.length ≤ x - a by omega)]
  · simp [h₁, show x < a by omega, show ¬ a + bs.length ≤ x by omega]

theorem mem_cellsFrom {a : Nat} {bs : List Byte} {c : Host.Cell} (h : c ∈ cellsFrom a bs) :
    a ≤ c.1 ∧ c.1 < a + bs.length := by
  induction bs generalizing a with
  | nil => simp [cellsFrom] at h
  | cons b bs ih =>
    rcases List.mem_cons.1 h with rfl | h
    · simp
    · have := ih h; simp only [List.length_cons]; omega

theorem pairwise_cellsFrom (a : Nat) (bs : List Byte) : (cellsFrom a bs).Pairwise (fun c d => c.1 < d.1) := by
  induction bs generalizing a with
  | nil => exact List.Pairwise.nil
  | cons b bs ih => exact List.Pairwise.cons (fun c hc => by have := mem_cellsFrom hc; simp only; omega) (ih _)

/-- Every memory write keeps the canonical form, provided it stays in the buffer windows. -/
theorem Memory.wf_writeBytes {m : Memory} (hm : m.wf) {a : Nat} {bs : List Byte}
    (hb : ∀ x, a ≤ x → x < a + bs.length → isBufferOffset x = true) : (m.writeBytes a bs).wf := by
  refine ⟨?_, ?_⟩
  · simp only [Memory.writeBytes, List.pairwise_append, List.mem_append, List.mem_filter, decide_eq_true_eq]
    refine ⟨⟨hm.1.filter _, pairwise_cellsFrom a bs, ?_⟩, hm.1.filter _, ?_⟩
    · intro c hc d hd; have := mem_cellsFrom hd; omega
    · rintro c (hc | hc) d hd
      · omega
      · have := mem_cellsFrom hc; omega
  · intro c hc
    simp only [Memory.writeBytes, List.mem_append, List.mem_filter] at hc
    rcases hc with (hc | hc) | hc
    · exact hm.2 c hc.1
    · have := mem_cellsFrom hc; exact hb _ this.1 this.2
    · exact hm.2 c hc.1

/-- A byte of a buffer is drawn exactly where it is unwritten (20_memory.md R70, R71). -/
theorem byteAt_of_written {s : State} {a : Nat} {b : Byte} (h : s.mem.get? a = some b) : s.byteAt a = b := by
  simp [State.byteAt, h]

end Sys2Proof.Machine
end

