-- ==== Sys2Proof/Laws/Encoder.lean ====
section
/-! SUPPORT. COUNT's counting and ENCODE's packing on lists (41_frequency.md R93, 44_encode.md R109, R112). -/

namespace Sys2Proof.Machine

open Sys2Proof

/-- A counter after COUNT is the number of occurrences of its symbol (41_frequency.md R93). -/
theorem getElem_countBytes (bs : List Byte) (sym : Byte) (h : bs.length < 2 ^ 32) :
    ((countBytes bs)[sym.toNat]'sym.isLt).toNat = bs.count sym := by
  have := List.count_le_length (a := sym) (l := bs)
  simp [countBytes]; omega

@[simp] theorem length_inputBytes (s : State) : s.inputBytes.length = s.inLen.toNat := by simp [State.inputBytes]

@[simp] theorem length_payloadBits (s : State) : s.payloadBits.length = s.bitLen.toNat := by simp [State.payloadBits]

/-- The length of the payload of the bytes `bs`. -/
def payloadLength (code : Byte → Code) (bs : List Byte) : Nat := (bs.map (fun b => (code b).len.toNat)).sum

/-- The payload of the bytes `bs`: their codes in order (44_encode.md R109). -/
def payloadOf (code : Byte → Code) (bs : List Byte) : List Bool := bs.flatMap (fun b => (code b).toBits)

theorem length_payloadOf (code : Byte → Code) (bs : List Byte) :
    (payloadOf code bs).length = payloadLength code bs := by
  simp [payloadOf, payloadLength, List.length_flatMap]

/-- The packing loop succeeds when every byte has a code and all codes fit; it answers the codes in order. -/
theorem packCodes_ok {code : Byte → Code} {i t : Nat} {bs : List Byte} (hc : ∀ b ∈ bs, (code b).len ≠ 0#8)
    (ht : t + payloadLength code bs ≤ 8 * Config.pbufBytes) : packCodes code i t bs = .ok (payloadOf code bs) := by
  induction bs generalizing i t with
  | nil => rfl
  | cons b bs ih =>
    simp only [payloadLength, List.map_cons, List.sum_cons] at ht
    rw [packCodes, if_neg (hc b (by simp)), if_neg (by omega),
      ih (fun x hx => hc x (by simp [hx])) (by simp only [payloadLength]; omega)]
    rfl

/-- The packing loop succeeds only then. -/
theorem packCodes_ok_inv {code : Byte → Code} {i t : Nat} {bs : List Byte} {bits : List Bool}
    (ht : t ≤ 8 * Config.pbufBytes) (h : packCodes code i t bs = .ok bits) :
    bits = payloadOf code bs ∧ (∀ b ∈ bs, (code b).len ≠ 0#8) ∧ t + payloadLength code bs ≤ 8 * Config.pbufBytes := by
  induction bs generalizing i t bits with
  | nil => simp only [packCodes, Except.ok.injEq] at h; subst h; simpa [payloadOf, payloadLength] using ht
  | cons b bs ih =>
    rw [packCodes] at h
    split at h
    · simp at h
    · split at h
      · simp at h
      · split at h
        · rename_i rest he
          obtain ⟨rfl, hc, hl⟩ := ih (by omega) he
          simp only [Except.ok.injEq] at h
          subst h
          refine ⟨rfl, fun x hx => ?_, ?_⟩
          · rcases List.mem_cons.1 hx with rfl | hx
            · assumption
            · exact hc x hx
          · simp only [payloadLength, List.map_cons, List.sum_cons] at hl ⊢; omega
        · simp at h

/-- The packing loop passes over bytes that have codes that fit. -/
theorem packCodes_skip {code : Byte → Code} {i t : Nat} {pre bs : List Byte} (hc : ∀ b ∈ pre, (code b).len ≠ 0#8)
    (ht : t + payloadLength code pre ≤ 8 * Config.pbufBytes) :
    packCodes code i t (pre ++ bs) =
      (packCodes code (i + pre.length) (t + payloadLength code pre) bs).map (payloadOf code pre ++ ·) := by
  induction pre generalizing i t with
  | nil =>
    simp only [List.nil_append, List.length_nil, Nat.add_zero, payloadLength, List.map_nil, List.sum_nil, payloadOf,
      List.flatMap_nil]
    cases packCodes code i t bs <;> rfl
  | cons b pre ih =>
    simp only [payloadLength, List.map_cons, List.sum_cons] at ht
    rw [List.cons_append, packCodes, if_neg (hc b (by simp)), if_neg (by omega),
      ih (fun x hx => hc x (by simp [hx])) (by simp only [payloadLength]; omega)]
    have e1 : i + 1 + pre.length = i + (b :: pre).length := by simp only [List.length_cons]; omega
    have e2 : t + (code b).len.toNat + payloadLength code pre = t + payloadLength code (b :: pre) := by
      simp only [payloadLength, List.map_cons, List.sum_cons]; omega
    rw [e1, e2]
    cases packCodes code (i + (b :: pre).length) (t + payloadLength code (b :: pre)) bs with
    | ok r => simp [Except.map, payloadOf]
    | error e => simp [Except.map]

@[simp] theorem length_payloadBytes (bits : List Bool) : (payloadBytes bits).length = (bits.length + 7) / 8 := by
  simp [payloadBytes]

/-- Payload bit `k` after ENCODE: bit `k` of the payload, padding bits 0 (20_memory.md R69, 44_encode.md R109, R112). -/
theorem pbit_writePbuf (s : State) (bits : List Bool) (k : Nat) (hk : k < 8 * ((bits.length + 7) / 8)) :
    (s.writePbuf (payloadBytes bits)).pbit k = bits.getD k false := by
  have h3 : k >>> 3 = k / 8 := by simp [Nat.shiftRight_eq_div_pow]
  have hlt : k / 8 < (payloadBytes bits).length := by rw [length_payloadBytes]; omega
  have hg : (s.writePbuf (payloadBytes bits)).mem.get? (pbufBase + k / 8) = some ((payloadBytes bits)[k / 8]) := by
    rw [State.writePbuf_mem, Memory.get?_writeBytes, if_pos ⟨by omega, by omega⟩]
    simp [List.getElem?_eq_getElem hlt]
  rw [State.pbit, State.pbuf, h3, byteAt_of_written hg, ← pbit_packBytes _ bits k hk, h3,
    List.getD_eq_getElem (packBytes ((bits.length + 7) / 8) bits) _ hlt]
  rfl

end Sys2Proof.Machine
end

