-- ==== Sys2Proof/Laws/HostBus.lean ====
section
/-! SUPPORT. The decode of host accesses (10_state.md R21, 20_memory.md R58, R64). -/

namespace Sys2Proof.Machine

open Sys2Proof

theorem isBufferOffset_iff (a : Nat) : isBufferOffset a = true ↔ 0x10000 ≤ a ∧ a < 0x40000 := by
  simp only [isBufferOffset, Bool.or_eq_true, Bool.and_eq_true, decide_eq_true_eq]
  simp only [ibufBase, pbufBase, obufBase, Config.ibufBytes, Config.pbufBytes, Config.obufBytes]
  omega

/-- An access that passes the checks of 20_memory.md R64 (a) to (c) is aligned, full and decoded. -/
theorem target_ok_iff (x : Access) (t : Target) :
    x.target = .ok t ↔ x.offset % 4 = 0 ∧ x.isFull = true ∧ decodeOffset x.offset = some t := by
  unfold Access.target
  by_cases h1 : x.offset % 4 = 0
  · by_cases h2 : x.isFull = true
    · simp only [h1, h2, ne_eq, not_true_eq_false, if_false, Bool.not_true, Bool.false_eq_true, true_and]
      cases decodeOffset x.offset <;> simp
    · simp [h1, h2]
  · simp [h1]

/-- A decoded buffer access stays in the buffer windows with all four of its bytes (20_memory.md R58). -/
theorem target_buffer {x : Access} {a : Nat} (h : x.target = .ok (.buffer a)) :
    x.offset = a ∧ a % 4 = 0 ∧ ∀ y, a ≤ y → y < a + 4 → isBufferOffset y = true := by
  obtain ⟨h1, -, h3⟩ := (target_ok_iff x _).1 h
  unfold decodeOffset at h3
  split at h3
  · rename_i hb
    simp only [Option.some.injEq, Target.buffer.injEq] at h3
    subst h3
    rw [isBufferOffset_iff] at hb
    exact ⟨rfl, h1, fun y hy1 hy2 => by rw [isBufferOffset_iff]; omega⟩
  · cases regAt x.offset <;> simp at h3

theorem mem_writeReg (s : State) (v : Word) (r : Reg) : (s.writeReg v r).mem = s.mem := by
  cases r <;> simp [State.writeReg]
  split <;> rfl

/-- A host write keeps the canonical form of memory (20_memory.md R66, R67). -/
theorem Memory.wf_hostWrite {s : State} (h : s.mem.wf) (x : Access) (v : Word) : (s.hostWrite x v).mem.wf := by
  unfold State.hostWrite State.writeTarget?
  split
  · exact h
  · rename_i t ht
    split at ht
    · simp at ht
    · rename_i t' ht'
      split at ht
      · simp at ht
      · simp only [Except.ok.injEq] at ht
        subst ht
        cases t' with
        | reg r => simpa only [State.writeTarget, mem_writeReg] using h
        | buffer a =>
          simp only [State.writeTarget, State.writeBufferWord_mem]
          exact Memory.wf_writeBytes h (target_buffer ht').2.2

/-- A field above which a register's bits are reserved reads zero-extended (10_state.md R20). -/
theorem zero_append_eq_setWidth {n m : Nat} (x : BitVec m) : (0#n ++ x) = x.setWidth (n + m) := by
  apply BitVec.eq_of_getLsbD_eq
  intro i hi
  rw [BitVec.getLsbD_append, BitVec.getLsbD_setWidth, decide_eq_true hi, Bool.true_and]
  split
  · rfl
  · rw [BitVec.getLsbD_zero, BitVec.getLsbD_of_ge _ _ (by omega)]

/-- The registers narrower than a word read zero-extended (10_state.md R20, R25, R34-R36, R40). -/
@[simp] theorem readReg_err (s : State) : s.readReg .err = s.err.setWidth 32 := zero_append_eq_setWidth s.err
@[simp] theorem readReg_nodes (s : State) : s.readReg .nodes = s.nodes.setWidth 32 := zero_append_eq_setWidth s.nodes
@[simp] theorem readReg_root (s : State) : s.readReg .root = s.root.setWidth 32 := zero_append_eq_setWidth s.root
@[simp] theorem readReg_nodeSel (s : State) : s.readReg .nodeSel = s.nodeSel.setWidth 32 :=
  zero_append_eq_setWidth s.nodeSel
@[simp] theorem readReg_ctSel (s : State) : s.readReg .ctSel = s.ctSel.setWidth 32 := zero_append_eq_setWidth s.ctSel

end Sys2Proof.Machine
end

