-- ==== Sys2Proof/Laws/Tree.lean ====
section
/-! SUPPORT. The tree builder on lists: what extracting a minimum answers, and what every merge of the loop takes
(42_tree.md R97, R98). -/

namespace Sys2Proof.Machine

open Sys2Proof

/-! ## Keys -/

theorem Pending.le_iff (p q : Pending) :
    p.le q = true ↔ p.weight < q.weight ∨ (p.weight = q.weight ∧ p.handle ≤ q.handle) := by
  simp [Pending.le]

theorem Pending.le_refl (p : Pending) : p.le p = true := by simp [Pending.le]

theorem Pending.le_trans {p q r : Pending} (h₁ : p.le q = true) (h₂ : q.le r = true) : p.le r = true := by
  simp only [Pending.le_iff] at *; omega

theorem Pending.le_total (p q : Pending) : p.le q = true ∨ q.le p = true := by
  simp only [Pending.le_iff]; omega

theorem Pending.le_antisymm {p q : Pending} (h₁ : p.le q = true) (h₂ : q.le p = true) : p = q := by
  obtain ⟨w, h⟩ := p; obtain ⟨w', h'⟩ := q
  simp only [Pending.le_iff, Pending.mk.injEq] at *; omega

theorem foldl_min_spec (p : Pending) (q : List Pending) :
    q.foldl Pending.min p ∈ p :: q ∧ ∀ x ∈ p :: q, (q.foldl Pending.min p).le x = true := by
  induction q generalizing p with
  | nil => simp [Pending.le_refl]
  | cons y q ih =>
    obtain ⟨hmem, hle⟩ := ih (Pending.min p y)
    have hmin : (Pending.min p y).le p = true ∧ (Pending.min p y).le y = true ∧
        (Pending.min p y = p ∨ Pending.min p y = y) := by
      unfold Pending.min
      split
      · exact ⟨Pending.le_refl p, ‹_›, .inl rfl⟩
      · exact ⟨(Pending.le_total p y).resolve_left ‹_›, Pending.le_refl y, .inr rfl⟩
    have h0 := hle _ (List.mem_cons_self ..)
    simp only [List.foldl_cons, List.mem_cons] at *
    refine ⟨?_, ?_⟩
    · rcases hmem with h | h
      · rcases hmin.2.2 with e | e
        · exact .inl (h.trans e)
        · exact .inr (.inl (h.trans e))
      · exact .inr (.inr h)
    · rintro x (rfl | rfl | hx)
      · exact Pending.le_trans h0 hmin.1
      · exact Pending.le_trans h0 hmin.2.1
      · exact hle x (.inr hx)

/-- What `extractMin` answers: a smallest key of the list, and the list without it. -/
theorem extractMin_spec {q : List Pending} {m : Pending} {r : List Pending} (h : extractMin q = some (m, r)) :
    q.Perm (m :: r) ∧ ∀ x ∈ q, m.le x = true := by
  cases q with
  | nil => simp [extractMin] at h
  | cons p q =>
    simp only [extractMin, Option.some.injEq, Prod.mk.injEq] at h
    obtain ⟨rfl, rfl⟩ := h
    obtain ⟨hm, hle⟩ := foldl_min_spec p q
    exact ⟨List.perm_cons_erase hm, hle⟩

theorem extractMin_isSome {q : List Pending} (h : q ≠ []) : ∃ m r, extractMin q = some (m, r) := by
  cases q with
  | nil => exact absurd rfl h
  | cons p q => exact ⟨_, _, rfl⟩

/-- The two extractions of one merge (42_tree.md R98): the two smallest keys in order, and the rest. -/
theorem twoMins {q : List Pending} (h : 2 ≤ q.length) :
    ∃ a b q₁ q₂, extractMin q = some (a, q₁) ∧ extractMin q₁ = some (b, q₂) ∧ q.Perm (a :: b :: q₂) ∧
      (∀ x ∈ q, a.le x = true) ∧ (∀ x ∈ b :: q₂, b.le x = true) := by
  obtain ⟨a, q₁, ha⟩ := extractMin_isSome (q := q) (by rintro rfl; simp at h)
  obtain ⟨hp, hle⟩ := extractMin_spec ha
  obtain ⟨b, q₂, hb⟩ := extractMin_isSome (q := q₁) (by
    rintro rfl; have := hp.length_eq; simp only [List.length_cons, List.length_nil] at this; omega)
  obtain ⟨hp', hle'⟩ := extractMin_spec hb
  exact ⟨a, b, q₁, q₂, ha, hb, hp.trans (hp'.cons a), hle, fun x hx => hle' x (hp'.mem_iff.2 hx)⟩

/-- One turn of the merge loop. -/
theorem mergeLoop_succ {q : List Pending} (h : 2 ≤ q.length) (fuel next : Nat) :
    ∃ a b q₂, q.Perm (a :: b :: q₂) ∧ (∀ x ∈ q, a.le x = true) ∧ (∀ x ∈ b :: q₂, b.le x = true) ∧
      mergeLoop (fuel + 1) next q =
        internalNode a b :: mergeLoop fuel (next + 1) (⟨a.weight + b.weight, next⟩ :: q₂) := by
  obtain ⟨a, b, q₁, q₂, ha, hb, hp, h1, h2⟩ := twoMins h
  exact ⟨a, b, q₂, hp, h1, h2, by simp [mergeLoop, ha, hb]⟩

theorem mergeLoop_short {q : List Pending} (h : q.length ≤ 1) (fuel next : Nat) : mergeLoop fuel next q = [] := by
  match q, h with
  | [], _ => cases fuel <;> rfl
  | [p], _ => cases fuel <;> simp [mergeLoop, extractMin]

/-- The loop makes one node fewer than there are nodes awaiting a parent (42_tree.md R100). -/
theorem length_mergeLoop (fuel next : Nat) (q : List Pending) (h : q.length ≤ fuel + 1) :
    (mergeLoop fuel next q).length = q.length - 1 := by
  induction fuel generalizing next q with
  | zero => simp [mergeLoop]; omega
  | succ fuel ih =>
    by_cases h2 : 2 ≤ q.length
    · obtain ⟨a, b, q₂, hp, -, -, e⟩ := mergeLoop_succ h2 fuel next
      have hl := hp.length_eq
      simp only [List.length_cons] at hl
      rw [e, List.length_cons, ih _ _ (by simp; omega)]
      simp; omega
    · rw [mergeLoop_short (by omega)]; simp; omega

/-- Every node the loop makes is internal, with symbol 0. -/
theorem leaf_mergeLoop {fuel next : Nat} {q : List Pending} {n : Node} (h : n ∈ mergeLoop fuel next q) :
    n.leaf = false := by
  induction fuel generalizing next q with
  | zero => simp [mergeLoop] at h
  | succ fuel ih =>
    by_cases h2 : 2 ≤ q.length
    · obtain ⟨a, b, q₂, -, -, -, e⟩ := mergeLoop_succ h2 fuel next
      rw [e] at h
      rcases List.mem_cons.1 h with rfl | h
      · rfl
      · exact ih h
    · rw [mergeLoop_short (by omega)] at h; simp at h

/-! ## The merge order -/

/-- The key of the `j`-th node of `out`, made from handle `next` up. -/
def createdKey (next : Nat) (out : List Node) (j : Nat) : Pending := ⟨(out.getD j Node.blank).weight.toNat, next + j⟩

/-- The key `p` awaits a parent when the `i`-th node of `out` is made: it was there at the start or is an earlier node
of `out`, and no earlier node of `out` took it as a child. -/
def AwaitsAt (q : List Pending) (next : Nat) (out : List Node) (i : Nat) (p : Pending) : Prop :=
  (p ∈ q ∨ ∃ j, j < i ∧ p = createdKey next out j) ∧
  ∀ j, j < i → (out.getD j Node.blank).left.toNat ≠ p.handle ∧ (out.getD j Node.blank).right.toNat ≠ p.handle

/-- The total weight of a list of keys. -/
def weightSum (q : List Pending) : Nat := (q.map Pending.weight).sum

/-- Keys with distinct handles below `next`. -/
def FreshKeys (q : List Pending) (next : Nat) : Prop := (q.map Pending.handle).Nodup ∧ ∀ p ∈ q, p.handle < next

theorem awaitsAt_zero {q : List Pending} {next : Nat} {out : List Node} {p : Pending} :
    AwaitsAt q next out 0 p ↔ p ∈ q := by simp [AwaitsAt]

/-- After the first merge the keys awaiting a parent are those of the loop's next turn. -/
theorem awaitsAt_succ {q q₂ : List Pending} {a b : Pending} {next : Nat} {out : List Node} {i : Nat} {p : Pending}
    (hp : q.Perm (a :: b :: q₂)) (hf : FreshKeys q next) (hn : next ≤ 511) (hw : a.weight + b.weight < 2 ^ 40) :
    AwaitsAt q next (internalNode a b :: out) (i + 1) p ↔
      AwaitsAt (⟨a.weight + b.weight, next⟩ :: q₂) (next + 1) out i p := by
  have ha : a.handle < next := hf.2 a (hp.mem_iff.2 (by simp))
  have hb : b.handle < next := hf.2 b (hp.mem_iff.2 (by simp))
  have hla : (internalNode a b).left.toNat = a.handle := by simp [internalNode]; omega
  have hrb : (internalNode a b).right.toNat = b.handle := by simp [internalNode]; omega
  have hwt : (internalNode a b).weight.toNat = a.weight + b.weight := by
    simp only [internalNode, BitVec.toNat_ofNat]; omega
  have hk0 : createdKey next (internalNode a b :: out) 0 = ⟨a.weight + b.weight, next⟩ := by simp [createdKey, hwt]
  have hks : ∀ j, createdKey next (internalNode a b :: out) (j + 1) = createdKey (next + 1) out j := fun j => by
    simp only [createdKey, List.getD_cons_succ, Pending.mk.injEq, true_and]; omega
  have hnd : (a.handle :: b.handle :: q₂.map Pending.handle).Nodup := by
    simpa using (hp.map Pending.handle).nodup_iff.1 hf.1
  have hq₂ : ∀ x ∈ q₂, x.handle ≠ a.handle ∧ x.handle ≠ b.handle := fun x hx => by
    simp only [List.nodup_cons, List.mem_cons, List.mem_map] at hnd
    exact ⟨fun e => hnd.1 (.inr ⟨x, hx, e⟩), fun e => hnd.2.1 ⟨x, hx, e⟩⟩
  have hch : (∀ j, j < i + 1 → ((internalNode a b :: out).getD j Node.blank).left.toNat ≠ p.handle ∧
      ((internalNode a b :: out).getD j Node.blank).right.toNat ≠ p.handle) ↔
      (a.handle ≠ p.handle ∧ b.handle ≠ p.handle) ∧
      ∀ j, j < i → (out.getD j Node.blank).left.toNat ≠ p.handle ∧ (out.getD j Node.blank).right.toNat ≠ p.handle := by
    constructor
    · intro h
      have h0 := h 0 (by omega)
      rw [List.getD_cons_zero, hla, hrb] at h0
      exact ⟨h0, fun j hj => by simpa using h (j + 1) (by omega)⟩
    · rintro ⟨h0, h⟩ j hj
      cases j with
      | zero => rw [List.getD_cons_zero, hla, hrb]; exact h0
      | succ j => simpa using h j (by omega)
  simp only [AwaitsAt, hch, List.mem_cons]
  constructor
  · rintro ⟨hsrc, h0, h⟩
    refine ⟨?_, h⟩
    rcases hsrc with hq | ⟨j, hj, e⟩
    · rcases (List.mem_cons.1 (hp.mem_iff.1 hq)) with rfl | hq
      · exact absurd rfl h0.1
      · rcases List.mem_cons.1 hq with rfl | hq
        · exact absurd rfl h0.2
        · exact .inl (.inr hq)
    · cases j with
      | zero => exact .inl (.inl (e.trans hk0))
      | succ j => exact .inr ⟨j, by omega, e.trans (hks j)⟩
  · rintro ⟨hsrc, h⟩
    rcases hsrc with (rfl | hq) | ⟨j, hj, e⟩
    · exact ⟨.inr ⟨0, by omega, hk0.symm⟩, ⟨by simp only; omega, by simp only; omega⟩, h⟩
    · exact ⟨.inl (hp.mem_iff.2 (by simp [hq])), ⟨(hq₂ p hq).1.symm, (hq₂ p hq).2.symm⟩, h⟩
    · refine ⟨.inr ⟨j + 1, by omega, e.trans (hks j).symm⟩, ?_, h⟩
      have : p.handle = next + 1 + j := by rw [e]; rfl
      omega

theorem freshKeys_merge {q q₂ : List Pending} {a b : Pending} {next : Nat} (hp : q.Perm (a :: b :: q₂))
    (hf : FreshKeys q next) (w : Nat) : FreshKeys (⟨w, next⟩ :: q₂) (next + 1) := by
  have hnd : (a.handle :: b.handle :: q₂.map Pending.handle).Nodup := by
    simpa using (hp.map Pending.handle).nodup_iff.1 hf.1
  have hlt : ∀ x ∈ q₂, x.handle < next := fun x hx => hf.2 x (hp.mem_iff.2 (by simp [hx]))
  constructor
  · simp only [List.map_cons, List.nodup_cons]
    refine ⟨?_, (List.nodup_cons.1 (List.nodup_cons.1 hnd).2).2⟩
    simp only [List.mem_map, not_exists, not_and]
    intro x hx e; have := hlt x hx; omega
  · intro p hpm
    rcases List.mem_cons.1 hpm with rfl | h
    · simp
    · have := hlt p h; omega

@[simp] theorem weightSum_nil : weightSum [] = 0 := rfl

@[simp] theorem weightSum_cons (p : Pending) (q : List Pending) : weightSum (p :: q) = p.weight + weightSum q := by
  simp [weightSum]

theorem weightSum_perm {q q' : List Pending} (h : q.Perm q') : weightSum q = weightSum q' :=
  (h.map Pending.weight).sum_eq

/-- Every merge of the loop takes the two smallest of the keys that await a parent at that moment, the smaller as the
left child, and its weight is their exact sum (42_tree.md R98, R101). -/
theorem mergeLoop_order (fuel next : Nat) (q : List Pending) (hlen : q.length ≤ fuel + 1) (hf : FreshKeys q next)
    (hn : next + q.length ≤ 512) (hw : weightSum q < 2 ^ 40) (i : Nat) (hi : i < (mergeLoop fuel next q).length) :
    ∃ a b, AwaitsAt q next (mergeLoop fuel next q) i a ∧ AwaitsAt q next (mergeLoop fuel next q) i b ∧
      a.handle ≠ b.handle ∧
      (∀ p, AwaitsAt q next (mergeLoop fuel next q) i p → a.le p = true) ∧
      (∀ p, AwaitsAt q next (mergeLoop fuel next q) i p → p ≠ a → b.le p = true) ∧
      (mergeLoop fuel next q)[i] = internalNode a b ∧ a.weight + b.weight < 2 ^ 40 := by
  induction fuel generalizing next q i with
  | zero => simp [mergeLoop] at hi
  | succ fuel ih =>
    by_cases h2 : 2 ≤ q.length
    · obtain ⟨a, b, q₂, hp, hmin, hmin', e⟩ := mergeLoop_succ h2 fuel next
      have hsum : weightSum q = a.weight + (b.weight + weightSum q₂) := by
        rw [weightSum_perm hp, weightSum_cons, weightSum_cons]
      have hl : q.length = q₂.length + 2 := by simpa using hp.length_eq
      have hab : a.handle ≠ b.handle := by
        have : (a.handle :: b.handle :: q₂.map Pending.handle).Nodup := by
          simpa using (hp.map Pending.handle).nodup_iff.1 hf.1
        simp only [List.nodup_cons, List.mem_cons, not_or] at this
        exact this.1.1
      cases i with
      | zero =>
        refine ⟨a, b, ?_⟩
        simp only [awaitsAt_zero, e, List.getElem_cons_zero]
        refine ⟨hp.mem_iff.2 (by simp), hp.mem_iff.2 (by simp), hab, hmin, ?_, trivial, by omega⟩
        intro p hq hpa
        exact hmin' p ((List.mem_cons.1 (hp.mem_iff.1 hq)).resolve_left hpa)
      | succ i =>
        have hi' : i < (mergeLoop fuel (next + 1) (⟨a.weight + b.weight, next⟩ :: q₂)).length := by
          rw [e] at hi; simpa using hi
        obtain ⟨a', b', h⟩ := ih (next + 1) (⟨a.weight + b.weight, next⟩ :: q₂) (by simp; omega)
          (freshKeys_merge hp hf _) (by simp; omega) (by rw [weightSum_cons]; simp only; omega) i hi'
        refine ⟨a', b', ?_⟩
        simp only [e, awaitsAt_succ hp hf (by omega) (show a.weight + b.weight < 2 ^ 40 by omega),
          List.getElem_cons_succ]
        exact h
    · rw [mergeLoop_short (by omega)] at hi; simp at hi

/-- When the loop ends, exactly one key awaits a parent, and it carries the total weight (42_tree.md R97, R101). -/
theorem mergeLoop_final (fuel next : Nat) (q : List Pending) (hq : q ≠ []) (hlen : q.length ≤ fuel + 1)
    (hf : FreshKeys q next) (hn : next + q.length ≤ 512) (hw : weightSum q < 2 ^ 40) :
    ∃ r, r.weight = weightSum q ∧
      ∀ p, AwaitsAt q next (mergeLoop fuel next q) (mergeLoop fuel next q).length p ↔ p = r := by
  induction fuel generalizing next q with
  | zero =>
    match q, hq with
    | [p], _ => exact ⟨p, by simp, fun p' => by simp [mergeLoop, awaitsAt_zero]⟩
    | _ :: _ :: _, _ => simp at hlen
  | succ fuel ih =>
    by_cases h2 : 2 ≤ q.length
    · obtain ⟨a, b, q₂, hp, -, -, e⟩ := mergeLoop_succ h2 fuel next
      have hsum : weightSum q = a.weight + (b.weight + weightSum q₂) := by
        rw [weightSum_perm hp, weightSum_cons, weightSum_cons]
      have hl : q.length = q₂.length + 2 := by simpa using hp.length_eq
      obtain ⟨r, hr, h⟩ := ih (next + 1) (⟨a.weight + b.weight, next⟩ :: q₂) (by simp) (by simp; omega)
        (freshKeys_merge hp hf _) (by simp; omega) (by rw [weightSum_cons]; simp only; omega)
      refine ⟨r, by rw [weightSum_cons] at hr; simp only at hr; omega, fun p => ?_⟩
      rw [e, List.length_cons, awaitsAt_succ hp hf (by omega) (by omega)]
      exact h p
    · match q, hq with
      | [p], _ =>
        rw [mergeLoop_short (by simp)]
        exact ⟨p, by simp, fun p' => by simp [awaitsAt_zero]⟩
      | _ :: _ :: _, _ => simp at h2

/-! ## The leaves' keys -/

theorem pendingFrom_eq (k : Nat) (ls : List Node) :
    pendingFrom k ls = (ls.zipIdx k).map (fun x => ⟨x.1.weight.toNat, x.2⟩) := by
  induction ls generalizing k with
  | nil => rfl
  | cons n ls ih => simp [pendingFrom, ih]

@[simp] theorem length_pendingFrom (k : Nat) (ls : List Node) : (pendingFrom k ls).length = ls.length := by
  simp [pendingFrom_eq]

theorem freshKeys_pendingFrom (ls : List Node) : FreshKeys (pendingFrom 0 ls) ls.length := by
  have e : (pendingFrom 0 ls).map Pending.handle = List.range ls.length := by
    rw [pendingFrom_eq, List.map_map]
    simp [Function.comp_def, List.zipIdx_map_snd, List.range_eq_range']
  refine ⟨by rw [e]; exact List.nodup_range, fun p hp => ?_⟩
  have : p.handle ∈ (pendingFrom 0 ls).map Pending.handle := List.mem_map_of_mem hp
  rw [e] at this
  simpa using this

theorem weightSum_pendingFrom (k : Nat) (ls : List Node) :
    weightSum (pendingFrom k ls) = (ls.map (fun n => n.weight.toNat)).sum := by
  induction ls generalizing k with
  | nil => rfl
  | cons n ls ih => simp [pendingFrom, ih]

/-- The size of a tree of `n` leaves (42_tree.md R100). -/
theorem length_treeOver (ls : List Node) : (treeOver ls).length = ls.length + (ls.length - 1) := by
  rw [treeOver, List.length_append, length_mergeLoop _ _ _ (by simp), length_pendingFrom]

/-! ## From lists to the arena -/

/-- The present symbols are as many as `presentCount` says (10_state.md R31, R45). -/
theorem length_presentSymbols (s : State) : s.presentSymbols.length = presentCount s := by
  have hn : s.presentSymbols.Nodup := nodup_allSymbols.filter _
  rw [← List.toFinset_card_of_nodup hn, presentCount]
  congr 1
  ext sym
  simp [mem_presentSymbols]

theorem presentCount_le (s : State) : presentCount s ≤ 256 := by
  rw [← length_presentSymbols]
  exact (List.length_filter_le _ _).trans (by simp [allSymbols, Config.alphabet])

@[simp] theorem length_leafNodes (s : State) : s.leafNodes.length = presentCount s := by
  rw [State.leafNodes, List.length_map, length_presentSymbols]

/-- An entry of the tree BUILD makes is the entry of its list of nodes (42_tree.md R97). -/
theorem nodeAt_built (s : State) {h : Nat} (hh : h < (treeOver s.leafNodes).length) :
    s.built.nodeAt h = (treeOver s.leafNodes)[h] := by
  have hl := length_treeOver s.leafNodes
  have hp := presentCount_le s
  rw [length_leafNodes] at hl
  have e : (BitVec.ofNat 9 h).toNat = h := by simp; omega
  show (s.commitTree (treeOver s.leafNodes)).node (BitVec.ofNat 9 h) = _
  rw [node_commitTree _ _ _ (by omega), e, List.getElem?_eq_getElem hh, Option.getD_some]

/-- NODES after BUILD, as a number (42_tree.md R100). -/
theorem toNat_nodes_built (s : State) : s.built.nodes.toNat = presentCount s + (presentCount s - 1) := by
  have hp := presentCount_le s
  show (BitVec.ofNat 9 (treeOver s.leafNodes).length).toNat = _
  rw [length_treeOver, length_leafNodes, BitVec.toNat_ofNat]
  omega

/-- ROOT after BUILD, as a number (42_tree.md R100). -/
theorem toNat_root_built (s : State) : s.built.root.toNat = presentCount s + (presentCount s - 1) - 1 := by
  have hp := presentCount_le s
  show (BitVec.ofNat 9 ((treeOver s.leafNodes).length - 1)).toNat = _
  rw [length_treeOver, length_leafNodes, BitVec.toNat_ofNat]
  omega

end Sys2Proof.Machine
end

