-- ==== Sys2Proof/Laws/Optimality.lean ====
section
/-! SUPPORT. The minimum-weight merge against any lengths that satisfy Kraft's inequality (42_tree.md R102, 93 item G1):
an exchange argument on lists of (weight, length) pairs. -/

namespace Sys2Proof.Machine

open Sys2Proof

/-- The weighted length of a list of (weight, length) pairs. -/
def weightedLength (l : List (Nat × Nat)) : Nat := (l.map (fun x => x.1 * x.2)).sum

/-- Kraft's sum of the lengths, scaled by 2^K. -/
def kraftSum (K : Nat) (l : List (Nat × Nat)) : Nat := (l.map (fun x => 2 ^ (K - x.2))).sum

@[simp] theorem weightedLength_cons (x : Nat × Nat) (l : List (Nat × Nat)) :
    weightedLength (x :: l) = x.1 * x.2 + weightedLength l := by simp [weightedLength]

@[simp] theorem kraftSum_cons (K : Nat) (x : Nat × Nat) (l : List (Nat × Nat)) :
    kraftSum K (x :: l) = 2 ^ (K - x.2) + kraftSum K l := by simp [kraftSum]

theorem weightedLength_perm {l l' : List (Nat × Nat)} (h : l.Perm l') : weightedLength l = weightedLength l' :=
  (h.map _).sum_eq

theorem kraftSum_perm {K : Nat} {l l' : List (Nat × Nat)} (h : l.Perm l') : kraftSum K l = kraftSum K l' :=
  (h.map _).sum_eq

theorem exists_max_length {l : List (Nat × Nat)} (h : l ≠ []) : ∃ y ∈ l, ∀ x ∈ l, x.2 ≤ y.2 := by
  induction l with
  | nil => exact absurd rfl h
  | cons z l ih =>
    by_cases hl : l = []
    · subst hl; exact ⟨z, by simp, by simp⟩
    · obtain ⟨y, hy, hmax⟩ := ih hl
      by_cases hz : z.2 ≤ y.2
      · exact ⟨y, by simp [hy], fun x hx => (List.mem_cons.1 hx).elim (fun e => e ▸ hz) (hmax x)⟩
      · exact ⟨z, by simp, fun x hx => (List.mem_cons.1 hx).elim (fun e => e ▸ le_rfl)
          (fun hx => (hmax x hx).trans (by omega))⟩

/-- A smallest weight may take a greatest length: the lengths are rearranged, the weighted length does not grow. -/
theorem give_longest {l : List (Nat × Nat)} {ws : List Nat} {a : Nat} (hw : (l.map Prod.fst).Perm (a :: ws))
    (hmin : ∀ w ∈ ws, a ≤ w) (K : Nat) :
    ∃ m r, (r.map Prod.fst).Perm ws ∧ (∀ x ∈ r, x.2 ≤ m) ∧ (∀ B, (∀ x ∈ l, x.2 ≤ B) → m ≤ B) ∧
      kraftSum K ((a, m) :: r) = kraftSum K l ∧ weightedLength ((a, m) :: r) ≤ weightedLength l := by
  obtain ⟨⟨a', la⟩, hxa, rfl⟩ := List.mem_map.1 (hw.mem_iff.2 (List.mem_cons_self ..))
  have hp := List.perm_cons_erase hxa
  set r₀ := l.erase (a', la) with hr₀
  have hwr : (r₀.map Prod.fst).Perm ws := by
    have := (hp.map Prod.fst).symm.trans hw
    simpa using this
  obtain ⟨⟨wy, m⟩, hy, hmax⟩ := exists_max_length (l := l) (by rintro rfl; simp at hxa)
  rcases List.mem_cons.1 (hp.mem_iff.1 hy) with e | hy'
  · obtain ⟨rfl, rfl⟩ := Prod.mk.injEq .. ▸ e
    exact ⟨m, r₀, hwr, fun x hx => hmax x (hp.mem_iff.2 (by simp [hx])), fun B hB => hB _ hxa, (kraftSum_perm hp).symm,
      (weightedLength_perm hp).ge⟩
  · have hp' := List.perm_cons_erase hy'
    set r₁ := r₀.erase (wy, m) with hr₁
    have hay : a' ≤ wy := hmin wy (hwr.mem_iff.1 (List.mem_map.2 ⟨_, hy', rfl⟩))
    have hlm : la ≤ m := hmax _ hxa
    refine ⟨m, (wy, la) :: r₁, ?_, ?_, fun B hB => hB _ hy, ?_, ?_⟩
    · have := hp'.map Prod.fst
      exact this.symm.trans hwr
    · intro x hx
      rcases List.mem_cons.1 hx with rfl | hx
      · exact hlm
      · exact hmax x (hp.mem_iff.2 (by simp [hp'.mem_iff.2 (List.mem_cons_of_mem _ hx)]))
    · rw [kraftSum_perm hp, kraftSum_cons, kraftSum_cons, kraftSum_cons, kraftSum_perm hp', kraftSum_cons]; simp only; omega
    · rw [weightedLength_perm hp, weightedLength_cons, weightedLength_cons, weightedLength_cons,
        weightedLength_perm hp', weightedLength_cons]
      obtain ⟨d, rfl⟩ := Nat.exists_eq_add_of_le hay
      obtain ⟨e, rfl⟩ := Nat.exists_eq_add_of_le hlm
      simp only
      nlinarith [Nat.zero_le (d * e)]

/-- The longest length may be cut to the second longest: Kraft's sum keeps its bound. -/
theorem cut_longest {K m m' : Nat} {r : List (Nat × Nat)} (hr : ∀ x ∈ r, x.2 ≤ m') (hm : m' ≤ m) (hK : m ≤ K)
    (a b : Nat) (h : kraftSum K ((a, m) :: (b, m') :: r) ≤ 2 ^ K) :
    kraftSum K ((a, m') :: (b, m') :: r) ≤ 2 ^ K := by
  simp only [kraftSum_cons] at *
  rcases hm.eq_or_lt with rfl | hlt
  · exact h
  · have hD : ∀ l : List (Nat × Nat), (∀ x ∈ l, x.2 ≤ m') → 2 ^ (K - m') ∣ kraftSum K l := by
      intro l hl
      induction l with
      | nil => simp [kraftSum]
      | cons x l ih =>
        rw [kraftSum_cons]
        exact Nat.dvd_add (Nat.pow_dvd_pow 2 (by have := hl x (by simp); omega)) (ih fun y hy => hl y (by simp [hy]))
    obtain ⟨c, hc⟩ := hD r hr
    have h2 : 2 ^ K = 2 ^ (K - m') * 2 ^ m' := by rw [← pow_add]; congr 1; omega
    have hpos : 0 < 2 ^ (K - m) := Nat.pow_pos (by omega)
    rw [hc, h2] at h ⊢
    have : 1 + c < 2 ^ m' := by
      by_contra hcon
      have : 2 ^ (K - m') * 2 ^ m' ≤ 2 ^ (K - m') * (1 + c) := Nat.mul_le_mul_left _ (by omega)
      rw [Nat.mul_add] at this
      omega
    calc 2 ^ (K - m') + (2 ^ (K - m') + 2 ^ (K - m') * c) = 2 ^ (K - m') * (2 + c) := by ring
      _ ≤ 2 ^ (K - m') * 2 ^ m' := Nat.mul_le_mul_left _ (by omega)

/-- The total weight of the nodes the merge loop makes. -/
def mergeCost (ns : List Node) : Nat := (ns.map (fun n => n.weight.toNat)).sum

/-- The merge loop's cost is at most the weighted length of any lengths that satisfy Kraft's inequality. -/
theorem mergeCost_le (fuel next : Nat) (q : List Pending) (hw : weightSum q < 2 ^ 40) (l : List (Nat × Nat))
    (hl : (l.map Prod.fst).Perm (q.map Pending.weight)) (K : Nat) (hK : ∀ x ∈ l, x.2 ≤ K) (hk : kraftSum K l ≤ 2 ^ K) :
    mergeCost (mergeLoop fuel next q) ≤ weightedLength l := by
  induction fuel generalizing next q l with
  | zero => simp [mergeLoop, mergeCost]
  | succ fuel ih =>
    by_cases h2 : 2 ≤ q.length
    · obtain ⟨a, b, q₂, hp, hmin, hmin', e⟩ := mergeLoop_succ h2 fuel next
      have hsum : weightSum q = a.weight + (b.weight + weightSum q₂) := by
        rw [weightSum_perm hp, weightSum_cons, weightSum_cons]
      have hle : ∀ x ∈ b :: q₂, a.weight ≤ x.weight := fun x hx => by
        have := (Pending.le_iff a x).1 (hmin x (hp.mem_iff.2 (List.mem_cons_of_mem _ hx))); omega
      have hle' : ∀ x ∈ q₂, b.weight ≤ x.weight := fun x hx => by
        have := (Pending.le_iff b x).1 (hmin' x (List.mem_cons_of_mem _ hx)); omega
      obtain ⟨m, r, hr, hrm, hmK, hkr, hwl⟩ := give_longest (K := K) (l := l) (a := a.weight)
        (ws := (b :: q₂).map Pending.weight) (hl.trans (hp.map Pending.weight)) (by
          intro w hw; obtain ⟨x, hx, rfl⟩ := List.mem_map.1 hw; exact hle x hx)
      obtain ⟨m', r', hr', hrm', hmK', hkr', hwl'⟩ := give_longest (K := K) (l := r) (a := b.weight)
        (ws := q₂.map Pending.weight) hr (by
          intro w hw; obtain ⟨x, hx, rfl⟩ := List.mem_map.1 hw; exact hle' x hx)
      have hm : m ≤ K := hmK K hK
      have hm'm : m' ≤ m := hmK' m hrm
      have hcut := cut_longest (a := a.weight) (b := b.weight) hrm' hm'm hm (by
        rw [kraftSum_cons, hkr', ← kraftSum_cons K (a.weight, m) r, hkr]; exact hk)
      have hpos : 1 ≤ m' := by
        by_contra h0
        have : m' = 0 := by omega
        subst this
        simp only [kraftSum_cons, Nat.sub_zero] at hcut
        have : 0 < 2 ^ K := Nat.pow_pos (by omega)
        omega
      have hstep := ih (next + 1) (⟨a.weight + b.weight, next⟩ :: q₂) (by rw [weightSum_cons]; simp only; omega)
        ((a.weight + b.weight, m' - 1) :: r') (by simpa using hr') (by
          intro x hx
          rcases List.mem_cons.1 hx with rfl | hx
          · simp only; omega
          · exact (hrm' x hx).trans (hm'm.trans hm)) (by
          simp only [kraftSum_cons] at hcut ⊢
          have : 2 ^ (K - (m' - 1)) = 2 * 2 ^ (K - m') := by
            rw [show K - (m' - 1) = K - m' + 1 by omega, pow_succ]; ring
          omega)
      have hwt : (internalNode a b).weight.toNat = a.weight + b.weight := by
        simp only [internalNode, BitVec.toNat_ofNat]; omega
      rw [e, mergeCost, List.map_cons, List.sum_cons, hwt]
      simp only [weightedLength_cons, mergeCost] at *
      obtain ⟨d, rfl⟩ := Nat.exists_eq_add_of_le hpos
      obtain ⟨c, rfl⟩ := Nat.exists_eq_add_of_le hm'm
      simp only [Nat.add_sub_cancel_left] at hstep
      nlinarith [Nat.zero_le (a.weight * c)]
    · rw [mergeLoop_short (by omega)]; simp [mergeCost]

end Sys2Proof.Machine
end

