-- ==== Sys2Proof/Laws/PerInstr.lean ====
section
/-! SUPPORT. One lemma per command about its word: RSVD is 0 and the OPCODE is assigned (30_encoding.md R82, R84). -/

namespace Sys2Proof.Laws.CommandWord

open Sys2Proof

/-- The word of a well-formed command is a legal command word. -/
def Statement (i : Instr) : Prop := i.wf = true ∧ commandWordWf (Sys2Proof.encode i) = true

theorem nop : Statement .nop := ⟨rfl, rfl⟩
theorem clear : Statement .clear := ⟨rfl, rfl⟩
theorem count : Statement .count := ⟨rfl, rfl⟩
theorem build : Statement .build := ⟨rfl, rfl⟩
theorem gencodes : Statement .gencodes := ⟨rfl, rfl⟩
theorem encode : Statement .encode := ⟨rfl, rfl⟩
theorem decode : Statement .decode := ⟨rfl, rfl⟩
theorem encodeAll : Statement .encodeAll := ⟨rfl, rfl⟩

end Sys2Proof.Laws.CommandWord
end

