-- ==== Sys2Proof/Laws/Step.lean ====
section
/-! SUPPORT. What the shared end of a command, a command and a step can answer. -/

namespace Sys2Proof.Machine

open Sys2Proof

/-- A command ends in a next state: all of its writes committed, or none (60_exceptions.md R121, R128). -/
theorem conclude_cases (s : State) (r : Except CmdError State) :
    (∃ s', r = .ok s' ∧ conclude s r = .next s'.succeed) ∨ (∃ e, r = .error e ∧ conclude s r = .next (s.raise e)) := by
  cases r with
  | ok s' => exact .inl ⟨s', rfl, rfl⟩
  | error e => exact .inr ⟨e, rfl, rfl⟩

/-- The pseudocode of each command. -/
def stageOf : Instr → State → Except CmdError State
  | .nop, s => .ok s
  | .clear, s => .ok s.cleared
  | .count, s => countStage s
  | .build, s => buildStage s
  | .gencodes, s => gencodesStage s
  | .encode, s => encodeStage s
  | .decode, s => decodeStage s
  | .encodeAll, s => encodeAllStage s

/-- Every command is its pseudocode followed by the shared end. -/
theorem exec_eq_conclude (i : Instr) (s : State) : exec i s = conclude s (stageOf i s) := by cases i <;> rfl

/-- The one step of the core: a command's pseudocode, or the illegal-command error (60_exceptions.md R121). -/
theorem coreStep_eq_conclude (s : State) :
    coreStep s = conclude s (match decode s.cmd with
      | .ok i => stageOf i s
      | .error _ => .error ⟨.illegalCommand, s.cmd⟩) := by
  unfold coreStep
  cases h : decode s.cmd with
  | ok i => simp [exec_eq_conclude]
  | error r => rfl

/-- Every transition of the machine (60_exceptions.md R121, R127). -/
theorem step_cases {s t : State} (h : step s = .next t) :
    (s.busy = true ∧ s.coreNext ∧ coreStep s.popInput = .next t) ∨
    (s.busy = false ∧ s.coreNext ∧ t = s.popInput) ∨
    (∃ a rest, s.inputs = .read a :: rest ∧ t = s.popInput.hostRead a) ∨
    (∃ a v rest, s.inputs = .write a v :: rest ∧ t = s.popInput.hostWrite a v) ∨
    (∃ rest, s.inputs = .reset :: rest ∧ t = s.popInput.applyReset) := by
  have hturn : ∀ u : State, u = s.popInput → s.coreNext → coreTurn u = .next t →
      (s.busy = true ∧ s.coreNext ∧ coreStep s.popInput = .next t) ∨
      (s.busy = false ∧ s.coreNext ∧ t = s.popInput) := by
    rintro u rfl hc hu
    unfold coreTurn at hu
    by_cases hb : s.busy = true
    · exact .inl ⟨hb, hc, by simpa [State.popInput, hb] using hu⟩
    · refine .inr ⟨by simpa using hb, hc, ?_⟩
      simp only [State.popInput_busy, hb] at hu
      injection hu with e; exact e.symm
  unfold step at h
  split at h
  · rename_i hi
    have : s = s.popInput := by cases s; simp only at hi; subst hi; rfl
    rcases hturn s this (.inl hi) h with h | h
    · exact .inl h
    · exact .inr (.inl h)
  · rename_i rest hi
    have : { s with inputs := rest } = s.popInput := by simp [State.popInput, hi]
    rcases hturn _ this (.inr (by simp [hi])) h with h | h
    · exact .inl h
    · exact .inr (.inl h)
  · rename_i a rest hi
    injection h with e
    exact .inr (.inr (.inl ⟨a, rest, hi, by rw [← e]; simp [State.popInput, hi]⟩))
  · rename_i a v rest hi
    injection h with e
    exact .inr (.inr (.inr (.inl ⟨a, v, rest, hi, by rw [← e]; simp [State.popInput, hi]⟩)))
  · rename_i rest hi
    injection h with e
    exact .inr (.inr (.inr (.inr ⟨rest, hi, by rw [← e]; simp [State.popInput, hi]⟩)))

/-- A host read leaves the block as it is: only the answer and the count of draws move (20_memory.md R73). -/
theorem hostRead_cases (s : State) (x : Access) :
    s.hostRead x = { s with response := .busError } ∨
    ∃ t, x.target = .ok t ∧
      s.hostRead x = { s with response := .data (s.readTarget x.offset t), draws := s.draws + 1 } := by
  unfold State.hostRead
  cases h : x.target with
  | ok t => exact .inr ⟨t, rfl, rfl⟩
  | error f => exact .inl rfl

/-- A host write is refused with a bus error, or the block is idle and the target is written (20_memory.md R64, R66). -/
theorem hostWrite_cases (s : State) (x : Access) (v : Word) :
    s.hostWrite x v = { s with response := .busError } ∨
    ∃ t, x.target = .ok t ∧ s.busy = false ∧ s.hostWrite x v = { s.writeTarget v t with response := .ok } := by
  unfold State.hostWrite State.writeTarget?
  cases h : x.target with
  | error f => exact .inl rfl
  | ok t =>
    cases hb : s.busy with
    | true => exact .inl rfl
    | false => exact .inr ⟨t, rfl, rfl, rfl⟩

end Sys2Proof.Machine
end

