-- ==== Sys2Proof/Laws/WeightedDepth.lean ====
section
/-! SUPPORT. Counting along the edges of a held tree: the weighted depth of its leaves is the total weight of its
internal nodes (42_tree.md R101, R102). -/

namespace Sys2Proof.Machine

open Sys2Proof

/-- The child of entry `p` that bit `b` reaches. -/
def State.childAt (s : State) (p : Nat) (b : Bool) : Nat :=
  if b then (s.nodeAt p).right.toNat else (s.nodeAt p).left.toNat

theorem isChild_childAt (s : State) (p : Nat) (b : Bool) : s.isChild p (s.childAt p b) := by
  cases b <;> simp [State.isChild, State.childAt]

section
variable {s : State} {n : Nat} (T : TreeShape s n)
include T

/-- Each entry but the root is summed once, at its parent (10_state.md R48). -/
theorem TreeShape.sum_children (g : Nat → Nat) :
    ∑ p ∈ Finset.Ico n (2 * n - 1), (g (s.childAt p false) + g (s.childAt p true)) =
      ∑ h ∈ Finset.range (2 * n - 2), g h := by
  have hpos := T.leaves_pos
  have e : ∀ p, g (s.childAt p false) + g (s.childAt p true) =
      ∑ b ∈ ({false, true} : Finset Bool), g (s.childAt p b) := fun p => by simp
  simp only [e]
  rw [← Finset.sum_product']
  refine Finset.sum_nbij (fun x => s.childAt x.1 x.2) ?_ ?_ ?_ (fun _ _ => rfl)
  · rintro ⟨p, b⟩ hx
    simp only [Finset.mem_product, Finset.mem_Ico, Finset.mem_range] at hx ⊢
    have := T.child_lt p hx.1.2 hx.1.1
    cases b <;> simp [State.childAt] <;> omega
  · rintro ⟨p, b⟩ hx ⟨q, c⟩ hy hxy
    simp only [Finset.coe_product, Set.mem_prod, Finset.mem_coe, Finset.mem_Ico] at hx hy hxy
    have hp := T.child_lt p hx.1.2 hx.1.1
    have hlt : s.childAt p b < p := by cases b <;> simp [State.childAt] <;> omega
    obtain ⟨w, -, -, -, hu⟩ := T.one_parent (s.childAt p b) (by omega)
    have e1 := hu p hx.1.2 hx.1.1 (isChild_childAt s p b)
    have e2 := hu q hy.1.2 hy.1.1 (hxy ▸ isChild_childAt s q c)
    have : p = q := e1.trans e2.symm
    subst this
    have hne : (s.nodeAt p).left.toNat ≠ (s.nodeAt p).right.toNat := fun h => hp.2.2 (BitVec.eq_of_toNat_eq h)
    have hbc : b = c := by
      cases b <;> cases c <;> simp only [State.childAt, if_true, Bool.false_eq_true, if_false] at hxy <;>
        first | rfl | exact absurd hxy hne | exact absurd hxy.symm hne
    rw [hbc]
  · intro h hh
    simp only [Finset.coe_range, Set.mem_Iio] at hh
    obtain ⟨p, hp1, hp2, hc, -⟩ := T.one_parent h hh
    have key : ∀ b : Bool, s.childAt p b = h →
        h ∈ (fun x : Nat × Bool => s.childAt x.1 x.2) ''
          ↑(Finset.Ico n (2 * n - 1) ×ˢ ({false, true} : Finset Bool)) := fun b hb =>
      ⟨(p, b), by cases b <;> simp [hp1, hp2], hb⟩
    rcases hc with hc | hc
    · exact key false (by simpa [State.childAt] using hc)
    · exact key true (by simpa [State.childAt] using hc)

/-- The weighted depth of the leaves is the total weight of the internal nodes, for any depth function: 0 at the root,
one more at a child than at its parent. -/
theorem TreeShape.weighted_depth (depth : Nat → Nat) (hroot : depth (2 * n - 2) = 0)
    (hchild : ∀ p, p < 2 * n - 1 → n ≤ p → ∀ b, depth (s.childAt p b) = depth p + 1) :
    ∑ h ∈ Finset.range n, (s.nodeAt h).weight.toNat * depth h =
      ∑ p ∈ Finset.Ico n (2 * n - 1), (s.nodeAt p).weight.toNat := by
  have hpos := T.leaves_pos
  have h1 := T.sum_children (fun h => (s.nodeAt h).weight.toNat * depth h)
  have h2 : ∑ p ∈ Finset.Ico n (2 * n - 1), ((s.nodeAt (s.childAt p false)).weight.toNat * depth (s.childAt p false) +
      (s.nodeAt (s.childAt p true)).weight.toNat * depth (s.childAt p true)) =
      ∑ p ∈ Finset.Ico n (2 * n - 1), ((s.nodeAt p).weight.toNat * depth p + (s.nodeAt p).weight.toNat) := by
    refine Finset.sum_congr rfl fun p hp => ?_
    rw [Finset.mem_Ico] at hp
    rw [hchild p hp.2 hp.1, hchild p hp.2 hp.1, T.weight_eq p hp.2 hp.1]
    simp only [State.childAt, if_true, Bool.false_eq_true, if_false]
    ring
  have h3 : ∑ h ∈ Finset.range (2 * n - 2), (s.nodeAt h).weight.toNat * depth h =
      ∑ h ∈ Finset.range (2 * n - 1), (s.nodeAt h).weight.toNat * depth h := by
    rw [show 2 * n - 1 = 2 * n - 2 + 1 by omega, Finset.sum_range_succ, hroot]; simp
  have h4 : ∑ h ∈ Finset.range (2 * n - 1), (s.nodeAt h).weight.toNat * depth h =
      ∑ h ∈ Finset.range n, (s.nodeAt h).weight.toNat * depth h +
      ∑ p ∈ Finset.Ico n (2 * n - 1), (s.nodeAt p).weight.toNat * depth p := by
    rw [Finset.range_eq_Ico, ← Finset.sum_Ico_consecutive _ (Nat.zero_le n) (show n ≤ 2 * n - 1 by omega),
      ← Finset.range_eq_Ico]
  have h5 := Finset.sum_add_distrib (s := Finset.Ico n (2 * n - 1))
    (f := fun p => (s.nodeAt p).weight.toNat * depth p) (g := fun p => (s.nodeAt p).weight.toNat)
  omega

end

end Sys2Proof.Machine
end

