-- ==== Sys2Proof/Tests/Slice0.lean ====
section
/-! SUPPORT. Tests of the model against words, examples and vectors of the spec (95_test_vectors.md), the smoke test of
WellFormed, and a witness for the hypotheses of each statement. -/

namespace Sys2Proof.Tests

open Sys2Proof Sys2Proof.Machine

set_option Elab.async false

/-! ## Well-formedness refuses ill-formed terms -/

theorem test_wf_refuses_reserved_bits : commandWordWf 0x00000100#32 = false := by decide
theorem test_wf_refuses_reserved_opcode : commandWordWf 0x00000008#32 = false := by decide
theorem test_wf_refuses_size_not_multiple_of_4 : bufferSizesWf 6 8 4 = false := by decide
theorem test_wf_refuses_size_zero : bufferSizesWf 4 8 0 = false := by decide
theorem test_wf_refuses_size_above_window : bufferSizesWf 4 65540 4 = false := by decide
theorem test_wf_refuses_payload_smaller_than_input : bufferSizesWf 8 4 4 = false := by decide
theorem test_wf_accepts_this_hardware :
    bufferSizesWf Config.ibufBytes Config.pbufBytes Config.obufBytes = true := by decide

/-! ## Decoding: OPCODE in bits [7:0], RSVD = 0 in bits [31:8], written out bit by bit (30_encoding.md R82, R84) -/

theorem test_decode_nop : decode 0b00000000_00000000_00000000_00000000#32 = .ok .nop := by rfl
theorem test_decode_clear : decode 0b00000000_00000000_00000000_00000001#32 = .ok .clear := by rfl
theorem test_decode_count : decode 0b00000000_00000000_00000000_00000010#32 = .ok .count := by rfl
theorem test_decode_build : decode 0b00000000_00000000_00000000_00000011#32 = .ok .build := by rfl
theorem test_decode_gencodes : decode 0b00000000_00000000_00000000_00000100#32 = .ok .gencodes := by rfl
theorem test_decode_encode : decode 0b00000000_00000000_00000000_00000101#32 = .ok .encode := by rfl
theorem test_decode_decode : decode 0b00000000_00000000_00000000_00000110#32 = .ok .decode := by rfl
theorem test_decode_encode_all : decode 0b00000000_00000000_00000000_00000111#32 = .ok .encodeAll := by rfl
theorem test_decode_rejects_reserved_bit : decode 0b10000000_00000000_00000000_00000001#32 = .error .reservedBits := by
  rfl
theorem test_decode_rejects_opcode_8 : decode 0b00000000_00000000_00000000_00001000#32 = .error .reservedOpcode := by
  rfl

/-! ## Small states -/

/-- What is read from a next state. -/
def after {α : Type} (o : Host.Outcome State Fault Refusal) (f : State → α) : Option α :=
  match o with
  | .next t => some (f t)
  | .fault _ => none
  | .refused _ => none

/-- The state after reset with events lined up. -/
def withInputs (ins : List Input) : State := { State.reset with inputs := ins }

/-- IBUF = "abbcccd", IN_LEN = 7 (95 L1.4). -/
def abbcccd : State :=
  { State.reset with
    mem := cellsFrom ibufBase [0x61#8, 0x62#8, 0x62#8, 0x63#8, 0x63#8, 0x63#8, 0x64#8]
    inLen := 7#32 }

/-- The counters of "abbcccd". -/
def counted (s : State) : State := (((s.setFreq 0x61 1).setFreq 0x62 2).setFreq 0x63 3).setFreq 0x64 1

/-- A leaf and an internal node, as 95 writes them. -/
def lf (sym : Byte) (w : Weight) : Node := ⟨true, sym, w, 0, 0⟩
def nd (l r : Handle) (w : Weight) : Node := ⟨false, 0, w, l, r⟩

/-- The tree of "abbcccd" (95 L2.3 row 4). -/
def tree4 : State := (counted abbcccd).commitTree
  [lf 0x61 1, lf 0x62 2, lf 0x63 3, lf 0x64 1, nd 0 3 2, nd 1 4 4, nd 2 5 7]

/-- The tree of "ab" (95 L2.3 row 3). -/
def tree2 : State := State.reset.commitTree [lf 0x61 1, lf 0x62 1, nd 0 1 2]

/-- The tree of "aaaa" (95 L2.3 row 2). -/
def tree1 : State := State.reset.commitTree [lf 0x61 4]

/-- The empty tree (95 L2.3 row 1). -/
def tree0 : State := State.reset.commitTree []

/-- The codes of "abbcccd" (95 L2.4 row 4). -/
def coded4 : State := tree4.commitCodes (codeTable tree4.treeCodes)

/-- A held payload. -/
def withPayload (s : State) (bytes : List Byte) (n : Word) : State :=
  { s with mem := cellsFrom pbufBase bytes, bitLen := n }

/-! ## Commands (one step each; expected values from 95_test_vectors.md) -/

/-- L2.1 row 1. -/
theorem test_nop : after (exec .nop State.reset) (fun t => (t.statusWord, t.err, t.errInfo)) = some (0x02#32, 0#8, 0#32) := by
  decide +kernel
/-- L2.1 row 3. -/
theorem test_clear : after (exec .clear { coded4 with bitLen := 13#32 }) (fun t =>
    (t.statusWord, t.nodes, t.bitLen, t.inLen)) = some (0x02#32, 0#9, 0#32, 7#32) := by decide +kernel

/-- L2.1 row 6: the word 0x00000100 is no NOP. -/
theorem test_illegal : after (coreStep (State.reset.startCommand 0x00000100#32)) (fun t =>
    (t.statusWord, t.err, t.errInfo, t.cmd)) = some (0x06#32, 1#8, 0x00000100#32, 0x00000100#32) := by decide +kernel
/-- L2.2 row 1. -/
theorem test_count : after (exec .count abbcccd) (fun t =>
    (t.freqOf 0x61, t.freqOf 0x62, t.freqOf 0x63, t.freqOf 0x64, t.uniqueWord, t.statusWord)) =
    some (1#32, 2#32, 3#32, 1#32, 4#32, 0x02#32) := by decide +kernel
/-- L2.2 row 6. -/
theorem test_count_length_range : after (exec .count { abbcccd with inLen := 65537#32 }) (fun t =>
    (t.err, t.errInfo, t.uniqueWord, t.statusWord)) = some (4#8, 0x00010001#32, 0#32, 0x06#32) := by decide +kernel
/-- L2.3 row 4. -/
theorem test_build : after (exec .build (counted State.reset)) (fun t =>
    (t.nodes, t.root, [0, 4, 5, 6].map fun h => (t.nodeAt h).left.toNat * 1000 + (t.nodeAt h).right.toNat,
      (t.nodeAt 6).weight)) = some (7#9, 6#9, [0, 3, 1004, 2005], 7#40) := by decide +kernel
/-- L2.3 row 8: no wrap at 32 bits. -/
theorem test_build_wide_weight :
    after (exec .build ((State.reset.setFreq 0 0xFFFFFFFF#32).setFreq 1 0xFFFFFFFF#32)) (fun t =>
      ({ t with nodeSel := 2#9 }.nodeWloWord, { t with nodeSel := 2#9 }.nodeWhiWord,
        { t with nodeSel := 2#9 }.nodeChildWord)) = some (0xFFFFFFFE#32, 0x00000001#32, 0x00010000#32) := by
  decide +kernel
/-- L2.4 row 4: a = 110, b = 10, c = 0, d = 111, read through the windows. -/
theorem test_gencodes : after (exec .gencodes tree4) (fun t =>
    [0x61#8, 0x62#8, 0x63#8, 0x64#8, 0x65#8].map fun sym =>
      ({ t with ctSel := sym }.ctLenWord, { t with ctSel := sym }.ctBitsWord 0)) =
    some [(3#32, 3#32), (2#32, 1#32), (1#32, 0#32), (3#32, 7#32), (0#32, 0#32)] := by decide +kernel
/-- L2.4 row 2: the one-bit code of a single leaf. -/
theorem test_gencodes_single_leaf : after (exec .gencodes tree1) (fun t =>
    ((t.codeOf 0x61).toBits, (t.codeOf 0x62).toBits)) = some ([false], []) := by decide +kernel
/-- L2.5 row 1. -/
theorem test_encode : after (exec .encode coded4) (fun t =>
    (t.mem.get? 0x20000, t.mem.get? 0x20001, t.mem.get? 0x20002, t.bitLen, t.statInBits, t.statOutBits)) =
    some (some 0xD4#8, some 0x38#8, none, 13#32, 56#32, 13#32) := by decide +kernel
/-- L2.5 row 3: the byte 'e' at index 2 has no code. -/
theorem test_encode_unknown_symbol :
    after (exec .encode { coded4 with mem := cellsFrom ibufBase [0x61#8, 0x62#8, 0x65#8], inLen := 3#32 }) (fun t =>
      (t.err, t.errInfo, t.statusWord, t.bitLen)) = some (5#8, 2#32, 0x1E#32, 0#32) := by decide +kernel
/-- L2.6 row 3. -/
theorem test_decode : after (exec .decode (withPayload tree4 [0xD4#8, 0x38#8] 13#32)) (fun t =>
    ((List.range 8).map fun j => t.mem.get? (0x30000 + j), t.outLen)) =
    some ([some 0x61#8, some 0x62#8, some 0x62#8, some 0x63#8, some 0x63#8, some 0x63#8, some 0x64#8, none], 7#32) := by
  decide +kernel
/-- L2.6 row 5: the walk ends inside the tree. -/
theorem test_decode_unfinished : after (exec .decode (withPayload tree4 [0xD4#8, 0x38#8] 12#32)) (fun t =>
    (t.err, t.errInfo, t.outLen, t.mem.get? 0x30000)) = some (7#8, 10#32, 0#32, none) := by decide +kernel
/-- L2.5 row 13: "hello". -/
theorem test_encode_all :
    after (exec .encodeAll { State.reset with
      mem := cellsFrom ibufBase [0x68#8, 0x65#8, 0x6C#8, 0x6C#8, 0x6F#8], inLen := 5#32 }) (fun t =>
      (t.mem.get? 0x20000, t.mem.get? 0x20001, t.bitLen, t.statInBits, t.uniqueWord, t.statusWord)) =
    some (some 0x4F#8, some 0x80#8, 10#32, 40#32, 4#32, 0x1A#32) := by decide +kernel
/-- L2.5 row 18: the empty input. -/
theorem test_encode_all_empty : after (exec .encodeAll State.reset) (fun t =>
    (t.nodes, t.treeValid, t.codesValid, t.bitLen, t.statusWord)) = some (0#9, true, true, 0#32, 0x1A#32) := by
  decide +kernel

/-! ## Host accesses and the step (95 L2.7) -/

/-- ERR, ERR_INFO, OUT_LEN, both statistics, NODES and ROOT at the offsets of 10_state.md R21, each with a value of its own. -/
theorem test_host_reads_results :
    [0x00C, 0x010, 0x020, 0x028, 0x02C, 0x030, 0x034].map (fun a => ({ State.reset with
      err := 1#8, errInfo := 2#32, outLen := 3#32, statInBits := 4#32, statOutBits := 5#32, nodes := 6#9,
      root := 7#9 }.hostRead (.word a)).response) =
    [.data 1#32, .data 2#32, .data 3#32, .data 4#32, .data 5#32, .data 6#32, .data 7#32] := by decide +kernel


/-- Rows 1 and 4: ID, and an unmapped offset. -/
theorem test_host_reads : ((State.reset.hostRead (.word 0x000)).response, (State.reset.hostRead (.word 0x074)).response,
    (State.reset.hostRead (.word 0x002)).response, (State.reset.hostRead ⟨0x018, 2, 0b0011#4⟩).response) =
    (.data 0x48554646#32, .busError, .busError, .busError) := by decide +kernel
/-- Rows 13 and 14. -/
theorem test_host_writes : ((State.reset.hostWrite (.word 0x10000) 0x63626261#32).mem,
    (State.reset.hostWrite (.word 0x584) 7#32).freqOf 0x61,
    ((State.reset.hostWrite (.word 0x584) 7#32).hostRead (.word 0x024)).response) =
    ([(0x10000, 0x61#8), (0x10001, 0x62#8), (0x10002, 0x62#8), (0x10003, 0x63#8)], 7#32, .data 1#32) := by
  decide +kernel
/-- Row 16: reset discards a pending command. -/
theorem test_reset_discards : after (step { abbcccd.startCommand 2#32 with inputs := [.reset] }) (fun t =>
    (t.busy, t.done, t.inLen, t.mem)) = some (false, false, 0#32, []) := by decide +kernel
/-- A command word handed over at reset is the first one performed. -/
theorem test_fetch_word : after (step (State.reset.withFetchWord 32 7)) (fun t =>
    (t.statusWord, t.cmd, t.inputs)) = some (0x1A#32, 7#32, []) := by decide +kernel

/-! ## Witnesses: the hypotheses of each statement are met together -/

/-- Shapes of the small trees, field by field. -/
theorem tree1_shape : TreeShape tree1 1 where
  leaves_pos := by decide
  leaves_le := by decide
  nodes_eq := by decide +kernel
  root_eq := by decide +kernel
  leaf_iff := by decide +kernel
  sym_lt := by decide +kernel
  child_lt := by decide +kernel
  weight_eq := by decide +kernel
  one_parent := by decide +kernel

theorem tree2_shape : TreeShape tree2 2 where
  leaves_pos := by decide
  leaves_le := by decide
  nodes_eq := by decide +kernel
  root_eq := by decide +kernel
  leaf_iff := by decide +kernel
  sym_lt := by decide +kernel
  child_lt := by decide +kernel
  weight_eq := by decide +kernel
  one_parent := by decide +kernel

theorem tree4_shape : TreeShape tree4 4 where
  leaves_pos := by decide
  leaves_le := by decide
  nodes_eq := by decide +kernel
  root_eq := by decide +kernel
  leaf_iff := by decide +kernel
  sym_lt := by decide +kernel
  child_lt := by decide +kernel
  weight_eq := by decide +kernel
  one_parent := by decide +kernel

theorem tree1_valid : tree1.treeValid = true := rfl
theorem tree2_valid : tree2.treeValid = true := rfl
theorem tree4_valid : tree4.treeValid = true := rfl

/-- Paths of the tree of "abbcccd" (95 L1.4): c = 0, a = 110. -/
theorem tree4_path_c : PathTo tree4 [false] 2 :=
  (pathTo_iff _ _ _).2 ⟨by decide +kernel, by decide +kernel, by decide +kernel⟩
theorem tree4_path_a : PathTo tree4 [true, true, false] 0 :=
  (pathTo_iff _ _ _).2 ⟨by decide +kernel, by decide +kernel, by decide +kernel, by decide +kernel, by decide +kernel⟩
theorem tree2_path_a : PathTo tree2 [false] 0 :=
  (pathTo_iff _ _ _).2 ⟨by decide +kernel, by decide +kernel, by decide +kernel⟩

theorem witness_IllegalWordsRaiseIllegalCommand :
    (0x00000100#32).extractLsb' 8 24 ≠ 0#24 ∧ (0x00000008#32).extractLsb' 8 24 = 0#24 ∧
    0x08 ≤ ((0x00000008#32).extractLsb' 0 8).toNat ∧ (0x00000007#32).extractLsb' 8 24 = 0#24 ∧
    ((0x00000007#32).extractLsb' 0 8).toNat ≤ 0x07 ∧ (State.reset.startCommand 0x00000008#32).cmd = 0x00000008#32 := by
  decide

theorem witness_EncodeDecodeAgree : Instr.encodeAll.wf = true ∧ commandWordWf 0x00000007#32 = true := by decide

theorem witness_StepRunsLatchedCommand :
    (State.reset.startCommand 7#32).busy = true ∧ (State.reset.startCommand 7#32).coreNext ∧
    decode (State.reset.startCommand 7#32).cmd = .ok .encodeAll ∧
    { State.reset.startCommand 8#32 with inputs := [.core] }.coreNext ∧
    decode (State.reset.startCommand 8#32).cmd = .error .reservedOpcode ∧
    (withInputs [.core, .reset]).busy = false ∧ (withInputs [.core, .reset]).coreNext :=
  ⟨rfl, .inl rfl, rfl, .inr rfl, rfl, rfl, .inr rfl⟩

theorem witness_HandedOverWordRunsNext : Instr.build.wf = true := rfl

theorem witness_CmdWriteStartsCommand :
    (withInputs [.write (.word 0x004) 2#32]).inputs = .write (.word 0x004) 2#32 :: [] ∧
    (withInputs [.write (.word 0x004) 2#32]).busy = false ∧ (State.reset.startCommand 1#32).busy = true ∧
    decode 2#32 = .ok .count ∧ decode 8#32 = .error .reservedOpcode ∧
    after (step (withInputs [.write (.word 0x004) 2#32])) State.busy = some true := by decide +kernel

/-- One access for each clause: misaligned, partial, not decoded, busy write, accepted. -/
theorem witness_BusErrorConditions :
    State.reset.writeTarget? (.word 0x002) = .error .misaligned ∧
    State.reset.writeTarget? ⟨0x018, 1, 0b0001#4⟩ = .error .partialAccess ∧
    State.reset.writeTarget? (.word 0x074) = .error .notDecoded ∧
    (State.reset.startCommand 1#32).writeTarget? (.word 0x018) = .error .busyWrite ∧
    State.reset.writeTarget? (.word 0x3FFFC) = .ok (.buffer 0x3FFFC) ∧
    (withInputs [.read (.word 0x000)]).inputs = .read (.word 0x000) :: [] := by decide +kernel

/-- The offsets where the clauses meet: 0x070, 0x400, 0x7FC, 0x10000, 0x3FFFC are mapped, 0x074, 0x3FC, 0x800, 0xFFFC,
0x40000 are not. -/
theorem witness_MappedOffset : MappedOffset 0x070 ∧ MappedOffset 0x400 ∧ MappedOffset 0x7FC ∧ MappedOffset 0x10000 ∧
    MappedOffset 0x3FFFC ∧ ¬MappedOffset 0x074 ∧ ¬MappedOffset 0x3FC ∧ ¬MappedOffset 0x800 ∧ ¬MappedOffset 0xFFFC ∧
    ¬MappedOffset 0x40000 := by simp only [MappedOffset]; omega

theorem witness_ReadReturnsValueOrDraw :
    0x008 % 4 = 0 ∧ (withInputs [.read (.word 0x008)]).inputs = .read (.word 0x008) :: [] ∧
    (withInputs [.read (.word 0x008)]).busy = false ∧ regAt 0x008 = some .status ∧
    regAt (0x400 + 4 * (255#8).toNat) = some (.freq 255#8) ∧ regAt 0x10000 = none ∧
    ((withInputs [.read (.word 0x034)]).inputs = .read (.word 0x034) :: [] ∧ (withInputs [.read (.word 0x034)]).busy = false) ∧
    { State.reset.startCommand 1#32 with inputs := [.read (.word 0x01C)] }.busy = true := by decide +kernel

theorem witness_NodeWindowsShowEntry :
    State.reset.nodes.toNat ≤ State.reset.nodeSel.toNat ∧ tree4.nodeSel.toNat < tree4.nodes.toNat ∧
    (tree4.node tree4.nodeSel).leaf = true ∧ ({ tree4 with nodeSel := 6#9 }.node 6#9).leaf = false := by decide +kernel

/-- Every clause of the write statement at an offset of its own; the RO one at ERR. -/
theorem witness_HostWriteEffects :
    (withInputs [.write (.word 0x00C) 0#32]).busy = false ∧ regAt 0x00C = some .err ∧ Reg.err.accessType = .ro ∧
    [regAt 0x004, regAt 0x008, regAt 0x014, regAt 0x018, regAt 0x01C, regAt 0x038, regAt 0x04C] =
      [some .cmd, some .status, some .irqEn, some .inLen, some .bitLen, some .nodeSel, some .ctSel] ∧
    [regAt 0x000, regAt 0x034, regAt 0x070] = [some .id, some .root, some (.ctBits 7)] ∧
    regAt 0x400 = some (.freq 0) ∧ decodeOffset 0x10000 = some (.buffer 0x10000) := by decide +kernel

theorem witness_ReadAfterWriteSeesValue :
    (withInputs [.write (.word 0x018) 7#32, .read (.word 0x018)]).busy = false ∧ 0x018 % 4 = 0 ∧
    (withInputs [.write (.word 0x018) 7#32, .read (.word 0x018)]).inputs =
      [.write (.word 0x018) 7#32, .read (.word 0x018)] := by decide +kernel

theorem witness_BufferWindowsLittleEndian :
    (withInputs [.write (.word 0x3FFFC) 1#32]).busy = false ∧ 0x3FFFC % 4 = 0 ∧ 0x10000 ≤ 0x3FFFC ∧ 0x3FFFC < 0x40000 ∧
    (withInputs [.write (.word 0x3FFFC) 1#32]).inputs = .write (.word 0x3FFFC) 1#32 :: [] := by decide +kernel

theorem witness_FreqWriteKeepsTreeAndCodes :
    { coded4 with inputs := [.write (.word (0x400 + 4 * (0x61#8).toNat)) 100#32] }.busy = false := rfl

theorem witness_InterruptMaskedAndCleared :
    { State.reset with done := true, doneIe := true, inputs := [.write (.word 0x008) 2#32] }.busy = false ∧
    (2#32).getLsbD 1 = true ∧ (0#32).getLsbD 0 = false ∧ (1#32).getLsbD 0 = true ∧
    (withInputs [.reset]).inputs = .reset :: [] := by decide +kernel

theorem witness_ResetEventRestoresReset :
    { abbcccd.startCommand 2#32 with inputs := [.reset] }.inputs = .reset :: [] := rfl

theorem witness_NopOnlyCompletes :
    { State.reset with done := true, inputs := [.write (.word 0x004) 0x00000000#32] }.busy = false := rfl

theorem witness_CountCountsInput :
    abbcccd.inLen.toNat ≤ 65536 ∧ 65536 < { abbcccd with inLen := 65537#32 }.inLen.toNat := by decide +kernel

/-- The state with the counters of "ab" (95 L2.3 row 3), and of "aaaa" (row 2). -/
def twoSymbols : State := (State.reset.setFreq 0x61#8 1).setFreq 0x62#8 1
def oneSymbol : State := State.reset.setFreq 0x61#8 4

theorem freqOf_twoSymbols (sym : Byte) (h : twoSymbols.freqOf sym ≠ 0#32) : sym = 0x61#8 ∨ sym = 0x62#8 := by
  by_contra hc
  rw [not_or] at hc
  refine h ?_
  rw [twoSymbols, freqOf_setFreq, freqOf_setFreq, if_neg (Ne.symm hc.2), if_neg (Ne.symm hc.1)]
  simp [State.freqOf, State.reset]

theorem presentCount_two : presentCount twoSymbols = 2 := by
  have e : (Finset.univ.filter (fun sym : Byte => twoSymbols.freqOf sym ≠ 0#32)) = {0x61#8, 0x62#8} := by
    ext sym
    rw [Finset.mem_filter, Finset.mem_insert, Finset.mem_singleton]
    refine ⟨fun h => freqOf_twoSymbols sym h.2, fun h => ⟨Finset.mem_univ _, ?_⟩⟩
    rcases h with rfl | rfl <;> simp [twoSymbols]
  rw [presentCount, e]; rfl

theorem presentCount_none : presentCount State.reset = 0 := by
  simp [presentCount, State.freqOf, State.reset]

theorem presentCount_one : presentCount oneSymbol = 1 := by
  have e : (Finset.univ.filter (fun sym : Byte => oneSymbol.freqOf sym ≠ 0#32)) = {0x61#8} := by
    ext sym
    by_cases h : 0x61#8 = sym
    · subst h; simp [oneSymbol]
    · rw [Finset.mem_filter, oneSymbol, freqOf_setFreq, if_neg h]
      simp [State.freqOf, State.reset, Ne.symm h]
  rw [presentCount, e]; rfl

/-- What BUILD makes of "ab": its two leaves and the root over them. -/
theorem built_twoSymbols :
    after (exec .build twoSymbols) (fun t => (t.nodes, t.root, [0, 1, 2].map t.nodeAt)) =
      some (3#9, 2#9, [lf 0x61 1, lf 0x62 1, nd 0 1 2]) := by decide +kernel

theorem witness_BuildAlwaysCompletes : presentCount State.reset = 0 := presentCount_none

/-- A present symbol, and a leaf of the tree made (`built_twoSymbols`). -/
theorem witness_BuildLeavesInSymbolOrder :
    twoSymbols.freqOf 0x61 ≠ 0#32 ∧
    ∃ t, exec .build twoSymbols = .next t ∧ 1 < t.nodes.toNat ∧ (t.nodeAt 1).leaf = true := by
  refine ⟨by decide +kernel, _, rfl, ?_⟩
  have h := built_twoSymbols
  simp only [exec, execBuild, buildStage, conclude, after, Option.some.injEq, Prod.mk.injEq, List.map_cons,
    List.cons.injEq] at h
  exact ⟨by rw [h.1]; decide, by rw [h.2.2.2.1]; rfl⟩

/-- No symbol, one, two; and a path in the tree of two. -/
theorem witness_BuildSizeRootHeight :
    presentCount State.reset = 0 ∧ presentCount oneSymbol = 1 ∧ 2 ≤ presentCount twoSymbols ∧
    ∃ t, exec .build twoSymbols = .next t ∧ PathTo t [false] 0 := by
  refine ⟨presentCount_none, presentCount_one, by rw [presentCount_two], _, rfl, ?_⟩
  have h := built_twoSymbols
  simp only [exec, execBuild, buildStage, conclude, after, Option.some.injEq, Prod.mk.injEq, List.map_cons,
    List.cons.injEq] at h
  obtain ⟨-, hr, h0, -, h2, -⟩ := h
  refine (pathTo_iff _ _ _).2 ⟨?_, ?_, ?_⟩
  · rw [hr]; exact congrArg Node.leaf h2
  · rw [hr]; exact congrArg Node.left h2
  · rw [hr]
    refine (congrArg (fun x => (State.node _ x).leaf) (congrArg Node.left h2)).trans (congrArg Node.leaf h0)

/-- Entry 2 is the one merge of a tree of two leaves; 0 and 1 await a parent then. -/
theorem witness_BuildMergesSmallestFirst :
    presentCount twoSymbols ≤ 2 ∧ 2 < 2 * presentCount twoSymbols - 1 ∧
    ∀ t, exec .build twoSymbols = .next t → Awaiting t (presentCount twoSymbols) 2 0 ∧
      Awaiting t (presentCount twoSymbols) 2 1 := by
  have e : presentCount twoSymbols = 2 := presentCount_two
  rw [e]
  exact ⟨le_rfl, by omega, fun t _ => ⟨⟨by omega, fun q _ _ => by omega⟩, by omega, fun q _ _ => by omega⟩⟩

theorem witness_BuildMakesStrictTree : 1 ≤ presentCount oneSymbol := by rw [presentCount_one]

theorem witness_BuildWeightsExact :
    1 ≤ presentCount twoSymbols ∧ 1 ≤ abbcccd.inLen.toNat ∧ abbcccd.inLen.toNat ≤ 65536 :=
  ⟨by rw [presentCount_two]; omega, by decide, by decide⟩

/-- Two symbols and a prefix code for them. -/
theorem witness_BuildIsOptimal : 2 ≤ presentCount twoSymbols ∧
    PrefixFree (fun sym => twoSymbols.freqOf sym ≠ 0#32) (fun sym => if sym = 0x61#8 then [false] else [true]) := by
  refine ⟨by rw [presentCount_two], fun a b ha hb hne hp => ?_⟩
  rcases freqOf_twoSymbols a ha with rfl | rfl <;> rcases freqOf_twoSymbols b hb with rfl | rfl
  · exact hne rfl
  · revert hp; decide
  · revert hp; decide
  · exact hne rfl

theorem witness_GencodesAssignsPaths : tree4.treeValid = true ∧ TreeShape tree4 4 ∧ 2 ≤ 4 ∧
    ∀ h, h < 4 → (tree4.nodeAt h).sym ≠ 0x65#8 := ⟨rfl, tree4_shape, by omega, by decide +kernel⟩

theorem witness_GencodesSmallTrees : State.reset.treeValid = false ∧ tree0.treeValid = true ∧ tree0.nodes = 0#9 ∧
    tree1.treeValid = true ∧ TreeShape tree1 1 := ⟨rfl, rfl, rfl, rfl, tree1_shape⟩

/-- A state with a tree and its codes that meets the invariant. -/
theorem coded4_inv : Inv coded4 where
  mem := by decide +kernel
  command := ⟨fun h => absurd (show false = true from h) (by decide), by decide, fun _ => rfl⟩
  tree := .inr (.inr ⟨rfl, 4, SameTree.treeShape (s := tree4) (t := coded4) ⟨rfl, rfl, rfl, fun _ => rfl⟩ tree4_shape⟩)
  codes := .inr ⟨rfl, rfl, rfl⟩
  results := by unfold ResultsOk; decide

theorem witness_CodeTableIsPrefixFree : Inv coded4 ∧ coded4.codesValid = true ∧ coded4.treeValid = true :=
  ⟨coded4_inv, rfl, rfl⟩

theorem witness_InvariantKeptByStep : Inv coded4 ∧ ∃ t, step coded4 = .next t := ⟨coded4_inv, _, rfl⟩

/-- The payload of "abbcccd" has 13 bits. -/
theorem witness_EncodePacksCodes :
    coded4.codesValid = true ∧ coded4.inLen.toNat ≤ 65536 ∧
    (∀ i, i < coded4.inLen.toNat → (coded4.codeOf (coded4.ibuf i)).len ≠ 0#8) ∧
    ((List.range coded4.inLen.toNat).flatMap (fun i => (coded4.codeOf (coded4.ibuf i)).toBits)).length ≤ 8 * 65536 := by
  decide +kernel

/-- Every code is sixteen bits long: byte 32768 no longer fits. -/
def longCodes : State :=
  { State.reset with codesValid := true, ct := Vector.replicate 256 ⟨16#8, 0#255⟩, inLen := 32769#32 }

/-- One state for each error of ENCODE. -/
theorem witness_EncodeErrorsInOrder :
    State.reset.codesValid = false ∧
    (coded4.codesValid = true ∧ 65536 < { coded4 with inLen := 65537#32 }.inLen.toNat) ∧
    ((coded4.codeOf 0x65#8).len = 0#8 ∧ { coded4 with
      mem := cellsFrom ibufBase [0x61#8, 0x62#8, 0x65#8], inLen := 3#32 }.ibuf 2 = 0x65#8) ∧
    (longCodes.codesValid = true ∧ longCodes.inLen.toNat ≤ 65536 ∧ 32768 < longCodes.inLen.toNat ∧
      (∀ j, (longCodes.codeOf (longCodes.ibuf j)).len ≠ 0#8) ∧
      ∑ j ∈ Finset.range 32768, (longCodes.codeOf (longCodes.ibuf j)).len.toNat ≤ 8 * 65536 ∧
      8 * 65536 < ∑ j ∈ Finset.range (32768 + 1), (longCodes.codeOf (longCodes.ibuf j)).len.toNat) := by
  have e : ∀ j, (longCodes.codeOf (longCodes.ibuf j)).len = 16#8 := fun j => by simp [longCodes, State.codeOf]
  refine ⟨rfl, ⟨rfl, by decide⟩, ⟨by decide +kernel, by decide +kernel⟩, rfl, by decide, by decide, ?_, ?_, ?_⟩
  · intro j; rw [e]; decide
  · simp [e]
  · simp [e]

theorem witness_EncodeAllIsTheFourStages :
    65536 < { abbcccd with inLen := 65537#32 }.inLen.toNat ∧ abbcccd.inLen.toNat ≤ 65536 ∧
    ∀ i, i < abbcccd.inLen.toNat → abbcccd.mem.get? (0x10000 + i) ≠ none := by decide +kernel

/-- Bytes that are unwritten are in range too. -/
theorem witness_EncodeAllAlwaysFits : { State.reset with inLen := 65536#32 }.inLen.toNat ≤ 65536 := by decide

theorem witness_DecodeWithEmptyTree :
    tree0.treeValid = true ∧ tree0.nodes = 0#9 ∧ tree0.bitLen = 0#32 ∧ { tree0 with bitLen := 1#32 }.bitLen ≠ 0#32 ∧
    { tree0 with bitLen := 1#32 }.bitLen.toNat ≤ 8 * 65536 := by decide

theorem witness_DecodeWithSingleLeaf :
    tree1.treeValid = true ∧ TreeShape tree1 1 ∧ { tree1 with bitLen := 65536#32 }.bitLen.toNat ≤ 65536 ∧
    65536 < { tree1 with bitLen := 65537#32 }.bitLen.toNat ∧
    { tree1 with bitLen := 65537#32 }.bitLen.toNat ≤ 8 * 65536 := ⟨rfl, tree1_shape, by decide, by decide, by decide⟩

/-- The tree of "abbcccd" with its own payload, or the first `n` bits of it. -/
def held4 (n : Word) : State := withPayload tree4 [0xD4#8, 0x38#8] n

theorem held4_shape (n : Word) : TreeShape (held4 n) 4 := SameTree.treeShape (s := tree4) (t := held4 n) ⟨rfl, rfl, rfl, fun _ => rfl⟩ tree4_shape

/-- The codewords c and a: `0` and `110` (95 L1.4). -/
theorem held4_paths (n : Word) : PathTo (held4 n) [false] 2 ∧ PathTo (held4 n) [true, true, false] 0 :=
  ⟨SameTree.pathTo (s := tree4) (t := held4 n) ⟨rfl, rfl, rfl, fun _ => rfl⟩ tree4_path_c,
    SameTree.pathTo (s := tree4) (t := held4 n) ⟨rfl, rfl, rfl, fun _ => rfl⟩ tree4_path_a⟩

theorem witness_DecodeWalksCodewords :
    (held4 3#32).treeValid = true ∧ TreeShape (held4 3#32) 4 ∧ 2 ≤ 4 ∧ (held4 3#32).bitLen.toNat ≤ 8 * 65536 ∧
    PathTo (held4 3#32) [true, true, false] 0 ∧
    (List.range (held4 3#32).bitLen.toNat).map (held4 3#32).pbit =
      [([true, true, false], 0)].flatMap Prod.fst ∧
    [([true, true, false], 0)].length ≤ 65536 :=
  ⟨rfl, held4_shape _, by omega, by decide, (held4_paths _).2, by decide +kernel, by decide⟩

/-- Four bits: the codeword of a, then one bit that ends inside the tree. -/
theorem witness_DecodeUnfinishedCodewordFails :
    (held4 4#32).treeValid = true ∧ TreeShape (held4 4#32) 4 ∧ 2 ≤ 4 ∧ (held4 4#32).bitLen.toNat ≤ 8 * 65536 ∧
    PathTo (held4 4#32) [true, true, false] 0 ∧
    (List.range (held4 4#32).bitLen.toNat).map (held4 4#32).pbit =
      [([true, true, false], 0)].flatMap Prod.fst ++ [true] ∧
    ∀ pre, pre <+: [true] → ((held4 4#32).node ((held4 4#32).follow (held4 4#32).root pre)).leaf = false := by
  refine ⟨rfl, held4_shape _, by omega, by decide, (held4_paths _).2, by decide +kernel, fun pre hp => ?_⟩
  rcases List.prefix_cons_iff.1 hp with rfl | ⟨t, rfl, ht⟩
  · decide +kernel
  · rw [List.prefix_nil.1 ht]; decide +kernel

/-- 65537 codewords `0` on the tree of "ab". -/
def tooMany : State := withPayload tree2 (List.replicate 8193 0#8) 65537#32

theorem tooMany_pbit (k : Nat) (hk : k < 65537) : tooMany.pbit k = false := by
  have h3 : k >>> 3 = k / 8 := by simp [Nat.shiftRight_eq_div_pow]
  have hg : tooMany.mem.get? (pbufBase + k / 8) = some 0#8 := by
    show Memory.get? (cellsFrom pbufBase (List.replicate 8193 0#8)) _ = _
    rw [Memory.get?_cellsFrom, if_pos (by omega), List.getElem?_replicate, if_pos (by omega)]
  rw [State.pbit, State.pbuf, h3, byteAt_of_written hg, BitVec.getLsbD_zero]

theorem witness_DecodeOverflowFails :
    tooMany.treeValid = true ∧ TreeShape tooMany 2 ∧ 2 ≤ 2 ∧ tooMany.bitLen.toNat ≤ 8 * 65536 ∧
    PathTo tooMany [false] 0 ∧ (List.replicate 65536 ([false], 0)).length = 65536 ∧
    (List.range tooMany.bitLen.toNat).map tooMany.pbit =
      (List.replicate 65536 ([false], 0)).flatMap Prod.fst ++ [false] ++ [] := by
  refine ⟨rfl, SameTree.treeShape (s := tree2) (t := tooMany) ⟨rfl, rfl, rfl, fun _ => rfl⟩ tree2_shape, le_rfl, by decide,
    SameTree.pathTo (s := tree2) (t := tooMany) ⟨rfl, rfl, rfl, fun _ => rfl⟩ tree2_path_a, List.length_replicate, ?_⟩
  have h1 : ∀ n, (List.replicate n ([false], 0)).flatMap Prod.fst = List.replicate n false := fun n => by
    induction n with
    | zero => rfl
    | succ n ih => rw [List.replicate_succ, List.flatMap_cons, ih]; rfl
  rw [h1, List.append_nil, ← List.replicate_succ']
  refine List.eq_replicate_iff.2 ⟨by rw [List.length_map, List.length_range]; rfl, fun b hb => ?_⟩
  obtain ⟨k, hk, rfl⟩ := List.mem_map.1 hb
  exact tooMany_pbit k (List.mem_range.1 hk)

/-- Two states that differ in the padding bits, the counters and the input length. -/
theorem witness_DecodeReadsOnlyPayloadBits :
    SameTree (held4 13#32) { withPayload tree4 [0xD4#8, 0x3F#8] 13#32 with freq := State.reset.freq, inLen := 1#32 } ∧
    (∀ k, k < 13 →
      { withPayload tree4 [0xD4#8, 0x3F#8] 13#32 with freq := State.reset.freq, inLen := 1#32 }.pbit k =
        (held4 13#32).pbit k) := ⟨⟨rfl, rfl, rfl, fun _ => rfl⟩, by decide +kernel⟩

/-- The state ENCODE_ALL leaves, with CLEAR-free host work in between: another IN_LEN and another counter. -/
theorem witness_DecodeInvertsEncodeAll :
    abbcccd.inLen.toNat ≤ 65536 ∧ (∀ i, i < abbcccd.inLen.toNat → abbcccd.mem.get? (0x10000 + i) ≠ none) ∧
    ∀ t : State, SameTree t ({ t with inLen := 0#32 }.setFreq 0 1) ∧
      ({ t with inLen := 0#32 }.setFreq 0 1).bitLen = t.bitLen ∧
      ∀ a, ({ t with inLen := 0#32 }.setFreq 0 1).mem.get? a = t.mem.get? a :=
  ⟨by decide, by decide +kernel, fun _ => ⟨⟨rfl, rfl, rfl, fun _ => rfl⟩, rfl, fun _ => rfl⟩⟩

theorem witness_ErrorsCommitNothing :
    ∃ t, coreStep (State.reset.startCommand 8#32) = .next t ∧ t.err ≠ 0#8 := ⟨_, rfl, by decide⟩

theorem witness_PreconditionBeforeLength :
    State.reset.treeValid = false ∧ tree4.treeValid = true ∧ 8 * 65536 < { tree4 with bitLen := 524289#32 }.bitLen.toNat ∧
    State.reset.codesValid = false ∧ coded4.codesValid = true ∧
    65536 < { coded4 with inLen := 65537#32 }.inLen.toNat := ⟨rfl, rfl, by decide, rfl, rfl, by decide⟩

/-- CLEAR drops the tree and the codes. -/
theorem witness_OnlyBuildersWriteTree :
    ∃ t, step (tree4.startCommand 1#32) = .next t ∧ ¬SameTree (tree4.startCommand 1#32) t :=
  ⟨_, rfl, fun h => by cases h.1⟩
theorem witness_OnlyGeneratorsWriteCodes :
    ∃ t, step (coded4.startCommand 1#32) = .next t ∧ ¬SameCodes (coded4.startCommand 1#32) t :=
  ⟨_, rfl, fun h => by cases h.1⟩

/-- A host write of a counter, and of a buffer word. -/
theorem witness_OnlyCountersWriteFreq :
    ∃ t, step (withInputs [.write (.word 0x400) 5#32]) = .next t ∧
      t.freqOf 0 ≠ (withInputs [.write (.word 0x400) 5#32]).freqOf 0 := ⟨_, rfl, by decide +kernel⟩
theorem witness_OnlyTheseWriteBuffers :
    ∃ t, step (withInputs [.write (.word 0x10000) 5#32]) = .next t ∧
      t.mem.get? 0x10000 ≠ (withInputs [.write (.word 0x10000) 5#32]).mem.get? 0x10000 := ⟨_, rfl, by decide +kernel⟩

theorem witness_PendingCommandIsPerformed :
    { State.reset.startCommand 0#32 with inputs := [.read (.word 8), .write (.word 0x18) 5#32] }.busy = true ∧
    ∀ x ∈ [Input.read (.word 8), Input.write (.word 0x18) 5#32], x.isAccess = true := ⟨rfl, by decide⟩

theorem witness_WaitEndsWithDone :
    { State.reset.startCommand 0#32 with inputs := waitInputs 2 ++ [Input.reset] }.busy = true ∧
    { State.reset.startCommand 0#32 with inputs := waitInputs 2 ++ [Input.reset] }.inputs = waitInputs 2 ++ [Input.reset] :=
  ⟨rfl, rfl⟩

end Sys2Proof.Tests
end

section
/-! The tree BUILD makes (10_state.md R48, 42_tree.md R97-R101): the keys of the merge loop are the entries of the arena
that await a parent, so what is known of the loop's keys holds of the entries. -/

namespace Sys2Proof.Machine

open Sys2Proof

/-! ## Leaves -/

theorem allSymbols_ascending : allSymbols.Pairwise (fun a b => a.toNat < b.toNat) := by
  rw [allSymbols, List.pairwise_map]
  refine List.pairwise_lt_range.imp_of_mem fun {a b} ha hb hab => ?_
  simp only [Config.alphabet, List.mem_range] at ha hb
  simp only [BitVec.toNat_ofNat]
  omega

/-- The present symbols stand in ascending order (10_state.md R45, 42_tree.md R99). -/
theorem presentSymbols_ascending (s : State) : s.presentSymbols.Pairwise (fun a b => a.toNat < b.toNat) :=
  allSymbols_ascending.filter _

/-- All counters together weigh less than 2^40, so no sum of them is cut (42_tree.md R100, R101). -/
theorem weightSum_leafNodes_lt (s : State) : weightSum (pendingFrom 0 s.leafNodes) < 2 ^ 40 := by
  rw [weightSum_pendingFrom]
  have hle : ∀ w ∈ s.leafNodes.map (fun n => n.weight.toNat), w ≤ 2 ^ 32 - 1 := by
    intro w hw
    simp only [State.leafNodes, List.map_map, List.mem_map, Function.comp_apply, leafNode, BitVec.toNat_setWidth] at hw
    obtain ⟨sym, -, rfl⟩ := hw
    omega
  have hsum := List.sum_le_card_nsmul _ _ hle
  have hn := presentCount_le s
  simp only [List.length_map, length_leafNodes, smul_eq_mul] at hsum
  omega

/-! ## The internal nodes -/

/-- The internal nodes BUILD makes, in creation order (42_tree.md R97). -/
def State.mergedNodes (s : State) : List Node :=
  mergeLoop s.leafNodes.length s.leafNodes.length (pendingFrom 0 s.leafNodes)

theorem mergeLoop_leafNodes (s : State) :
    mergeLoop s.leafNodes.length s.leafNodes.length (pendingFrom 0 s.leafNodes) = s.mergedNodes := rfl

theorem treeOver_leafNodes (s : State) : treeOver s.leafNodes = s.leafNodes ++ s.mergedNodes := rfl

@[simp] theorem length_mergedNodes (s : State) : s.mergedNodes.length = presentCount s - 1 := by
  rw [← mergeLoop_leafNodes, length_mergeLoop _ _ _ (by simp), length_pendingFrom, length_leafNodes]

/-- The entries of a leaf: those of the present symbols in their order. -/
theorem nodeAt_built_leaf (s : State) {h : Nat} (hh : h < s.leafNodes.length) : s.built.nodeAt h = s.leafNodes[h] := by
  rw [nodeAt_built s (by rw [length_treeOver]; omega)]
  exact List.getElem_append_left hh

/-- The entry of the `j`-th internal node, which takes the `j`-th handle above the leaves. -/
theorem nodeAt_built_merged (s : State) {j : Nat} (hj : j < s.mergedNodes.length) :
    s.built.nodeAt (presentCount s + j) = s.mergedNodes[j] := by
  have hl : s.leafNodes.length = presentCount s := length_leafNodes s
  rw [nodeAt_built s (by rw [treeOver_leafNodes, List.length_append]; omega)]
  simp only [treeOver_leafNodes]
  rw [List.getElem_append_right (by omega)]
  simp [hl]

/-- The key the merge loop holds of an entry of the tree (42_tree.md R98). -/
def State.builtKey (s : State) (h : Nat) : Pending := ⟨(s.built.nodeAt h).weight.toNat, h⟩

theorem mem_pendingFrom_leafNodes (s : State) (p : Pending) :
    p ∈ pendingFrom 0 s.leafNodes ↔ p.handle < presentCount s ∧ p = s.builtKey p.handle := by
  have hl : s.leafNodes.length = presentCount s := length_leafNodes s
  simp only [pendingFrom_eq, List.mem_map, List.mem_zipIdx_iff_getElem?, Prod.exists]
  constructor
  · rintro ⟨n, h, hn, rfl⟩
    obtain ⟨hh, rfl⟩ := List.getElem?_eq_some_iff.1 hn
    exact ⟨by simpa using hh, by simp only [State.builtKey, nodeAt_built_leaf s hh]⟩
  · rintro ⟨hh, e⟩
    have hh' : p.handle < s.leafNodes.length := by omega
    exact ⟨s.leafNodes[p.handle], p.handle, List.getElem?_eq_getElem hh', by
      rw [← nodeAt_built_leaf s hh']; exact e.symm⟩

theorem getD_mergedNodes (s : State) {j : Nat} (hj : j < presentCount s - 1) :
    s.mergedNodes.getD j Node.blank = s.built.nodeAt (presentCount s + j) := by
  have hj' : j < s.mergedNodes.length := by simpa using hj
  rw [nodeAt_built_merged s hj', List.getD_eq_getElem _ _ hj']

theorem createdKey_mergedNodes (s : State) {j : Nat} (hj : j < presentCount s - 1) :
    createdKey (presentCount s) s.mergedNodes j = s.builtKey (presentCount s + j) := by
  rw [createdKey, getD_mergedNodes s hj]; rfl

/-- The keys that await a parent when the `i`-th internal node is made are those of the entries that do (42_tree.md
R97, R98). -/
theorem awaitsAt_mergedNodes_iff (s : State) {i : Nat} (hi : i ≤ presentCount s - 1) (p : Pending) :
    AwaitsAt (pendingFrom 0 s.leafNodes) (presentCount s) s.mergedNodes i p ↔
      p = s.builtKey p.handle ∧ Awaiting s.built (presentCount s) (presentCount s + i) p.handle := by
  have hsource : (p ∈ pendingFrom 0 s.leafNodes ∨ ∃ j, j < i ∧ p = createdKey (presentCount s) s.mergedNodes j) ↔
      p = s.builtKey p.handle ∧ p.handle < presentCount s + i := by
    rw [mem_pendingFrom_leafNodes]
    constructor
    · rintro (⟨hlt, e⟩ | ⟨j, hj, e⟩)
      · exact ⟨e, by omega⟩
      · rw [createdKey_mergedNodes s (by omega)] at e
        subst e
        exact ⟨rfl, by simp only [State.builtKey]; omega⟩
    · rintro ⟨e, hlt⟩
      by_cases hleaf : p.handle < presentCount s
      · exact .inl ⟨hleaf, e⟩
      · refine .inr ⟨p.handle - presentCount s, by omega, ?_⟩
        rw [createdKey_mergedNodes s (by omega), show presentCount s + (p.handle - presentCount s) = p.handle by omega]
        exact e
  have hfree : (∀ j, j < i → (s.mergedNodes.getD j Node.blank).left.toNat ≠ p.handle ∧
        (s.mergedNodes.getD j Node.blank).right.toNat ≠ p.handle) ↔
      ∀ q, q < presentCount s + i → presentCount s ≤ q → ¬ s.built.isChild q p.handle := by
    constructor
    · intro h q hq hn
      have := h (q - presentCount s) (by omega)
      rw [getD_mergedNodes s (by omega), show presentCount s + (q - presentCount s) = q by omega] at this
      exact not_or.2 this
    · intro h j hj
      rw [getD_mergedNodes s (by omega)]
      exact not_or.1 (h _ (by omega) (by omega))
  rw [AwaitsAt, hsource, hfree, Awaiting, and_assoc]

/-! ## What every merge takes, and what is left at the end -/

/-- Entry `p` of the built tree is the merge of two entries `a`, `b` that await a parent, the two smallest in the order of
42_tree.md R98, its weight their exact sum (42_tree.md R101). -/
structure MergeAt (s : State) (n p a b : Nat) : Prop where
  left_eq : (s.nodeAt p).left.toNat = a
  right_eq : (s.nodeAt p).right.toNat = b
  ne : a ≠ b
  weight_eq : (s.nodeAt p).weight.toNat = (s.nodeAt a).weight.toNat + (s.nodeAt b).weight.toNat
  leaf_eq : (s.nodeAt p).leaf = false
  left_awaiting : Awaiting s n p a
  right_awaiting : Awaiting s n p b
  left_least : ∀ h, Awaiting s n p h → KeyLe s a h
  right_least : ∀ h, Awaiting s n p h → h ≠ a → KeyLe s b h

theorem keyLe_built_iff (s : State) (a b : Nat) :
    KeyLe s.built a b ↔ (s.builtKey a).le (s.builtKey b) = true :=
  (Pending.le_iff (s.builtKey a) (s.builtKey b)).symm

theorem mergeAt_built (s : State) {p : Nat} (hn : presentCount s ≤ p) (hp : p < 2 * presentCount s - 1) :
    ∃ a b, MergeAt s.built (presentCount s) p a b := by
  obtain ⟨i, rfl⟩ : ∃ i, p = presentCount s + i := ⟨p - presentCount s, by omega⟩
  have hcount := presentCount_le s
  have hl := length_leafNodes s
  have hi : i < s.mergedNodes.length := by rw [length_mergedNodes]; omega
  have horder := mergeLoop_order s.leafNodes.length s.leafNodes.length (pendingFrom 0 s.leafNodes) (by simp)
    (freshKeys_pendingFrom _) (by simp; omega) (weightSum_leafNodes_lt s) i hi
  simp only [mergeLoop_leafNodes] at horder
  simp only [hl, awaitsAt_mergedNodes_iff s (show i ≤ presentCount s - 1 by omega),
    ← nodeAt_built_merged s hi] at horder
  obtain ⟨a, b, ⟨hak, haw⟩, ⟨hbk, hbw⟩, hne, hmin, hmin', hnode, hw⟩ := horder
  have hwa : a.weight = (s.built.nodeAt a.handle).weight.toNat := congrArg Pending.weight hak
  have hwb : b.weight = (s.built.nodeAt b.handle).weight.toNat := congrArg Pending.weight hbk
  have hlta := haw.1
  have hltb := hbw.1
  refine ⟨a.handle, b.handle, ?_, ?_, hne, ?_, by rw [hnode]; rfl, haw, hbw, fun h hh => ?_, fun h hh hne => ?_⟩
  · rw [hnode]; simp only [internalNode, BitVec.toNat_ofNat]; omega
  · rw [hnode]; simp only [internalNode, BitVec.toNat_ofNat]; omega
  · rw [hnode, ← hwa, ← hwb]; exact (BitVec.toNat_ofNat ..).trans (Nat.mod_eq_of_lt hw)
  · rw [keyLe_built_iff, ← hak]; exact hmin (s.builtKey h) ⟨rfl, hh⟩
  · rw [keyLe_built_iff, ← hbk]
    exact hmin' (s.builtKey h) ⟨rfl, hh⟩ fun e => hne (congrArg Pending.handle e)

/-- When BUILD ends, one entry awaits a parent (42_tree.md R97). -/
theorem awaiting_built_unique (s : State) {h k : Nat}
    (hh : Awaiting s.built (presentCount s) (2 * presentCount s - 1) h)
    (hk : Awaiting s.built (presentCount s) (2 * presentCount s - 1) k) : h = k := by
  have hcount := presentCount_le s
  have hl := length_leafNodes s
  have hpos : 0 < presentCount s := by have := hh.1; omega
  have hq : pendingFrom 0 s.leafNodes ≠ [] := by rw [← List.length_pos_iff]; simpa using hpos
  obtain ⟨r, -, hr⟩ := mergeLoop_final s.leafNodes.length s.leafNodes.length (pendingFrom 0 s.leafNodes) hq (by simp)
    (freshKeys_pendingFrom _) (by simp; omega) (weightSum_leafNodes_lt s)
  simp only [mergeLoop_leafNodes] at hr
  simp only [hl, length_mergedNodes, awaitsAt_mergedNodes_iff s le_rfl,
    show presentCount s + (presentCount s - 1) = 2 * presentCount s - 1 by omega] at hr
  have hkey : ∀ x, Awaiting s.built (presentCount s) (2 * presentCount s - 1) x → s.builtKey x = r :=
    fun x hx => (hr _).1 ⟨rfl, hx⟩
  exact congrArg Pending.handle ((hkey h hh).trans (hkey k hk).symm)

/-! ## The shape -/

theorem leaf_built_iff (s : State) {h : Nat} (hh : h < 2 * presentCount s - 1) :
    (s.built.nodeAt h).leaf = true ↔ h < presentCount s := by
  by_cases hlt : h < presentCount s
  · have hl : h < s.leafNodes.length := by simpa using hlt
    rw [nodeAt_built_leaf s hl]
    simp [State.leafNodes, leafNode, hlt]
  · obtain ⟨a, b, M⟩ := mergeAt_built s (by omega) hh
    simp [M.leaf_eq, hlt]

/-- The symbols of the leaves ascend with their handles (42_tree.md R99). -/
theorem sym_built_lt (s : State) {h k : Nat} (hh : h < presentCount s) (hk : k < h) :
    (s.built.nodeAt k).sym.toNat < (s.built.nodeAt h).sym.toNat := by
  have hl := length_leafNodes s
  rw [nodeAt_built_leaf s (show h < s.leafNodes.length by omega),
    nodeAt_built_leaf s (show k < s.leafNodes.length by omega)]
  simp only [State.leafNodes, List.getElem_map, leafNode]
  exact List.pairwise_iff_getElem.1 (presentSymbols_ascending s) k h _ _ hk

theorem child_built_lt (s : State) {p h : Nat} (hn : presentCount s ≤ p) (hp : p < 2 * presentCount s - 1)
    (hc : s.built.isChild p h) : h < p := by
  obtain ⟨a, b, M⟩ := mergeAt_built s hn hp
  rcases hc with rfl | rfl
  · rw [M.left_eq]; exact M.left_awaiting.1
  · rw [M.right_eq]; exact M.right_awaiting.1

/-- An entry that a merge took awaits no parent at a later one, so it has one parent at most. -/
theorem child_built_unique (s : State) {p q h : Nat} (hp : p < 2 * presentCount s - 1) (hnp : presentCount s ≤ p)
    (hnq : presentCount s ≤ q) (hpc : s.built.isChild p h) (hqc : s.built.isChild q h) : p ≤ q := by
  obtain ⟨a, b, M⟩ := mergeAt_built s hnp hp
  by_contra hlt
  rcases hpc with rfl | rfl
  · exact M.left_awaiting.2 q (by omega) hnq (M.left_eq ▸ hqc)
  · exact M.right_awaiting.2 q (by omega) hnq (M.right_eq ▸ hqc)

/-- Every entry below the root was taken by a merge, since the root alone awaits a parent at the end. -/
theorem exists_parent_built (s : State) {h : Nat} (hh : h < 2 * presentCount s - 2) :
    ∃ p, p < 2 * presentCount s - 1 ∧ presentCount s ≤ p ∧ s.built.isChild p h := by
  by_contra hcon
  have hh_awaits : Awaiting s.built (presentCount s) (2 * presentCount s - 1) h :=
    ⟨by omega, fun q hq hn hc => hcon ⟨q, hq, hn, hc⟩⟩
  have hroot_awaits : Awaiting s.built (presentCount s) (2 * presentCount s - 1) (2 * presentCount s - 2) :=
    ⟨by omega, fun q hq hn hc => by have := child_built_lt s hn hq hc; omega⟩
  have := awaiting_built_unique s hh_awaits hroot_awaits
  omega

/-- BUILD makes a strict binary tree of the present symbols (10_state.md R48, 42_tree.md R97-R101). -/
theorem treeShape_built (s : State) (hpos : 1 ≤ presentCount s) : TreeShape s.built (presentCount s) where
  leaves_pos := hpos
  leaves_le := presentCount_le s
  nodes_eq := by rw [toNat_nodes_built]; omega
  root_eq := by rw [toNat_root_built]; omega
  leaf_iff := fun _ hh => leaf_built_iff s hh
  sym_lt := fun _ hh _ hk => sym_built_lt s hh hk
  child_lt := fun p hp hn => by
    obtain ⟨a, b, M⟩ := mergeAt_built s hn hp
    refine ⟨child_built_lt s hn hp (.inl rfl), child_built_lt s hn hp (.inr rfl), fun e => M.ne ?_⟩
    rw [← M.left_eq, ← M.right_eq, e]
  weight_eq := fun p hp hn => by
    obtain ⟨a, b, M⟩ := mergeAt_built s hn hp
    rw [M.left_eq, M.right_eq, M.weight_eq]
  one_parent := fun h hh => by
    obtain ⟨p, hp, hn, hc⟩ := exists_parent_built s hh
    exact ⟨p, hp, hn, hc, fun q hq hnq hqc =>
      le_antisymm (child_built_unique s hq hnq hn hqc hc) (child_built_unique s hp hn hnq hc hqc)⟩

end Sys2Proof.Machine
end

section
/-! What the pseudocode of each command writes, said once, and what host accesses and commands keep. -/

namespace Sys2Proof.Machine

open Sys2Proof

/-! ## The pseudocode of each command -/

theorem countStage_ok_iff (s t : State) :
    countStage s = .ok t ↔ s.inLen.toNat ≤ Config.ibufBytes ∧ t = { s with freq := countBytes s.inputBytes } := by
  constructor
  · intro h
    unfold countStage at h
    split at h <;> cases h
    exact ⟨by omega, rfl⟩
  · rintro ⟨hlen, rfl⟩
    rw [countStage, if_neg (by omega)]

theorem gencodesStage_ok_iff (s t : State) :
    gencodesStage s = .ok t ↔ s.treeValid = true ∧ t = s.commitCodes (codeTable s.treeCodes) := by
  constructor
  · intro h
    unfold gencodesStage at h
    split at h <;> cases h
    exact ⟨by simpa using ‹¬s.treeValid = false›, rfl⟩
  · rintro ⟨hvalid, rfl⟩
    rw [gencodesStage, if_neg (by simp [hvalid])]

theorem encodeStage_ok_iff (s t : State) :
    encodeStage s = .ok t ↔ s.codesValid = true ∧ s.inLen.toNat ≤ Config.ibufBytes ∧
      ∃ bits, packCodes s.codeOf 0 0 s.inputBytes = .ok bits ∧ t = s.encoded bits := by
  constructor
  · intro h
    unfold encodeStage at h
    split at h
    · cases h
    · split at h
      · cases h
      · split at h <;> cases h
        exact ⟨by simpa using ‹¬s.codesValid = false›, by omega, _, ‹_›, rfl⟩
  · rintro ⟨hvalid, hlen, bits, hbits, rfl⟩
    rw [encodeStage, if_neg (by simp [hvalid]), if_neg (by omega)]
    simp only [hbits]

theorem decodeStage_ok_iff (s t : State) :
    decodeStage s = .ok t ↔ s.treeValid = true ∧ s.bitLen.toNat ≤ 8 * Config.pbufBytes ∧
      ∃ out, s.decodedBytes = .ok out ∧ t = s.decoded out := by
  constructor
  · intro h
    unfold decodeStage at h
    split at h
    · cases h
    · split at h
      · cases h
      · split at h <;> cases h
        exact ⟨by simpa using ‹¬s.treeValid = false›, by omega, _, ‹_›, rfl⟩
  · rintro ⟨hvalid, hlen, out, hout, rfl⟩
    rw [decodeStage, if_neg (by simp [hvalid]), if_neg (by omega)]
    simp only [hout]

/-- ENCODE_ALL is its four stages in order (44_encode.md R110). -/
theorem encodeAllStage_ok_iff (s t : State) :
    encodeAllStage s = .ok t ↔
      ∃ s₁ s₃, countStage s = .ok s₁ ∧ gencodesStage s₁.built = .ok s₃ ∧ encodeStage s₃ = .ok t := by
  have hrange : ∀ s₁, countStage s = .ok s₁ → ¬ s.inLen.toNat > Config.ibufBytes := fun s₁ h => by
    have := ((countStage_ok_iff s s₁).1 h).1
    omega
  unfold encodeAllStage buildStage
  constructor
  · intro h
    split at h
    · simp at h
    · split at h
      · simp at h
      · split at h
        · simp_all
        · split at h <;> simp_all
  · rintro ⟨s₁, s₃, h₁, h₃, h⟩
    simp only [if_neg (hrange s₁ h₁), h₁, h₃, h]

/-- What the core's step does: a command's writes and a success, or an error alone (60_exceptions.md R121, R128). -/
theorem coreStep_cases {s t : State} (h : coreStep s = .next t) :
    (∃ i s', decode s.cmd = .ok i ∧ stageOf i s = .ok s' ∧ t = s'.succeed) ∨ ∃ e, t = s.raise e := by
  rw [coreStep_eq_conclude] at h
  split at h
  · rename_i i hi
    rcases conclude_cases s (stageOf i s) with ⟨s', hs, e⟩ | ⟨err, -, e⟩
    · exact .inl ⟨i, s', hi, hs, by simpa [eq_comm] using e.symm.trans h⟩
    · exact .inr ⟨err, by simpa [eq_comm] using e.symm.trans h⟩
  · exact .inr ⟨_, by simpa [conclude, eq_comm] using h⟩

/-! ## Tree and code table -/

theorem SameTree.refl (s : State) : SameTree s s := ⟨rfl, rfl, rfl, fun _ => rfl⟩

theorem SameCodes.refl (s : State) : SameCodes s s := ⟨rfl, fun _ => rfl⟩

theorem SameTree.treeCodes {s t : State} (h : SameTree s t) : t.treeCodes = s.treeCodes := by
  obtain ⟨-, hnodes, hroot, hnode⟩ := h
  have hfun : t.node = s.node := funext hnode
  simp only [State.treeCodes, hnodes, hroot, hfun]

theorem SameTree.treeOk {s t : State} (h : SameTree s t) (hs : TreeOk s) : TreeOk t := by
  have hshape : ∀ n, TreeShape s n → TreeShape t n := fun _ T => h.treeShape T
  obtain ⟨hvalid, hnodes, hroot, -⟩ := h
  simp only [TreeOk, hvalid, hnodes, hroot]
  exact hs.imp_right (Or.imp_right (And.imp_right (Exists.imp hshape)))

/-- A command other than the three builders keeps the tree (10_state.md R50). -/
theorem stageOf_sameTree {i : Instr} {s t : State} (h : stageOf i s = .ok t) :
    (i = .build ∨ i = .encodeAll ∨ i = .clear) ∨ SameTree s t := by
  cases i with
  | build | encodeAll | clear => simp
  | nop => exact .inr (by cases h; exact SameTree.refl s)
  | count =>
    obtain ⟨-, rfl⟩ := (countStage_ok_iff s t).1 h
    exact .inr ⟨rfl, rfl, rfl, fun _ => rfl⟩
  | gencodes =>
    obtain ⟨-, rfl⟩ := (gencodesStage_ok_iff s t).1 h
    exact .inr ⟨rfl, rfl, rfl, fun _ => rfl⟩
  | encode =>
    obtain ⟨-, -, bits, -, rfl⟩ := (encodeStage_ok_iff s t).1 h
    exact .inr ⟨rfl, rfl, rfl, fun _ => rfl⟩
  | decode =>
    obtain ⟨-, -, out, -, rfl⟩ := (decodeStage_ok_iff s t).1 h
    exact .inr ⟨rfl, rfl, rfl, fun _ => rfl⟩

/-- A command other than the four that generate or drop codes keeps the code table (10_state.md R53). -/
theorem stageOf_sameCodes {i : Instr} {s t : State} (h : stageOf i s = .ok t) :
    (i = .gencodes ∨ i = .encodeAll ∨ i = .build ∨ i = .clear) ∨ SameCodes s t := by
  cases i with
  | gencodes | encodeAll | build | clear => simp
  | nop => exact .inr (by cases h; exact SameCodes.refl s)
  | count =>
    obtain ⟨-, rfl⟩ := (countStage_ok_iff s t).1 h
    exact .inr ⟨rfl, fun _ => rfl⟩
  | encode =>
    obtain ⟨-, -, bits, -, rfl⟩ := (encodeStage_ok_iff s t).1 h
    exact .inr ⟨rfl, fun _ => rfl⟩
  | decode =>
    obtain ⟨-, -, out, -, rfl⟩ := (decodeStage_ok_iff s t).1 h
    exact .inr ⟨rfl, fun _ => rfl⟩

/-- A command other than the three that count or clear keeps the counters (10_state.md R44). -/
theorem stageOf_sameFreq {i : Instr} {s t : State} (h : stageOf i s = .ok t) :
    (i = .count ∨ i = .encodeAll ∨ i = .clear) ∨ SameFreq s t := by
  cases i with
  | count | encodeAll | clear => simp
  | nop => exact .inr (by cases h; exact fun _ => rfl)
  | build => exact .inr (by cases h; exact fun _ => rfl)
  | gencodes =>
    obtain ⟨-, rfl⟩ := (gencodesStage_ok_iff s t).1 h
    exact .inr fun _ => rfl
  | encode =>
    obtain ⟨-, -, bits, -, rfl⟩ := (encodeStage_ok_iff s t).1 h
    exact .inr fun _ => rfl
  | decode =>
    obtain ⟨-, -, out, -, rfl⟩ := (decodeStage_ok_iff s t).1 h
    exact .inr fun _ => rfl

/-! ## What only commands and reset write -/

/-- The parts of the block that no host access writes: the tree, the code table and three of the results (10_state.md
R30, R32, R33, R50, R53). -/
structure SameCommandData (s t : State) : Prop where
  treeValid : t.treeValid = s.treeValid
  nodes : t.nodes = s.nodes
  root : t.root = s.root
  arena : t.arena = s.arena
  codesValid : t.codesValid = s.codesValid
  ct : t.ct = s.ct
  outLen : t.outLen = s.outLen
  statInBits : t.statInBits = s.statInBits
  statOutBits : t.statOutBits = s.statOutBits

theorem SameCommandData.sameTree {s t : State} (h : SameCommandData s t) : SameTree s t :=
  ⟨h.treeValid, h.nodes, h.root, fun _ => by simp only [State.node, h.arena]⟩

theorem SameCommandData.sameCodes {s t : State} (h : SameCommandData s t) : SameCodes s t :=
  ⟨h.codesValid, fun _ => by simp only [State.codeOf, h.ct]⟩

theorem sameCommandData_writeTarget (s : State) (v : Word) (x : Target) : SameCommandData s (s.writeTarget v x) := by
  cases x with
  | buffer a => constructor <;> rfl
  | reg r =>
    cases r
    case status =>
      simp only [State.writeTarget, State.writeReg]
      split <;> constructor <;> rfl
    all_goals constructor <;> rfl

theorem sameCommandData_hostRead (s : State) (x : Access) : SameCommandData s (s.hostRead x) := by
  rcases hostRead_cases s x with h | ⟨_, -, h⟩ <;> rw [h] <;> constructor <;> rfl

theorem sameCommandData_hostWrite (s : State) (x : Access) (v : Word) : SameCommandData s (s.hostWrite x v) := by
  rcases hostWrite_cases s x v with h | ⟨a, -, -, h⟩ <;> rw [h]
  · constructor <;> rfl
  · obtain ⟨h1, h2, h3, h4, h5, h6, h7, h8, h9⟩ := sameCommandData_writeTarget s v a
    exact ⟨h1, h2, h3, h4, h5, h6, h7, h8, h9⟩

/-- A step that is no reset is a command's success or keeps what only commands write. -/
theorem step_commandData {s t : State} (h : step s = .next t) :
    (∃ i s', s.busy = true ∧ s.coreNext ∧ decode s.cmd = .ok i ∧ stageOf i s.popInput = .ok s' ∧ t = s'.succeed) ∨
    SameCommandData s t ∨ ∃ rest, s.inputs = .reset :: rest := by
  have hpop : ∀ u, SameCommandData s.popInput u → SameCommandData s u := by
    rintro u ⟨h1, h2, h3, h4, h5, h6, h7, h8, h9⟩
    exact ⟨h1, h2, h3, h4, h5, h6, h7, h8, h9⟩
  rcases step_cases h with ⟨hb, hc, hcore⟩ | ⟨-, -, rfl⟩ | ⟨a, _, -, rfl⟩ | ⟨a, v, _, -, rfl⟩ | ⟨rest, hi, -⟩
  · rcases coreStep_cases hcore with ⟨i, s', hi, hs, ht⟩ | ⟨e, rfl⟩
    · exact .inl ⟨i, s', hb, hc, hi, hs, ht⟩
    · exact .inr (.inl (hpop _ (by constructor <;> rfl)))
  · exact .inr (.inl (hpop _ (by constructor <;> rfl)))
  · exact .inr (.inl (hpop _ (sameCommandData_hostRead _ a)))
  · exact .inr (.inl (hpop _ (sameCommandData_hostWrite _ a v)))
  · exact .inr (.inr ⟨rest, hi⟩)

end Sys2Proof.Machine
end

section
/-! The invariant (10_state.md R24, R48, R49, R51, R52; 60_exceptions.md R123): it holds at reset, every host access, every
command and every end of a command keeps it. -/

namespace Sys2Proof.Machine

open Sys2Proof

/-! ## At reset -/

theorem inv_reset : Inv State.reset where
  mem := ⟨List.Pairwise.nil, nofun⟩
  command := ⟨nofun, by decide, fun _ => rfl⟩
  tree := .inl ⟨rfl, rfl, rfl⟩
  codes := .inl ⟨rfl, fun sym => by simp [State.codeOf, State.reset]⟩
  results := ⟨by decide, by decide, by decide⟩

/-- Settles O52, part by part of the invariant. -/
theorem invariantAtReset : Obligations.InvariantAtReset := inv_reset

/-! ## Under host accesses -/

/-- Beside what only commands write, the invariant is about the memory and the command state. -/
theorem Inv.of_sameCommandData {s t : State} (hs : Inv s) (h : SameCommandData s t) (hmem : t.mem.wf)
    (hcommand : CommandOk t) : Inv t where
  mem := hmem
  command := hcommand
  tree := h.sameTree.treeOk hs.tree
  codes := by
    rcases hs.codes with ⟨hvalid, hnone⟩ | ⟨hvalid, htree, hct⟩
    · exact .inl ⟨h.codesValid.trans hvalid, fun sym => (h.sameCodes.2 sym).trans (hnone sym)⟩
    · exact .inr ⟨h.codesValid.trans hvalid, h.treeValid.trans htree, by
        rw [h.ct, hct, h.sameTree.treeCodes]⟩
  results := by
    have hres := hs.results
    rwa [ResultsOk, ← h.outLen, ← h.statInBits, ← h.statOutBits] at hres

/-- A write to CMD starts with no result, a write to STATUS clears DONE at most; no other write touches the command state
(10_state.md R24, 30_encoding.md R81). -/
theorem commandOk_writeTarget {s : State} (h : CommandOk s) (v : Word) (x : Target) : CommandOk (s.writeTarget v x) := by
  cases x with
  | buffer a => exact h
  | reg r =>
    cases r
    case cmd => exact ⟨fun _ => ⟨rfl, rfl⟩, by simp [State.writeTarget, State.writeReg], fun _ => rfl⟩
    case status =>
      simp only [State.writeTarget, State.writeReg]
      split
      · exact ⟨fun hb => ⟨rfl, (h.1 hb).2⟩, h.2⟩
      · exact h
    all_goals exact h

theorem commandOk_hostWrite {s : State} (h : CommandOk s) (x : Access) (v : Word) : CommandOk (s.hostWrite x v) := by
  rcases hostWrite_cases s x v with e | ⟨a, -, -, e⟩ <;> rw [e]
  · exact h
  · exact commandOk_writeTarget h v a

theorem Inv.hostRead {s : State} (h : Inv s) (x : Access) : Inv (s.hostRead x) := by
  have hd := sameCommandData_hostRead s x
  rcases hostRead_cases s x with e | ⟨_, -, e⟩ <;> rw [e] at hd ⊢ <;> exact h.of_sameCommandData hd h.mem h.command

theorem Inv.hostWrite {s : State} (h : Inv s) (x : Access) (v : Word) : Inv (s.hostWrite x v) :=
  h.of_sameCommandData (sameCommandData_hostWrite s x v) (Memory.wf_hostWrite h.mem x v)
    (commandOk_hostWrite h.command x v)

/-! ## At the end of a command -/

theorem ErrorCode.code_range (c : ErrorCode) : c.code ≠ 0#8 ∧ c.code.toNat ≤ 8 := by cases c <;> decide

theorem Inv.succeed {s : State} (h : Inv s) : Inv s.succeed :=
  h.of_sameCommandData (by constructor <;> rfl) h.mem ⟨nofun, by simp, fun _ => rfl⟩

theorem Inv.raise {s : State} (h : Inv s) (e : CmdError) : Inv (s.raise e) := by
  obtain ⟨hne, hle⟩ := e.code.code_range
  exact h.of_sameCommandData (by constructor <;> rfl) h.mem ⟨nofun, hle, fun h0 => absurd h0 hne⟩

/-! ## Under the writes of each command -/

theorem Inv.cleared {s : State} (h : Inv s) : Inv s.cleared where
  mem := h.mem
  command := h.command
  tree := .inl ⟨rfl, rfl, rfl⟩
  codes := .inl ⟨rfl, codeOf_dropCodes s.dropTree⟩
  results := ⟨Nat.zero_le _, Nat.zero_le _, Nat.zero_le _⟩

/-- BUILD makes the empty tree where no symbol is present, else a tree of R48 (10_state.md R49). -/
theorem treeOk_built (s : State) : TreeOk s.built := by
  rcases Nat.eq_zero_or_pos (presentCount s) with h0 | hpos
  · exact .inr (.inl ⟨rfl, BitVec.eq_of_toNat_eq (by rw [toNat_nodes_built, h0]; rfl),
      BitVec.eq_of_toNat_eq (by rw [toNat_root_built, h0]; rfl)⟩)
  · exact .inr (.inr ⟨rfl, _, treeShape_built s hpos⟩)

theorem Inv.built {s : State} (h : Inv s) : Inv s.built where
  mem := h.mem
  command := h.command
  tree := treeOk_built s
  codes := .inl ⟨rfl, codeOf_dropCodes (s.commitTree (treeOver s.leafNodes))⟩
  results := h.results

theorem Inv.countStage {s t : State} (h : Inv s) (hs : countStage s = .ok t) : Inv t := by
  obtain ⟨-, rfl⟩ := (countStage_ok_iff s t).1 hs
  exact h.of_sameCommandData (by constructor <;> rfl) h.mem h.command

theorem Inv.gencodesStage {s t : State} (h : Inv s) (hs : gencodesStage s = .ok t) : Inv t := by
  obtain ⟨hvalid, rfl⟩ := (gencodesStage_ok_iff s t).1 hs
  have htree : SameTree s (s.commitCodes (codeTable s.treeCodes)) := ⟨rfl, rfl, rfl, fun _ => rfl⟩
  exact ⟨h.mem, h.command, htree.treeOk h.tree, .inr ⟨rfl, hvalid, by rw [htree.treeCodes]; rfl⟩, h.results⟩

/-- ENCODE writes no more than PBUF holds, since the packing loop stops at an overflow (44_encode.md R109). -/
theorem Inv.encodeStage {s t : State} (h : Inv s) (hs : encodeStage s = .ok t) : Inv t := by
  obtain ⟨-, hlen, bits, hpack, rfl⟩ := (encodeStage_ok_iff s t).1 hs
  obtain ⟨rfl, -, hfit⟩ := packCodes_ok_inv (Nat.zero_le _) hpack
  rw [← length_payloadOf] at hfit
  have htree : SameTree s (s.encoded (payloadOf s.codeOf s.inputBytes)) := ⟨rfl, rfl, rfl, fun _ => rfl⟩
  refine ⟨?_, h.command, htree.treeOk h.tree, ?_, h.results.1, ?_⟩
  · refine Memory.wf_writeBytes h.mem fun x hlo hhi => ?_
    simp only [length_payloadBytes, pbufBase, Config.pbufBytes] at hlo hhi hfit
    rw [isBufferOffset_iff]
    omega
  · rw [CodesOk, htree.treeCodes]; exact h.codes
  · simp only [State.encoded_statInBits, State.encoded_statOutBits, BitVec.toNat_ofNat]
    simp only [Config.ibufBytes, Config.pbufBytes] at hlen hfit ⊢
    omega

/-- DECODE answers no more bytes than OBUF holds (45_decode.md R114, R116). -/
theorem length_decodedBytes {s : State} {out : List Byte} (h : s.decodedBytes = .ok out) :
    out.length ≤ Config.obufBytes := by
  unfold State.decodedBytes at h
  split at h
  · split at h <;> cases h
    exact Nat.zero_le _
  · split at h
    · split at h <;> cases h
      rw [List.length_replicate]; omega
    · simpa using length_walkBits (Nat.zero_le _) h

theorem Inv.decodeStage {s t : State} (h : Inv s) (hs : decodeStage s = .ok t) : Inv t := by
  obtain ⟨-, -, out, hout, rfl⟩ := (decodeStage_ok_iff s t).1 hs
  have hfit := length_decodedBytes hout
  have htree : SameTree s (s.decoded out) := ⟨rfl, rfl, rfl, fun _ => rfl⟩
  refine ⟨?_, h.command, htree.treeOk h.tree, ?_, ?_, h.results.2⟩
  · refine Memory.wf_writeBytes h.mem fun x hlo hhi => ?_
    simp only [obufBase, Config.obufBytes] at hlo hhi hfit
    rw [isBufferOffset_iff]
    omega
  · rw [CodesOk, htree.treeCodes]; exact h.codes
  · exact (Nat.mod_le ..).trans hfit

theorem Inv.stageOf {i : Instr} {s t : State} (h : Inv s) (hs : stageOf i s = .ok t) : Inv t := by
  cases i with
  | nop => cases hs; exact h
  | clear => cases hs; exact h.cleared
  | count => exact h.countStage hs
  | build => cases hs; exact h.built
  | gencodes => exact h.gencodesStage hs
  | encode => exact h.encodeStage hs
  | decode => exact h.decodeStage hs
  | encodeAll =>
    obtain ⟨s₁, s₃, h₁, h₃, ht⟩ := (encodeAllStage_ok_iff s t).1 hs
    exact ((h.countStage h₁).built.gencodesStage h₃).encodeStage ht

/-! ## Under a step -/

theorem Inv.popInput {s : State} (h : Inv s) : Inv s.popInput :=
  h.of_sameCommandData (by constructor <;> rfl) h.mem h.command

theorem inv_applyReset (s : State) : Inv s.applyReset :=
  inv_reset.of_sameCommandData (by constructor <;> rfl) inv_reset.mem inv_reset.command

theorem Inv.coreStep {s t : State} (h : Inv s) (hs : coreStep s = .next t) : Inv t := by
  rcases coreStep_cases hs with ⟨i, s', -, hi, rfl⟩ | ⟨e, rfl⟩
  · exact (h.stageOf hi).succeed
  · exact h.raise e

/-- Settles O53, by the kinds of transition: the core's command, the idle turn, a host read, a host write, reset. -/
theorem invariantKeptByStep : Obligations.InvariantKeptByStep := by
  intro s t h hstep
  rcases step_cases hstep with ⟨-, -, hcore⟩ | ⟨-, -, rfl⟩ | ⟨a, _, -, rfl⟩ | ⟨a, v, _, -, rfl⟩ | ⟨_, -, rfl⟩
  · exact h.popInput.coreStep hcore
  · exact h.popInput
  · exact h.popInput.hostRead a
  · exact h.popInput.hostWrite a v
  · exact inv_applyReset s.popInput

end Sys2Proof.Machine
end

section
/-! The registers and windows the host reads (10_state.md R20, R24, R31, R37-R42) and their values at reset (R57). -/

namespace Sys2Proof.Machine

open Sys2Proof

/-! ## The register map -/

/-- A decoded register offset is that of a code window, of a counter or of a row of the table (10_state.md R21). -/
theorem regAt_cases {a : Nat} {r : Reg} (h : regAt a = some r) :
    (∃ j, r = .ctBits j) ∨ (0x400 ≤ a ∧ a < 0x800 ∧ r = .freq (BitVec.ofNat 8 ((a - 0x400) / 4))) ∨
    (a, r) ∈ registerMap := by
  unfold regAt at h
  split at h
  · exact .inl ⟨_, (Option.some.inj h).symm⟩
  · split at h
    · rename_i hfreq
      exact .inr (.inl ⟨hfreq.1, hfreq.2, (Option.some.inj h).symm⟩)
    · obtain ⟨l₁, l₂, e, -⟩ := List.lookup_eq_some_iff.1 h
      exact .inr (.inr (e ▸ List.mem_append_right l₁ (List.mem_cons_self ..)))

theorem regAt_id_iff (a : Nat) : regAt a = some .id ↔ a = 0x000 := by
  refine ⟨fun h => ?_, fun h => by rw [h]; rfl⟩
  have hrow : ∀ row ∈ registerMap, row.2 = .id → row.1 = 0x000 := by decide
  rcases regAt_cases h with ⟨j, hj⟩ | ⟨-, -, hf⟩ | hmem
  · cases hj
  · cases hf
  · exact hrow _ hmem rfl

/-! ## STATUS -/

/-- The bits of the STATUS word (10_state.md R24), the reserved ones 0 (R20). -/
theorem getLsbD_statusWord (s : State) (k : Nat) :
    s.statusWord.getLsbD k = [s.busy, s.done, s.errorFlag, s.treeValid, s.codesValid].getD k false := by
  simp only [State.statusWord, BitVec.getLsbD_append, BitVec.getLsbD_ofBool]
  rcases k with _ | _ | _ | _ | _ | k <;> simp

/-- Settles O10, bit by bit of the STATUS word. -/
theorem statusWordFields : Obligations.StatusWordFields := by
  intro s
  simp only [State.readReg, getLsbD_statusWord]
  refine ⟨rfl, rfl, by simp [State.errorFlag], rfl, rfl, fun k hk => ?_⟩
  exact List.getD_eq_default _ _ hk

/-! ## UNIQUE and the state after reset -/

@[simp] theorem freqOf_reset (sym : Byte) : State.reset.freqOf sym = 0#32 := by simp [State.freqOf, State.reset]

@[simp] theorem codeOf_reset (sym : Byte) : State.reset.codeOf sym = Code.none := by simp [State.codeOf, State.reset]

@[simp] theorem uniqueWord_reset : State.reset.uniqueWord = 0#32 := by simp [State.uniqueWord, State.presentSymbols]

/-- Settles O13: UNIQUE is the length of the list of present symbols, which has one entry per non-zero counter. -/
theorem uniqueCountsPresentSymbols : Obligations.UniqueCountsPresentSymbols := by
  refine ⟨rfl, rfl, fun s => ⟨?_, presentCount_le s⟩, uniqueWord_reset⟩
  have hle := presentCount_le s
  simp only [State.readReg, State.uniqueWord, length_presentSymbols, BitVec.toNat_ofNat]
  omega

/-! ## The node windows -/

open BitVec (extractLsb'_append_eq_of_le extractLsb'_append_eq_right extractLsb'_eq_self) in
/-- The fields of the NODE_INFO word (10_state.md R37). -/
theorem nodeInfo_fields (sym : Byte) (leaf : Bool) (w : Word)
    (hw : w = (0#16 ++ sym ++ 0#6 ++ BitVec.ofBool leaf ++ 1#1 : BitVec 32)) :
    w.extractLsb' 0 1 = 1#1 ∧ w.getLsbD 1 = leaf ∧ w.extractLsb' 8 8 = sym ∧ w.extractLsb' 2 6 = 0#6 ∧
      w.extractLsb' 16 16 = 0#16 := by
  subst hw
  refine ⟨extractLsb'_append_eq_right, ?_, ?_, ?_, ?_⟩
  · simp only [BitVec.getLsbD_append]; simp
  · iterate 3 rw [extractLsb'_append_eq_of_le (by decide)]
    exact extractLsb'_append_eq_right
  · iterate 2 rw [extractLsb'_append_eq_of_le (by decide)]
    exact extractLsb'_append_eq_right
  · iterate 4 rw [extractLsb'_append_eq_of_le (by decide)]
    exact extractLsb'_eq_self

open BitVec (extractLsb'_append_eq_of_le extractLsb'_append_eq_right extractLsb'_eq_self) in
/-- The fields of the NODE_CHILD word of an internal node (10_state.md R38). -/
theorem nodeChild_fields (left right : Handle) (w : Word) (hw : w = (0#7 ++ right ++ 0#7 ++ left : BitVec 32)) :
    w.extractLsb' 0 9 = left ∧ w.extractLsb' 16 9 = right ∧ w.extractLsb' 9 7 = 0#7 ∧ w.extractLsb' 25 7 = 0#7 := by
  subst hw
  refine ⟨extractLsb'_append_eq_right, ?_, ?_, ?_⟩
  · iterate 2 rw [extractLsb'_append_eq_of_le (by decide)]
    exact extractLsb'_append_eq_right
  · rw [extractLsb'_append_eq_of_le (by decide)]
    exact extractLsb'_append_eq_right
  · iterate 3 rw [extractLsb'_append_eq_of_le (by decide)]
    exact extractLsb'_eq_self

/-- Settles O11: a split at NODE_SEL < NODES, then the fields of the window words. -/
theorem nodeWindowsShowEntry : Obligations.NodeWindowsShowEntry := by
  refine ⟨rfl, rfl, rfl, rfl, by simp [Reg.accessType], fun s => ⟨fun hge => ?_, fun hlt => ?_⟩⟩
  · have hsel : s.selectedValid = false := by simpa [State.selectedValid] using hge
    simp [State.readReg, State.nodeInfoWord, State.nodeChildWord, State.nodeWloWord, State.nodeWhiWord, hsel]
  · have hsel : s.selectedValid = true := by simpa [State.selectedValid] using hlt
    have hinfo : s.nodeInfoWord = (0#16 ++ (if (s.node s.nodeSel).leaf then (s.node s.nodeSel).sym else 0#8) ++ 0#6 ++
        BitVec.ofBool (s.node s.nodeSel).leaf ++ 1#1 : BitVec 32) := by
      simp only [State.nodeInfoWord, hsel, if_true]
    obtain ⟨hvalid, hleaf, hsym, hres, hres'⟩ := nodeInfo_fields _ _ _ hinfo
    refine ⟨hvalid, hleaf, hsym, hres, hres', fun hl => ?_, fun hl => ?_, ?_, ?_, ?_⟩
    · simp [State.readReg, State.nodeChildWord, hl]
    · exact nodeChild_fields _ _ s.nodeChildWord (by simp [State.nodeChildWord, hsel, hl])
    · simp only [State.readReg, State.nodeWloWord, hsel, if_true]
    · simp only [State.readReg, State.nodeWhiWord, hsel, if_true]
      exact BitVec.extractLsb'_append_eq_right
    · simp only [State.readReg, State.nodeWhiWord, hsel, if_true]
      exact BitVec.extractLsb'_append_eq_left

/-! ## The code windows -/

/-- The mask keeps the bits below the length (10_state.md R42). -/
theorem getLsbD_maskedBits (c : Code) (i : Nat) :
    c.maskedBits.getLsbD i = (decide (i < c.len.toNat) && c.bits.getLsbD i) := by
  have hlen := c.len.isLt
  have hmask : ((1#256 <<< c.len.toNat) - 1#256).toNat = 2 ^ c.len.toNat - 1 := by
    have hpos := Nat.one_le_two_pow (n := c.len.toNat)
    have hlt := Nat.pow_lt_pow_right (show 1 < 2 by decide) (show c.len.toNat < 256 by omega)
    have hshift : (1#256 <<< c.len.toNat).toNat = 2 ^ c.len.toNat := by
      rw [BitVec.toNat_shiftLeft, Nat.shiftLeft_eq, BitVec.toNat_ofNat, Nat.one_mod_two_pow (by decide), one_mul]
      exact Nat.mod_eq_of_lt hlt
    rw [BitVec.toNat_sub_of_le (by rw [BitVec.le_def, hshift]; exact hpos), hshift]
    rfl
  rw [Code.maskedBits, BitVec.getLsbD_and, ← BitVec.testBit_toNat ((1#256 <<< c.len.toNat) - 1#256), hmask,
    Nat.testBit_two_pow_sub_one, BitVec.getLsbD_setWidth]
  by_cases hi : i < c.len.toNat
  · simp [hi, show i < 256 by omega]
  · simp [hi]

/-- Settles O12: CT_LEN is the zero-extended length, and CT_BITSj is word `j` of the masked bits. -/
theorem codeWindowsShowEntry : Obligations.CodeWindowsShowEntry := by
  refine ⟨rfl, by decide, rfl, fun _ => rfl, fun s => ⟨?_, fun j b hb => ?_⟩⟩
  · simp only [State.readReg, State.ctLenWord, zero_append_eq_setWidth]
    exact BitVec.toNat_setWidth_of_le (by decide)
  · simp only [State.readReg, State.ctBitsWord, BitVec.getLsbD_extractLsb', hb, decide_true, Bool.true_and,
      getLsbD_maskedBits]

/-! ## Reset values -/

theorem readReg_reset (r : Reg) : State.reset.readReg r = if r = .id then Config.idValue else 0#32 := by
  cases r with
  | freq sym => exact freqOf_reset sym
  | ctLen => simp [State.readReg, State.ctLenWord, Code.none]
  | ctBits j => simp [State.readReg, State.ctBitsWord, Code.maskedBits, Code.none]
  | unique => exact uniqueWord_reset
  | _ => rfl

/-- Settles O20: ID alone reads non-zero, and it stands at offset 0 alone. -/
theorem resetValues : Obligations.ResetValues := by
  refine ⟨fun a r ha => ?_, fun sym => ?_, rfl, rfl, rfl, rfl, rfl, rfl, fun a => ⟨rfl, rfl⟩⟩
  · rw [readReg_reset]
    have hid : r = .id ↔ a = 0x000 := by rw [← regAt_id_iff, ha, Option.some.injEq]
    simp only [hid, Config.idValue]
  · rw [freqOf_reset, codeOf_reset]
    exact ⟨rfl, rfl, rfl⟩

end Sys2Proof.Machine
end

section
/-! What the tree, the code table and the counters are written by (10_state.md R44, R46, R50, R53). -/

namespace Sys2Proof.Machine

open Sys2Proof

/-! ## Tree and code table -/

/-- Settles O30: BUILD succeeds, and its end leaves the tree as built. -/
theorem buildMakesStrictTree : Obligations.BuildMakesStrictTree := by
  intro s hpos
  have hsame : SameTree s.built s.built.succeed := ⟨rfl, rfl, rfl, fun _ => rfl⟩
  exact ⟨s.built.succeed, rfl, hsame.treeShape (treeShape_built s hpos)⟩

/-- Settles O54: a step that is no reset and does not keep the tree is the success of a command that writes it. -/
theorem onlyBuildersWriteTree : Obligations.OnlyBuildersWriteTree := by
  intro s t hstep hne
  rcases step_commandData hstep with ⟨i, s', hb, hc, hdec, hstage, rfl⟩ | hsame | hreset
  · rcases stageOf_sameTree hstage with hi | hsame
    · exact .inl ⟨hb, hc, by rcases hi with rfl | rfl | rfl <;> simp [hdec]⟩
    · exact absurd hsame hne
  · exact absurd hsame.sameTree hne
  · exact .inr hreset

/-- Settles O55: a step that is no reset and does not keep the codes is the success of a command that writes them. -/
theorem onlyGeneratorsWriteCodes : Obligations.OnlyGeneratorsWriteCodes := by
  intro s t hstep hne
  rcases step_commandData hstep with ⟨i, s', hb, hc, hdec, hstage, rfl⟩ | hsame | hreset
  · rcases stageOf_sameCodes hstage with hi | hsame
    · exact .inl ⟨hb, hc, by rcases hi with rfl | rfl | rfl | rfl <;> simp [hdec]⟩
    · exact absurd hsame hne
  · exact absurd hsame.sameCodes hne
  · exact .inr hreset

/-! ## Counters -/

/-- A multiple of 4 is decoded to FREQ[sym] exactly where that counter stands (10_state.md R21). -/
theorem decodeOffset_freq_iff {a : Nat} (ha : a % 4 = 0) (sym : Byte) :
    decodeOffset a = some (.reg (.freq sym)) ↔ a = 0x400 + 4 * sym.toNat := by
  have hsym := sym.isLt
  constructor
  · intro h
    have hreg : regAt a = some (.freq sym) := by
      unfold decodeOffset at h
      split at h
      · cases h
      · simpa using h
    have hrow : ∀ row ∈ registerMap, ∀ x, row.2 ≠ .freq x := by simp [registerMap]
    rcases regAt_cases hreg with ⟨j, hj⟩ | ⟨hlo, hhi, hf⟩ | hmem
    · cases hj
    · cases hf
      rw [BitVec.toNat_ofNat]
      omega
    · exact absurd rfl (hrow _ hmem sym)
  · rintro rfl
    have hbuf : ¬ isBufferOffset (0x400 + 4 * sym.toNat) = true := by rw [isBufferOffset_iff]; omega
    have hindex : (0x400 + 4 * sym.toNat - 0x400) / 4 = sym.toNat := by omega
    rw [decodeOffset, if_neg hbuf, regAt, dif_neg (by omega), if_pos (by omega), hindex,
      BitVec.ofNat_toNat, BitVec.setWidth_eq]
    rfl

/-- A host write sets the counter it names and keeps every other one (10_state.md R44, R46). -/
theorem freqOf_writeTarget (s : State) (v : Word) (x : Target) (sym : Byte) :
    (s.writeTarget v x).freqOf sym = if x = .reg (.freq sym) then v else s.freqOf sym := by
  cases x with
  | buffer a => rfl
  | reg r =>
    cases r
    case freq sym' => simp [State.writeTarget, State.writeReg]
    case status =>
      simp only [State.writeTarget, State.writeReg]
      split <;> rfl
    all_goals rfl

/-- Settles O56, by the kinds of transition: only a counting command, a decoded write or reset moves the counter. -/
theorem onlyCountersWriteFreq : Obligations.OnlyCountersWriteFreq := by
  intro s t sym hstep hne
  rcases step_cases hstep with ⟨hb, hc, hcore⟩ | ⟨-, -, rfl⟩ | ⟨x, _, -, rfl⟩ | ⟨x, v, rest, hi, rfl⟩ | ⟨rest, hi, -⟩
  · rcases coreStep_cases hcore with ⟨i, s', hdec, hstage, rfl⟩ | ⟨e, rfl⟩
    · rcases stageOf_sameFreq hstage with hi | hsame
      · exact .inl ⟨hb, hc, by rw [State.popInput_cmd] at hdec; rcases hi with rfl | rfl | rfl <;> simp [hdec]⟩
      · exact absurd (hsame sym) hne
    · exact absurd rfl hne
  · exact absurd rfl hne
  · rcases hostRead_cases s.popInput x with e | ⟨_, -, e⟩ <;> exact absurd (by rw [e]; rfl) hne
  · rcases hostWrite_cases s.popInput x v with e | ⟨a, ha, hb, e⟩
    · exact absurd (by rw [e]; rfl) hne
    · have hfreq : (s.popInput.hostWrite x v).freqOf sym = if a = .reg (.freq sym) then v else s.freqOf sym := by
        rw [e]; exact freqOf_writeTarget s.popInput v a sym
      obtain ⟨halign, -, hdec⟩ := (target_ok_iff x a).1 ha
      rw [hfreq] at hne ⊢
      split at hne
      · rename_i hreg
        subst hreg
        exact .inr (.inl ⟨hb, x, v, rest, hi, (decodeOffset_freq_iff halign sym).1 hdec, if_pos rfl⟩)
      · exact absurd rfl hne
  · exact .inr (.inr ⟨rest, hi⟩)

theorem step_of_write {s : State} {x : Access} {v : Word} {rest : List Input} (h : s.inputs = .write x v :: rest) :
    step s = .next (s.popInput.hostWrite x v) := by
  simp only [step, h, State.popInput, List.tail_cons]

/-- A decoded write to an idle block is accepted (20_memory.md R66). -/
theorem hostWrite_of_target {s : State} {x : Access} {t : Target} (v : Word) (ht : x.target = .ok t)
    (hidle : s.busy = false) : s.hostWrite x v = { s.writeTarget v t with response := .ok } := by
  simp only [State.hostWrite, State.writeTarget?, ht, hidle, Bool.false_eq_true, if_false]

/-- Settles O17: the access is decoded to the counter, and its write moves the counters only. -/
theorem freqWriteKeepsTreeAndCodes : Obligations.FreqWriteKeepsTreeAndCodes := by
  intro s sym v rest hidle hinputs
  have halign : (0x400 + 4 * sym.toNat) % 4 = 0 := by omega
  have htarget : (Access.word (0x400 + 4 * sym.toNat)).target = .ok (.reg (.freq sym)) :=
    (target_ok_iff _ _).2 ⟨halign, rfl, (decodeOffset_freq_iff halign sym).2 rfl⟩
  refine ⟨_, (step_of_write hinputs).trans (congrArg _ (hostWrite_of_target v htarget hidle)), ?_, fun x hx => ?_,
    ⟨rfl, rfl, rfl, fun _ => rfl⟩, ⟨rfl, fun _ => rfl⟩, fun _ => rfl, ⟨rfl, rfl, rfl, rfl⟩, ⟨rfl, rfl, rfl, rfl, rfl⟩⟩
  · exact (freqOf_setFreq s.popInput sym sym v).trans (if_pos rfl)
  · exact (freqOf_setFreq s.popInput sym x v).trans (if_neg (Ne.symm hx))

end Sys2Proof.Machine
end

section
/-! Host accesses (20_memory.md R58-R67): what they are decoded to, which are answered with a bus error, what an accepted one
returns or writes. -/

namespace Sys2Proof.Machine

open Sys2Proof

/-! ## What an aligned offset is decoded to -/

/-- The rows of the register table stand at the multiples of 4 up to CT_LEN (10_state.md R21). -/
theorem lookup_registerMap_eq_none_iff {a : Nat} (ha : a % 4 = 0) : registerMap.lookup a = none ↔ 0x050 < a := by
  simp only [List.lookup_eq_none_iff, registerMap, List.forall_mem_cons, List.not_mem_nil, false_implies, implies_true,
    and_true, bne_iff_ne]
  omega

theorem regAt_eq_none_iff {a : Nat} (ha : a % 4 = 0) : regAt a = none ↔ 0x070 < a ∧ ¬(0x400 ≤ a ∧ a < 0x800) := by
  unfold regAt
  split
  · simp only [reduceCtorEq, false_iff]; omega
  · split
    · simp only [reduceCtorEq, false_iff]; omega
    · rw [lookup_registerMap_eq_none_iff ha]; omega

theorem decodeOffset_of_buffer {a : Nat} (ha : 0x10000 ≤ a ∧ a < 0x40000) : decodeOffset a = some (.buffer a) :=
  if_pos ((isBufferOffset_iff a).2 ha)

theorem decodeOffset_of_not_buffer {a : Nat} (ha : ¬(0x10000 ≤ a ∧ a < 0x40000)) :
    decodeOffset a = (regAt a).map .reg :=
  if_neg (mt (isBufferOffset_iff a).1 ha)

theorem decodeOffset_eq_none_iff {a : Nat} (ha : a % 4 = 0) : decodeOffset a = none ↔ ¬MappedOffset a := by
  by_cases hbuf : 0x10000 ≤ a ∧ a < 0x40000
  · simp only [decodeOffset_of_buffer hbuf, reduceCtorEq, MappedOffset, false_iff]
    omega
  · rw [decodeOffset_of_not_buffer hbuf, Option.map_eq_none_iff, regAt_eq_none_iff ha, MappedOffset]
    omega

theorem exists_decodeOffset {a : Nat} (ha : a % 4 = 0) (hmap : MappedOffset a) : ∃ x, decodeOffset a = some x :=
  Option.ne_none_iff_exists'.1 fun h => (decodeOffset_eq_none_iff ha).1 h hmap

/-- The registers and the buffer windows do not overlap (20_memory.md R58). -/
theorem decodeOffset_reg_iff {a : Nat} (ha : a % 4 = 0) (r : Reg) :
    decodeOffset a = some (.reg r) ↔ regAt a = some r := by
  by_cases hbuf : 0x10000 ≤ a ∧ a < 0x40000
  · rw [decodeOffset_of_buffer hbuf, (regAt_eq_none_iff ha).2 (by omega)]
    simp only [Option.some.injEq, reduceCtorEq]
  · rw [decodeOffset_of_not_buffer hbuf]
    cases regAt a <;> simp

theorem regAt_freq (sym : Byte) : regAt (0x400 + 4 * sym.toNat) = some (.freq sym) := by
  have ha : (0x400 + 4 * sym.toNat) % 4 = 0 := by omega
  exact (decodeOffset_reg_iff ha _).1 ((decodeOffset_freq_iff ha sym).2 rfl)

/-- The decoded target is the register the map has at the offset. -/
theorem eq_reg_of_regAt {a : Nat} {r : Reg} {x : Target} (ha : a % 4 = 0) (hx : decodeOffset a = some x)
    (hr : regAt a = some r) : x = .reg r :=
  Option.some.inj (hx.symm.trans ((decodeOffset_reg_iff ha r).2 hr))

/-- The decoded target in the buffer windows is the word that starts at the offset. -/
theorem eq_buffer_of_le {a : Nat} {x : Target} (hmap : MappedOffset a) (hx : decodeOffset a = some x)
    (hlo : 0x10000 ≤ a) : x = .buffer a :=
  Option.some.inj (hx.symm.trans (decodeOffset_of_buffer ⟨hlo, by rcases hmap with h | h | h <;> omega⟩))

/-! ## Bus errors -/

theorem Access.isFull_iff (x : Access) : x.isFull = true ↔ x.width = 4 ∧ x.lanes = 0b1111#4 := by
  simp [Access.isFull]

/-- Conditions (a) to (c) of 20_memory.md R64, in the order they are checked. -/
theorem target_cases (x : Access) :
    (x.offset % 4 ≠ 0 ∧ x.target = .error .misaligned) ∨
    (x.offset % 4 = 0 ∧ ¬(x.width = 4 ∧ x.lanes = 0b1111#4) ∧ x.target = .error .partialAccess) ∨
    (x.offset % 4 = 0 ∧ (x.width = 4 ∧ x.lanes = 0b1111#4) ∧ ¬MappedOffset x.offset ∧ x.target = .error .notDecoded) ∨
    (x.offset % 4 = 0 ∧ (x.width = 4 ∧ x.lanes = 0b1111#4) ∧ MappedOffset x.offset ∧ ∃ t, x.target = .ok t) := by
  unfold Access.target
  by_cases halign : x.offset % 4 = 0
  · by_cases hfull : x.width = 4 ∧ x.lanes = 0b1111#4
    · have hmap := decodeOffset_eq_none_iff halign
      cases hdec : decodeOffset x.offset <;> simp_all [x.isFull_iff.2 hfull]
    · simp [halign, hfull, mt x.isFull_iff.1 hfull]
  · simp [halign]

theorem hostRead_busError_iff (s : State) (x : Access) :
    (s.hostRead x).response = .busError ↔ ∃ f, x.target = .error f := by
  unfold State.hostRead
  cases x.target <;> simp

theorem hostWrite_busError_iff (s : State) (x : Access) (v : Word) :
    (s.hostWrite x v).response = .busError ↔ ∃ f, s.writeTarget? x = .error f := by
  unfold State.hostWrite
  cases s.writeTarget? x <;> simp

theorem hostRead_eq_of_busError {s : State} {x : Access} (h : (s.hostRead x).response = .busError) :
    s.hostRead x = { s with response := .busError } := by
  rcases hostRead_cases s x with e | ⟨t, -, e⟩
  · exact e
  · rw [e] at h; cases h

theorem hostWrite_eq_of_busError {s : State} {x : Access} {v : Word} (h : (s.hostWrite x v).response = .busError) :
    s.hostWrite x v = { s with response := .busError } := by
  rcases hostWrite_cases s x v with e | ⟨t, -, -, e⟩
  · exact e
  · rw [e] at h; cases h

theorem popInput_eq {s : State} {i : Input} {rest : List Input} (h : s.inputs = i :: rest) :
    s.popInput = { s with inputs := rest } := by
  simp only [State.popInput, h, List.tail_cons]

theorem step_of_read {s : State} {x : Access} {rest : List Input} (h : s.inputs = .read x :: rest) :
    step s = .next (s.popInput.hostRead x) := by
  simp only [step, h, State.popInput, List.tail_cons]

/-- Conditions (a) to (d) of 20_memory.md R64 for a write, in the order they are checked. -/
theorem writeTarget?_cases (s : State) (x : Access) :
    (x.offset % 4 ≠ 0 ∧ s.writeTarget? x = .error .misaligned) ∨
    (x.offset % 4 = 0 ∧ ¬(x.width = 4 ∧ x.lanes = 0b1111#4) ∧ s.writeTarget? x = .error .partialAccess) ∨
    (x.offset % 4 = 0 ∧ (x.width = 4 ∧ x.lanes = 0b1111#4) ∧ ¬MappedOffset x.offset ∧
      s.writeTarget? x = .error .notDecoded) ∨
    (x.offset % 4 = 0 ∧ (x.width = 4 ∧ x.lanes = 0b1111#4) ∧ MappedOffset x.offset ∧ s.busy = true ∧
      s.writeTarget? x = .error .busyWrite) ∨
    (x.offset % 4 = 0 ∧ (x.width = 4 ∧ x.lanes = 0b1111#4) ∧ MappedOffset x.offset ∧ s.busy = false ∧
      ∃ t, s.writeTarget? x = .ok t) := by
  unfold State.writeTarget?
  rcases target_cases x with ⟨ha, ht⟩ | ⟨ha, hf, ht⟩ | ⟨ha, hf, hm, ht⟩ | ⟨ha, hf, hm, t, ht⟩
  · simp [ha, ht]
  · simp [ha, hf, ht]
  · simp [ha, hf, hm, ht]
  · cases hb : s.busy <;> simp [ha, hf, hm, ht]

theorem writeTarget?_popInput (s : State) (x : Access) : s.popInput.writeTarget? x = s.writeTarget? x := rfl

/-- Settles O8, by the order in which the conditions are checked. -/
theorem busErrorConditions : Obligations.BusErrorConditions := by
  intro s x rest
  refine ⟨fun hi => ⟨_, step_of_read hi, ?_, fun h => ?_⟩, fun v hi => ⟨_, step_of_write hi, ?_, fun h => ?_⟩, ?_⟩
  · rw [hostRead_busError_iff]
    rcases target_cases x with ⟨ha, ht⟩ | ⟨ha, hf, ht⟩ | ⟨ha, hf, hm, ht⟩ | ⟨ha, hf, hm, t, ht⟩ <;> simp [*]
  · rw [hostRead_eq_of_busError h, popInput_eq hi]
  · rw [hostWrite_busError_iff, writeTarget?_popInput]
    rcases writeTarget?_cases s x with
      ⟨ha, ht⟩ | ⟨ha, hf, ht⟩ | ⟨ha, hf, hm, ht⟩ | ⟨ha, hf, hm, hb, ht⟩ | ⟨ha, hf, hm, hb, t, ht⟩ <;> simp [*]
  · rw [hostWrite_eq_of_busError h, popInput_eq hi]
  · rcases writeTarget?_cases s x with
      ⟨ha, ht⟩ | ⟨ha, hf, ht⟩ | ⟨ha, hf, hm, ht⟩ | ⟨ha, hf, hm, hb, ht⟩ | ⟨ha, hf, hm, hb, t, ht⟩ <;> simp [*]

/-! ## Reads -/

theorem hostRead_of_target {s : State} {x : Access} {t : Target} (ht : x.target = .ok t) :
    s.hostRead x = { s with response := .data (s.readTarget x.offset t), draws := s.draws + 1 } := by
  simp only [State.hostRead, ht]

theorem target_word {a : Nat} {t : Target} (ha : a % 4 = 0) (ht : decodeOffset a = some t) :
    (Access.word a).target = .ok t :=
  (target_ok_iff _ _).2 ⟨ha, rfl, ht⟩

/-- A decoded read moves nothing but the answer and the count of draws (20_memory.md R65, R73). -/
theorem step_of_read_word {s : State} {a : Nat} {rest : List Input} {x : Target} (ha : a % 4 = 0)
    (hx : decodeOffset a = some x) (hi : s.inputs = .read (.word a) :: rest) :
    step s = .next { s with inputs := rest, response := .data (s.readTarget a x), draws := s.draws + 1 } := by
  rw [step_of_read hi, hostRead_of_target (target_word ha hx), popInput_eq hi]
  rfl

/-- IRQ_EN reads as its one bit, the reserved ones 0 (10_state.md R20, R27). -/
theorem readReg_irqEn (s : State) : s.readReg .irqEn = if s.doneIe then 1#32 else 0#32 := by
  cases h : s.doneIe <;> simp [State.readReg, h]

/-- The registers that keep their value while BUSY = 1, by offset (20_memory.md R65). -/
theorem offset_of_readableWhileBusy {a : Nat} {r : Reg} (hr : regAt a = some r) (h : readableWhileBusy r = true) :
    a = 0x000 ∨ a = 0x004 ∨ a = 0x008 ∨ a = 0x014 := by
  have hrow : ∀ row ∈ registerMap, readableWhileBusy row.2 = true →
      row.1 = 0x000 ∨ row.1 = 0x004 ∨ row.1 = 0x008 ∨ row.1 = 0x014 := by decide
  rcases regAt_cases hr with ⟨j, rfl⟩ | ⟨-, -, rfl⟩ | hmem
  · cases h
  · cases h
  · exact hrow _ hmem h

theorem readTarget_reg {s : State} {r : Reg} (a : Nat) (h : s.busy = false ∨ readableWhileBusy r = true) :
    s.readTarget a (.reg r) = s.readReg r := by
  rcases h with h | h <;> simp [State.readTarget, h]

theorem readTarget_buffer {s : State} (h : s.busy = false) (a b : Nat) :
    s.readTarget a (.buffer b) = s.bufferWord b := by
  simp [State.readTarget, h]

/-- Settles O9: the answer is the read of the decoded target, and each clause names the register at its offset. -/
theorem readReturnsValueOrDraw : Obligations.ReadReturnsValueOrDraw := by
  intro s a rest ha hmap hi
  obtain ⟨x, hx⟩ := exists_decodeOffset ha hmap
  have hreg : ∀ b r, s.busy = false ∨ readableWhileBusy r = true → regAt b = some r → a = b →
      s.readTarget a x = s.readReg r := by
    rintro _ r h hr rfl
    obtain rfl := eq_reg_of_regAt ha hx hr
    exact readTarget_reg a h
  refine ⟨s.readTarget a x, step_of_read_word ha hx hi, fun hidle => ?_, fun hbusy => ?_⟩
  · have hidle' := fun b r => hreg b r (.inl hidle)
    refine ⟨fun r hr => hidle' a r hr rfl, hidle' _ .id rfl, hidle' _ .cmd rfl, hidle' _ .status rfl,
      fun h => (hidle' _ .err rfl h).trans (readReg_err s), hidle' _ .errInfo rfl,
      fun h => (hidle' _ .irqEn rfl h).trans (readReg_irqEn s), hidle' _ .inLen rfl, hidle' _ .bitLen rfl,
      hidle' _ .outLen rfl, fun h => ?_, hidle' _ .statInBits rfl, hidle' _ .statOutBits rfl,
      fun h => (hidle' _ .nodes rfl h).trans (readReg_nodes s), fun h => (hidle' _ .root rfl h).trans (readReg_root s),
      fun h => (hidle' _ .nodeSel rfl h).trans (readReg_nodeSel s),
      fun h => (hidle' _ .ctSel rfl h).trans (readReg_ctSel s), fun sym => hidle' _ (.freq sym) (regAt_freq sym),
      fun hlo => ?_⟩
    · obtain ⟨-, -, hcount, -⟩ := uniqueCountsPresentSymbols
      rw [hidle' _ .unique rfl h, (hcount s).1]
    · obtain rfl := eq_buffer_of_le hmap hx hlo
      exact readTarget_buffer hidle a a
  · refine ⟨hreg _ .id (.inr rfl) rfl, hreg _ .cmd (.inr rfl) rfl, hreg _ .status (.inr rfl) rfl,
      fun h => (hreg _ .irqEn (.inr rfl) rfl h).trans (readReg_irqEn s), fun h0 h4 h8 h14 => ?_⟩
    cases x with
    | buffer b => simp [State.readTarget, hbusy]
    | reg r =>
      have hhidden : ¬ readableWhileBusy r = true := fun h => by
        have := offset_of_readableWhileBusy ((decodeOffset_reg_iff ha r).1 hx) h
        omega
      simp [State.readTarget, hbusy, hhidden]

/-! ## Writes -/

/-- A decoded write to an idle block is the write of its target (20_memory.md R66). -/
theorem step_of_write_word {s : State} {a : Nat} {v : Word} {rest : List Input} {x : Target} (hidle : s.busy = false)
    (ha : a % 4 = 0) (hx : decodeOffset a = some x) (hi : s.inputs = .write (.word a) v :: rest) :
    step s = .next { State.writeTarget { s with inputs := rest } v x with response := .ok } := by
  rw [step_of_write hi, hostWrite_of_target (s := s.popInput) v (target_word ha hx) hidle, popInput_eq hi]

theorem writeReg_of_ro {r : Reg} (h : r.accessType = .ro) (s : State) (v : Word) : s.writeReg v r = s := by
  cases r with
  | cmd | status | irqEn | inLen | bitLen | nodeSel | ctSel | freq _ => cases h
  | _ => rfl

theorem writeReg_status (s : State) (v : Word) : s.writeReg v .status = { s with done := s.done && !v.getLsbD 1 } := by
  simp only [State.writeReg, State.acknowledge]
  cases v.getLsbD 1 <;> simp

theorem getElem?_bytesOfWord (v : Word) {k : Nat} (hk : k < 4) :
    (bytesOfWord v)[k]? = some (v.extractLsb' (8 * k) 8) := by
  interval_cases k <;> rfl

/-- Byte `k` of a written word (20_memory.md R67). -/
theorem get?_writeBufferWord (s : State) (a : Nat) (v : Word) {k : Nat} (hk : k < 4) :
    (s.writeBufferWord a v).mem.get? (a + k) = some (v.extractLsb' (8 * k) 8) := by
  rw [State.writeBufferWord_mem, Memory.get?_writeBytes, if_pos ⟨by omega, Nat.add_lt_add_left hk a⟩,
    Nat.add_sub_cancel_left, getElem?_bytesOfWord v hk]

theorem sameMemOutside_writeBytes {s t : State} {a n : Nat} {bs : List Byte} (h : t.mem = s.mem.writeBytes a bs)
    (hn : bs.length ≤ n) : SameMemOutside a n s t := by
  intro x hx
  rw [h, Memory.get?_writeBytes, if_neg (by omega)]

/-- Settles O14: the accepted write is the one of the decoded target, and each clause names the register at its offset. -/
theorem hostWriteEffects : Obligations.HostWriteEffects := by
  intro s a v rest hidle ha hmap hi
  obtain ⟨x, hx⟩ := exists_decodeOffset ha hmap
  have hreg : ∀ b r, regAt b = some r → a = b →
      State.writeTarget { s with inputs := rest } v x = State.writeReg { s with inputs := rest } v r := by
    rintro _ r hr rfl
    obtain rfl := eq_reg_of_regAt ha hx hr
    rfl
  have hro : ∀ r, regAt a = some r → r.accessType = .ro →
      State.writeTarget { s with inputs := rest } v x = { s with inputs := rest } :=
    fun r hr h => (hreg a r hr rfl).trans (writeReg_of_ro h _ v)
  refine ⟨_, step_of_write_word hidle ha hx hi, fun r hr h => by rw [hro r hr h], fun h => ?_, fun h => by rw [hreg _ .cmd rfl h]; rfl,
    fun h => by rw [hreg _ .status rfl h, writeReg_status], fun h => by rw [hreg _ .irqEn rfl h]; rfl,
    fun h => by rw [hreg _ .inLen rfl h]; rfl, fun h => by rw [hreg _ .bitLen rfl h]; rfl,
    fun h => by rw [hreg _ .nodeSel rfl h]; rfl, fun h => by rw [hreg _ .ctSel rfl h]; rfl, fun sym h => ?_,
    fun hlo => ?_⟩
  · have hrow : ∀ b ∈ [0x000, 0x00C, 0x010, 0x020, 0x024, 0x028, 0x02C, 0x030, 0x034, 0x03C, 0x040, 0x044, 0x048, 0x050,
        0x054, 0x058, 0x05C, 0x060, 0x064, 0x068, 0x06C, 0x070], (regAt b).map Reg.accessType = some .ro := by decide
    obtain ⟨r, hr, hacc⟩ := Option.map_eq_some_iff.1 (hrow a h)
    rw [hro r hr hacc]
  · rw [hreg _ (.freq sym) (regAt_freq sym) h]
    refine ⟨rfl, fun y => ?_⟩
    simp only [eq_comm (a := y)]
    exact freqOf_setFreq { s with inputs := rest } sym y v
  · obtain rfl := eq_buffer_of_le hmap hx hlo
    exact ⟨rfl, sameMemOutside_writeBytes (bs := bytesOfWord v) rfl le_rfl,
      fun k hk => get?_writeBufferWord { s with inputs := rest } a v hk⟩

/-! ## Byte order -/

/-- Byte `k` of a read word (20_memory.md R67). -/
theorem extractLsb'_bufferWord (s : State) (a : Nat) {k : Nat} (hk : k < 4) :
    (s.bufferWord a).extractLsb' (8 * k) 8 = s.byteAt (a + k) := by
  unfold State.bufferWord wordOfBytes
  interval_cases k
  · exact BitVec.extractLsb'_append_eq_right
  · rw [BitVec.extractLsb'_append_eq_of_le (by decide)]
    exact BitVec.extractLsb'_append_eq_right
  · iterate 2 rw [BitVec.extractLsb'_append_eq_of_le (by decide)]
    exact BitVec.extractLsb'_append_eq_right
  · iterate 3 rw [BitVec.extractLsb'_append_eq_of_le (by decide)]
    exact BitVec.extractLsb'_eq_self

/-- Settles O16: the decoded target is the buffer word, whose byte `k` a read returns and a write sets. -/
theorem bufferWindowsLittleEndian : Obligations.BufferWindowsLittleEndian := by
  intro s a rest hidle ha hlo hhi
  have hx := decodeOffset_of_buffer ⟨hlo, hhi⟩
  refine ⟨fun hi => ⟨_, _, step_of_read_word ha hx hi, rfl, fun k hk => ?_⟩,
    fun v hi => ⟨_, step_of_write_word hidle ha hx hi, fun k hk => ?_⟩⟩
  · rw [readTarget_buffer hidle, extractLsb'_bufferWord s a hk]
  · exact get?_writeBufferWord { s with inputs := rest } a v hk

end Sys2Proof.Machine
end

section
/-! What writes a buffer byte, and in which window (20_memory.md R60, R70). -/

namespace Sys2Proof.Machine

open Sys2Proof

/-- ENCODE writes in the PBUF window alone, since the packing loop stops at an overflow (44_encode.md R109). -/
theorem encodeStage_sameMemOutside {s t : State} (h : encodeStage s = .ok t) :
    SameMemOutside pbufBase Config.pbufBytes s t := by
  obtain ⟨-, -, bits, hpack, rfl⟩ := (encodeStage_ok_iff s t).1 h
  obtain ⟨rfl, -, hfit⟩ := packCodes_ok_inv (Nat.zero_le _) hpack
  rw [← length_payloadOf] at hfit
  exact sameMemOutside_writeBytes (State.encoded_mem ..) (by rw [length_payloadBytes]; omega)

/-- Which window a command's writes stay in: PBUF, OBUF or none (20_memory.md R60). -/
theorem stageOf_sameMem {i : Instr} {s t : State} (h : stageOf i s = .ok t) :
    ((i = .encode ∨ i = .encodeAll) ∧ SameMemOutside pbufBase Config.pbufBytes s t) ∨
    (i = .decode ∧ SameMemOutside obufBase Config.obufBytes s t) ∨ SameMem s t := by
  cases i with
  | nop | clear | build => exact .inr (.inr (by cases h; exact fun _ => rfl))
  | count =>
    obtain ⟨-, rfl⟩ := (countStage_ok_iff s t).1 h
    exact .inr (.inr fun _ => rfl)
  | gencodes =>
    obtain ⟨-, rfl⟩ := (gencodesStage_ok_iff s t).1 h
    exact .inr (.inr fun _ => rfl)
  | encode => exact .inl ⟨.inl rfl, encodeStage_sameMemOutside h⟩
  | decode =>
    obtain ⟨-, -, out, hout, rfl⟩ := (decodeStage_ok_iff s t).1 h
    exact .inr (.inl ⟨rfl, sameMemOutside_writeBytes (State.decoded_mem ..) (length_decodedBytes hout)⟩)
  | encodeAll =>
    obtain ⟨s₁, s₃, h₁, h₃, hencode⟩ := (encodeAllStage_ok_iff s t).1 h
    obtain ⟨-, rfl⟩ := (countStage_ok_iff s s₁).1 h₁
    obtain ⟨-, rfl⟩ := (gencodesStage_ok_iff _ s₃).1 h₃
    have hmem := encodeStage_sameMemOutside hencode
    exact .inl ⟨.inr rfl, hmem⟩

/-- A host write that moves a buffer byte is an accepted one of the word that holds it (20_memory.md R66, R67). -/
theorem hostWrite_mem_ne {s : State} {x : Access} {v : Word} {a : Nat}
    (h : (s.hostWrite x v).mem.get? a ≠ s.mem.get? a) :
    s.busy = false ∧ x.offset ≤ a ∧ a < x.offset + 4 ∧ 0x10000 ≤ a ∧ a < 0x40000 := by
  rcases hostWrite_cases s x v with e | ⟨target, htarget, hidle, e⟩
  · exact absurd (by rw [e]) h
  · rw [e] at h
    cases target with
    | reg r => exact absurd (congrArg (Memory.get? · a) (mem_writeReg s v r)) h
    | buffer b =>
      obtain ⟨hoffset, -, hwindow⟩ := target_buffer htarget
      have hin : b ≤ a ∧ a < b + 4 := by
        by_contra hout
        exact h (sameMemOutside_writeBytes (bs := bytesOfWord v) (State.writeBufferWord_mem ..) le_rfl a hout)
      exact ⟨hidle, hoffset ▸ hin.1, hoffset ▸ hin.2, (isBufferOffset_iff a).1 (hwindow a hin.1 hin.2)⟩

/-- Settles O57, by the kinds of transition: only ENCODE, ENCODE_ALL, DECODE, a decoded write or reset moves the byte. -/
theorem onlyTheseWriteBuffers : Obligations.OnlyTheseWriteBuffers := by
  intro s t a hstep hne
  rcases step_cases hstep with ⟨hb, hc, hcore⟩ | ⟨-, -, rfl⟩ | ⟨x, _, -, rfl⟩ | ⟨x, v, rest, hi, rfl⟩ | ⟨rest, hi, -⟩
  · rcases coreStep_cases hcore with ⟨i, s', hdec, hstage, rfl⟩ | ⟨e, rfl⟩
    · rw [State.popInput_cmd] at hdec
      rcases stageOf_sameMem hstage with ⟨hi, hsame⟩ | ⟨rfl, hsame⟩ | hsame
      · obtain ⟨hlo, hhi⟩ := Decidable.not_not.1 (mt (hsame a) hne)
        exact .inl ⟨hb, hc, hlo, hhi, by rcases hi with rfl | rfl <;> simp [hdec]⟩
      · obtain ⟨hlo, hhi⟩ := Decidable.not_not.1 (mt (hsame a) hne)
        exact .inr (.inl ⟨hb, hc, hlo, hhi, hdec⟩)
      · exact absurd (hsame a) hne
    · exact absurd rfl hne
  · exact absurd rfl hne
  · rcases hostRead_cases s.popInput x with e | ⟨_, -, e⟩ <;> exact absurd (by rw [e]; rfl) hne
  · obtain ⟨hidle, hword⟩ := hostWrite_mem_ne hne
    exact .inr (.inr (.inl ⟨hidle, x, v, rest, hi, hword⟩))
  · exact .inr (.inr (.inr ⟨rest, hi⟩))

end Sys2Proof.Machine
end

section
/-! Command words (30_encoding.md R81-R89): what the decoder answers, what the core does with the answer, how a command is
started, and how a WAIT sees it end. -/

namespace Sys2Proof.Machine

open Sys2Proof

/-! ## The decoder and the encoder -/

/-- The opcode map sends each OPCODE of R84 to its own command and to no other. -/
theorem instrOfOpcode_eq_some_iff (op : Byte) (i : Instr) : instrOfOpcode op = some i ↔ i.opcode = op := by
  constructor
  · intro h
    have hop : op = BitVec.ofNat 8 op.toNat := by simp
    unfold instrOfOpcode at h
    split at h <;> cases h <;> rw [hop, ‹op.toNat = _›] <;> rfl
  · rintro rfl
    cases i <;> rfl

theorem instrOfOpcode_eq_none_iff (op : Byte) : instrOfOpcode op = none ↔ 0x08 ≤ op.toNat := by
  unfold instrOfOpcode
  split
  case h_9 => simp only [imp_false, true_iff] at *; omega
  all_goals simp only [reduceCtorEq, false_iff]; omega

theorem reserved_encode (i : Instr) : (encode i).extractLsb' 8 24 = 0#24 := BitVec.extractLsb'_append_eq_left

theorem opcode_encode (i : Instr) : (encode i).extractLsb' 0 8 = i.opcode := BitVec.extractLsb'_append_eq_right

/-- The word of a command is RSVD = 0 above its OPCODE (30_encoding.md R82). -/
theorem encode_eq_iff (i : Instr) (v : Word) :
    encode i = v ↔ v.extractLsb' 8 24 = 0#24 ∧ i.opcode = v.extractLsb' 0 8 := by
  constructor
  · rintro rfl
    exact ⟨reserved_encode i, (opcode_encode i).symm⟩
  · rintro ⟨hrsvd, hop⟩
    rw [encode, hop, ← hrsvd, BitVec.extractLsb'_append_extractLsb']

theorem decode_of_reservedBits {v : Word} (h : v.extractLsb' 8 24 ≠ 0#24) : decode v = .error .reservedBits := if_pos h

theorem decode_of_reservedOpcode {v : Word} (h : v.extractLsb' 8 24 = 0#24) (hop : 0x08 ≤ (v.extractLsb' 0 8).toNat) :
    decode v = .error .reservedOpcode := by
  rw [decode, if_neg (not_not.2 h), (instrOfOpcode_eq_none_iff _).2 hop]

/-- A word is decoded to a command exactly when it is that command's word, all 32 bits (30_encoding.md R84). -/
theorem decode_eq_ok_iff (v : Word) (i : Instr) : decode v = .ok i ↔ encode i = v := by
  rw [encode_eq_iff, ← instrOfOpcode_eq_some_iff, decode]
  by_cases h : v.extractLsb' 8 24 = 0#24
  · cases instrOfOpcode (v.extractLsb' 0 8) <;> simp [h]
  · simp [h]

@[simp] theorem decode_encode (i : Instr) : decode (encode i) = .ok i := (decode_eq_ok_iff _ i).2 rfl

theorem instr_wf (i : Instr) : i.wf = true := by cases i <;> rfl

theorem commandWordWf_iff (v : Word) :
    commandWordWf v = true ↔ v.extractLsb' 8 24 = 0#24 ∧ (v.extractLsb' 0 8).toNat ≤ 0x07 := by
  simp only [commandWordWf, reservedClear, opcodeAssigned, Bool.and_eq_true, beq_iff_eq, decide_eq_true_eq]

/-- The legal words of 30_encoding.md R85 are the words of the eight commands. -/
theorem commandWordWf_iff_exists_encode (v : Word) : commandWordWf v = true ↔ ∃ i, encode i = v := by
  have hassigned : (v.extractLsb' 0 8).toNat ≤ 0x07 ↔ ∃ i, instrOfOpcode (v.extractLsb' 0 8) = some i := by
    rw [← Option.ne_none_iff_exists', ne_eq, instrOfOpcode_eq_none_iff, not_le, Nat.lt_succ_iff]
  simp only [commandWordWf_iff, hassigned, instrOfOpcode_eq_some_iff, encode_eq_iff, exists_and_left]

@[simp] theorem tableWord_toNat (v : Word) : tableWord 32 v.toNat = v := by
  rw [tableWord, Nat.mod_eq_of_lt v.isLt, BitVec.ofNat_toNat, BitVec.setWidth_eq]

theorem decodeTableWord_encode (i : Instr) : decodeTableWord 32 (encode i).toNat = some i := by
  rw [decodeTableWord, if_pos le_rfl, tableWord_toNat, decode_encode]
  rfl

/-- Settles O1, each word by evaluation. -/
theorem sampleWordsDecode : Obligations.SampleWordsDecode := ⟨rfl, rfl, rfl, rfl, rfl, rfl, rfl⟩

/-- Settles O2: a word decodes to a command exactly when it is the command's word, and the rows list those words. -/
theorem wholeWordSelectsCommand : Obligations.WholeWordSelectsCommand := by
  intro row hrow w
  have hmask : w &&& 0xFFFFFFFF#32 = w := BitVec.and_allOnes
  have hword : encode row.2 = row.1 := by
    revert row
    decide
  rw [decode_eq_ok_iff, hword, hmask, eq_comm]

/-- Settles O4: decoding undoes encoding, and the legal words are the encoded ones. -/
theorem encodeDecodeAgree : Obligations.EncodeDecodeAgree := by
  refine ⟨fun i _ => ⟨decode_encode i, decodeTableWord_encode i⟩, fun v hv => ?_⟩
  obtain ⟨i, hi⟩ := (commandWordWf_iff_exists_encode v).1 hv
  exact ⟨i, instr_wf i, hi⟩

/-! ## The core's step -/

theorem coreStep_of_ok {s : State} {i : Instr} (h : decode s.cmd = .ok i) : coreStep s = exec i s := by
  simp only [coreStep, h]

/-- An illegal word raises ILLEGAL_COMMAND with ERR_INFO = the word (40_control.md R92). -/
theorem coreStep_of_error {s : State} {r : Reject} (h : decode s.cmd = .error r) :
    coreStep s = .next (s.raise ⟨.illegalCommand, s.cmd⟩) := by
  simp only [coreStep, h, illegalCommand, conclude]

theorem failedWith_raise (s : State) (e : CmdError) : FailedWith e.code.code e.info s (s.raise e) := rfl

theorem popInput_of_nil {s : State} (h : s.inputs = []) : s.popInput = s := by
  cases s
  cases h
  rfl

/-- While BUSY = 1, the core's turn is the core's step (60_exceptions.md R121). -/
theorem step_of_coreNext {s : State} (hb : s.busy = true) (hc : s.coreNext) : step s = coreStep s.popInput := by
  rcases hc with hi | hi
  · rw [popInput_of_nil hi]
    simp only [step, hi, coreTurn, hb, if_true]
  · obtain ⟨rest, hi⟩ := List.head?_eq_some_iff.1 hi
    rw [popInput_eq hi]
    simp only [step, hi, coreTurn, hb, if_true]

/-- No command touches the events still to come, the last bus answer or the count of draws. -/
theorem stageOf_world {i : Instr} {s t : State} (h : stageOf i s = .ok t) :
    t.inputs = s.inputs ∧ t.response = s.response ∧ t.draws = s.draws := by
  cases i with
  | nop | clear | build => cases h; exact ⟨rfl, rfl, rfl⟩
  | count => obtain ⟨-, rfl⟩ := (countStage_ok_iff s t).1 h; exact ⟨rfl, rfl, rfl⟩
  | gencodes => obtain ⟨-, rfl⟩ := (gencodesStage_ok_iff s t).1 h; exact ⟨rfl, rfl, rfl⟩
  | encode => obtain ⟨-, -, bits, -, rfl⟩ := (encodeStage_ok_iff s t).1 h; exact ⟨rfl, rfl, rfl⟩
  | decode => obtain ⟨-, -, out, -, rfl⟩ := (decodeStage_ok_iff s t).1 h; exact ⟨rfl, rfl, rfl⟩
  | encodeAll =>
    obtain ⟨s₁, s₃, h₁, h₃, h₄⟩ := (encodeAllStage_ok_iff s t).1 h
    obtain ⟨-, rfl⟩ := (countStage_ok_iff s s₁).1 h₁
    obtain ⟨-, rfl⟩ := (gencodesStage_ok_iff _ s₃).1 h₃
    obtain ⟨-, -, bits, -, rfl⟩ := (encodeStage_ok_iff _ t).1 h₄
    exact ⟨rfl, rfl, rfl⟩

theorem coreStep_sameOutside {s t : State} (h : coreStep s = .next t) : SameOutside s t := by
  rcases coreStep_cases h with ⟨i, s', -, hs, rfl⟩ | ⟨e, rfl⟩
  · obtain ⟨hinputs, hresponse, hdraws⟩ := stageOf_world hs
    exact ⟨hinputs, hresponse, congrArg (· + 1) hdraws⟩
  · exact ⟨rfl, rfl, rfl⟩

/-- The core's step ends the command: BUSY falls and DONE rises (60_exceptions.md R121). -/
theorem coreStep_completes {s t : State} (h : coreStep s = .next t) : t.busy = false ∧ t.done = true := by
  rcases coreStep_cases h with ⟨i, s', -, -, rfl⟩ | ⟨e, rfl⟩ <;> exact ⟨rfl, rfl⟩

theorem exists_coreStep (s : State) : ∃ t, coreStep s = .next t := by
  rw [coreStep_eq_conclude]
  rcases conclude_cases s _ with ⟨s', -, e⟩ | ⟨e', -, e⟩ <;> exact ⟨_, e⟩

/-- Settles O3, by the decoder's three cases and the core's step on a rejected word. -/
theorem illegalWordsRaiseIllegalCommand : Obligations.IllegalWordsRaiseIllegalCommand := by
  intro v
  refine ⟨decode_of_reservedBits, decode_of_reservedOpcode, fun hrsvd hop => ?_, fun hill s hs => ?_⟩
  · obtain ⟨i, hi⟩ := (commandWordWf_iff_exists_encode v).1 ((commandWordWf_iff v).2 ⟨hrsvd, hop⟩)
    exact ⟨i, (decode_eq_ok_iff v i).2 hi, ((encode_eq_iff i v).1 hi).2⟩
  · subst hs
    have hreject : ∃ r, decode s.cmd = .error r := by
      by_cases hrsvd : s.cmd.extractLsb' 8 24 = 0#24
      · exact ⟨_, decode_of_reservedOpcode hrsvd (hill.resolve_left (not_not.2 hrsvd))⟩
      · exact ⟨_, decode_of_reservedBits hrsvd⟩
    obtain ⟨r, hr⟩ := hreject
    exact ⟨_, coreStep_of_error hr, failedWith_raise s _⟩

/-- Settles O6: the turn lined up first is the core's, and the latched word is the one of `i`. -/
theorem handedOverWordRunsNext : Obligations.HandedOverWordRunsNext := by
  intro s i _
  have hpop : (s.withFetchWord 32 (encode i).toNat).popInput = s.startCommand (encode i) := by
    rw [State.withFetchWord, tableWord_toNat]
    rfl
  rw [step_of_coreNext (s := s.withFetchWord 32 (encode i).toNat) rfl (.inr rfl), hpop]
  exact coreStep_of_ok (s := s.startCommand (encode i)) (decode_encode i)

/-! ## Starting a command -/

theorem offset_of_regAt_cmd {a : Nat} (h : regAt a = some .cmd) : a = 0x004 := by
  rcases regAt_cases h with ⟨j, hj⟩ | ⟨-, -, hf⟩ | hmem
  · cases hj
  · cases hf
  · simpa [registerMap] using hmem

/-- A write while BUSY = 1 is refused whatever it names (20_memory.md R64). -/
theorem hostWrite_of_busy {s : State} (hb : s.busy = true) (x : Access) (v : Word) :
    s.hostWrite x v = { s with response := .busError } := by
  rcases hostWrite_cases s x v with e | ⟨t, -, hidle, -⟩
  · exact e
  · simp [hb] at hidle

/-- Of all targets only CMD moves BUSY when it is written (30_encoding.md R81). -/
theorem busy_writeTarget {x : Target} (h : x ≠ .reg .cmd) (s : State) (v : Word) :
    (s.writeTarget v x).busy = s.busy := by
  cases x with
  | buffer a => rfl
  | reg r =>
    cases r
    case cmd => exact absurd rfl h
    case status => rw [State.writeTarget, writeReg_status]
    all_goals rfl

/-- A write that raises BUSY is one of CMD, at its offset, and CMD holds the written word (30_encoding.md R81). -/
theorem hostWrite_starts {s : State} {x : Access} {v : Word} (hidle : s.busy = false)
    (hbusy : (s.hostWrite x v).busy = true) : x.offset = 0x004 ∧ (s.hostWrite x v).cmd = v := by
  rcases hostWrite_cases s x v with e | ⟨target, htarget, -, e⟩ <;> rw [e] at hbusy ⊢
  · cases hidle.symm.trans hbusy
  · by_cases hcmd : target = .reg .cmd
    · subst hcmd
      obtain ⟨halign, -, hdec⟩ := (target_ok_iff x _).1 htarget
      exact ⟨offset_of_regAt_cmd ((decodeOffset_reg_iff halign _).1 hdec), rfl⟩
    · cases hidle.symm.trans ((busy_writeTarget hcmd s v).symm.trans hbusy)

theorem busy_hostRead (s : State) (x : Access) : (s.hostRead x).busy = s.busy := by
  rcases hostRead_cases s x with e | ⟨_, -, e⟩ <;> rw [e]

/-- Settles O7: the write of CMD is decoded and started, a busy block refuses it, and by the kinds of transition no other
step raises BUSY. -/
theorem cmdWriteStartsCommand : Obligations.CmdWriteStartsCommand := by
  refine ⟨fun s v rest hi => ⟨fun hidle => ?_, fun hbusy => ?_⟩, fun s t hstep hidle hbusy => ?_⟩
  · refine ⟨_, step_of_write_word (x := .reg .cmd) hidle rfl rfl hi, rfl, fun i hdec => ?_, fun r hdec => ?_⟩
    · rw [step_of_coreNext rfl (.inl rfl)]
      exact coreStep_of_ok hdec
    · rw [step_of_coreNext rfl (.inl rfl)]
      exact ⟨_, coreStep_of_error hdec, rfl⟩
  · rw [step_of_write hi, hostWrite_of_busy (s := s.popInput) hbusy, popInput_eq hi]
  · rcases step_cases hstep with ⟨hb, -, -⟩ | ⟨-, -, rfl⟩ | ⟨x, _, -, rfl⟩ | ⟨x, v, rest, hi, rfl⟩ | ⟨_, -, rfl⟩
    · cases hidle.symm.trans hb
    · cases hidle.symm.trans hbusy
    · cases hidle.symm.trans ((busy_hostRead s.popInput x).symm.trans hbusy)
    · obtain ⟨hoffset, hcmd⟩ := hostWrite_starts (s := s.popInput) hidle hbusy
      exact ⟨x, v, rest, hi, hoffset, hcmd⟩
    · cases hbusy

/-! ## WAIT -/

/-- A read of STATUS answers the STATUS word, in the busy window too (20_memory.md R65). -/
theorem step_of_read_status {s : State} {rest : List Input} (hi : s.inputs = .read (.word statusOffset) :: rest) :
    step s = .next { s with inputs := rest, response := .data s.statusWord, draws := s.draws + 1 } := by
  rw [step_of_read_word (x := .reg .status) rfl rfl hi, readTarget_reg _ (.inr rfl)]
  rfl

/-- Settles O59, by induction on the polls: each keeps BUSY = 1, then the core's step ends the command, and the read after
it answers the STATUS word of the ended command. -/
theorem waitEndsWithDone : Obligations.WaitEndsWithDone := by
  intro s polls rest hbusy hi
  induction polls generalizing s with
  | zero =>
    obtain ⟨u, hu⟩ := exists_coreStep s.popInput
    obtain ⟨hinputs, -, -⟩ := coreStep_sameOutside hu
    obtain ⟨hidle, hdone⟩ := coreStep_completes hu
    have hread : u.inputs = .read (.word statusOffset) :: rest := by rw [hinputs, State.popInput_inputs, hi]; rfl
    have hturn : s.coreNext := .inr (by rw [hi]; rfl)
    have hcore : step s = .next u := (step_of_coreNext hbusy hturn).trans hu
    exact ⟨_, u.statusWord, ⟨u, hcore, _, step_of_read_status hread, rfl⟩, rfl, hidle, rfl,
      (getLsbD_statusWord u 0).trans hidle, (getLsbD_statusWord u 1).trans hdone⟩
  | succ polls ih =>
    obtain ⟨u, hpoll, hu, hrest⟩ : ∃ u, step s = .next u ∧ u.busy = true ∧ u.inputs = waitInputs polls ++ rest :=
      ⟨_, step_of_read_status hi, hbusy, rfl⟩
    obtain ⟨t, w, hrun, hend⟩ := ih u hu hrest
    exact ⟨t, w, ⟨u, hpoll, hrun⟩, hend⟩

end Sys2Proof.Machine
end

section
/-! The control commands (40_control.md R90, R91): NOP only completes; CLEAR zeroes the table, the tree, the codes and
the results, so that the commands which need a tree or codes raise after it. -/

namespace Sys2Proof.Machine

open Sys2Proof

/-! ## The end of a command -/

/-- A command whose pseudocode answers `t` completes with the writes of `t` (60_exceptions.md R121). -/
theorem exec_of_ok {i : Instr} {s t : State} (h : stageOf i s = .ok t) : exec i s = .next t.succeed := by
  rw [exec_eq_conclude, h]
  rfl

/-- A command whose pseudocode raises `e` completes with `e` alone (60_exceptions.md R121, R128). -/
theorem exec_of_error {i : Instr} {s : State} {e : CmdError} (h : stageOf i s = .error e) :
    exec i s = .next (s.raise e) := by
  rw [exec_eq_conclude, h]
  rfl

theorem succeeded_succeed (s : State) : Succeeded s.succeed := ⟨rfl, rfl, rfl, rfl⟩

/-! ## NOP -/

theorem exec_nop (s : State) : exec .nop s = .next s.succeed := exec_of_ok rfl

/-- A pending NOP whose turn it is ends by completing, with nothing else moved (40_control.md R90). -/
theorem step_of_nop {s : State} (hbusy : s.busy = true) (hturn : s.coreNext) (hcmd : s.cmd = 0x00000000#32) :
    step s = .next s.popInput.succeed := by
  have hdec : decode s.popInput.cmd = .ok .nop := by rw [State.popInput_cmd, hcmd]; rfl
  rw [step_of_coreNext hbusy hturn, coreStep_of_ok hdec, exec_nop]

/-- Settles O22: the write of CMD starts the NOP with DONE cleared, and the pending NOP ends by completing. -/
theorem nopOnlyCompletes : Obligations.NopOnlyCompletes := by
  refine ⟨exec_nop, fun s rest hidle hi => ?_, ?_⟩
  · exact ⟨_, _, step_of_write_word (x := .reg .cmd) hidle rfl rfl hi, rfl, step_of_nop rfl (.inl rfl) rfl, rfl,
      Bool.true_and _, rfl, rfl⟩
  · exact ⟨_, step_of_nop rfl (.inl rfl) rfl, rfl, rfl⟩

/-! ## CLEAR -/

@[simp] theorem freqOf_cleared (s : State) (sym : Byte) : s.cleared.freqOf sym = 0#32 := by
  simp [State.freqOf, State.cleared]

@[simp] theorem codeOf_cleared (s : State) (sym : Byte) : s.cleared.codeOf sym = Code.none :=
  codeOf_dropCodes s.dropTree sym

/-- UNIQUE is 0 where every counter is 0 (10_state.md R31). -/
theorem uniqueWord_of_freqOf_zero {s : State} (h : ∀ sym, s.freqOf sym = 0#32) : s.uniqueWord = 0#32 := by
  simp [State.uniqueWord, State.presentSymbols, h]

/-! ## The commands that need a tree or codes -/

theorem exec_gencodes_of_no_tree {s : State} (h : s.treeValid = false) :
    exec .gencodes s = .next (s.raise ⟨.noTree, 0#32⟩) :=
  exec_of_error (if_pos h)

theorem exec_decode_of_no_tree {s : State} (h : s.treeValid = false) :
    exec .decode s = .next (s.raise ⟨.noTree, 0#32⟩) :=
  exec_of_error (if_pos h)

theorem exec_encode_of_no_codes {s : State} (h : s.codesValid = false) :
    exec .encode s = .next (s.raise ⟨.noCodes, 0#32⟩) :=
  exec_of_error (if_pos h)

/-- Settles O23: CLEAR completes with the cleared state, on which no tree and no codes are valid. -/
theorem clearDiscardsResults : Obligations.ClearDiscardsResults := by
  intro s
  have hfreq : ∀ sym, s.cleared.succeed.freqOf sym = 0#32 := freqOf_cleared s
  have hcode : ∀ sym, s.cleared.succeed.codeOf sym = Code.none := codeOf_cleared s
  refine ⟨_, exec_of_ok (t := s.cleared) rfl, succeeded_succeed _, fun sym => ?_, rfl, rfl, rfl, rfl, rfl, rfl, rfl, rfl,
    uniqueWord_of_freqOf_zero hfreq, fun _ => rfl, ⟨rfl, rfl, rfl, rfl, rfl⟩, fun _ => rfl, ⟨rfl, rfl, rfl⟩,
    ⟨_, exec_gencodes_of_no_tree rfl, rfl⟩, ⟨_, exec_decode_of_no_tree rfl, rfl⟩,
    ⟨_, exec_encode_of_no_codes rfl, rfl⟩⟩
  rw [hcode]
  exact ⟨hfreq sym, rfl, rfl⟩

end Sys2Proof.Machine
end

section
/-! The frequency counter (41_frequency.md R93, R94): COUNT writes the occurrence counts of the input bytes into the
counters, and nothing else. -/

namespace Sys2Proof.Machine

open Sys2Proof

/-! ## The input bytes -/

theorem mem_inputBytes (s : State) (b : Byte) : b ∈ s.inputBytes ↔ ∃ i, i < s.inLen.toNat ∧ s.ibuf i = b := by
  simp only [State.inputBytes, List.mem_map, List.mem_range]

/-- The occurrences of a byte value in the input are the indices that hold it (41_frequency.md R93). -/
theorem count_inputBytes (s : State) (sym : Byte) :
    s.inputBytes.count sym = ((Finset.range s.inLen.toNat).filter (fun i => s.ibuf i = sym)).card := by
  rw [State.inputBytes, List.count, List.countP_map, List.countP_eq_length_filter]
  exact congrArg List.length (List.filter_congr fun _ _ => beq_eq_decide _ _)

/-- Each input byte is an occurrence of one of the 256 byte values. -/
theorem sum_count_inputBytes (s : State) : ∑ sym : Byte, s.inputBytes.count sym = s.inLen.toNat := by
  have h := Multiset.sum_count_eq_card (s := Finset.univ) (m := (s.inputBytes : Multiset Byte)) fun _ _ =>
    Finset.mem_univ _
  simpa only [Multiset.coe_count, Multiset.coe_card, length_inputBytes] using h

/-! ## COUNT -/

/-- The writes of a successful COUNT (41_frequency.md R93). -/
def State.counted (s : State) : State := { s with freq := countBytes s.inputBytes }

theorem exec_count_of_le {s : State} (h : s.inLen.toNat ≤ Config.ibufBytes) :
    exec .count s = .next s.counted.succeed :=
  exec_of_ok ((countStage_ok_iff s _).2 ⟨h, rfl⟩)

theorem exec_count_of_gt {s : State} (h : s.inLen.toNat > Config.ibufBytes) :
    exec .count s = .next (s.raise ⟨.lengthRange, s.inLen⟩) :=
  exec_of_error (if_pos h)

/-- No counter wraps, since IN_LEN is a 32-bit word (41_frequency.md R93). -/
theorem toNat_freqOf_counted (s : State) (sym : Byte) : (s.counted.freqOf sym).toNat = s.inputBytes.count sym :=
  getElem_countBytes s.inputBytes sym (by rw [length_inputBytes]; exact s.inLen.isLt)

/-- Settles O24: COUNT ends by the counted state, or by the error alone when IN_LEN exceeds IBUF. -/
theorem countCountsInput : Obligations.CountCountsInput := by
  intro s
  refine ⟨fun h => ⟨_, exec_count_of_le h, succeeded_succeed _, fun sym => ?_, ⟨rfl, rfl, rfl, fun _ => rfl⟩,
    ⟨rfl, fun _ => rfl⟩, ⟨rfl, rfl, rfl, rfl⟩, ⟨rfl, rfl, rfl, rfl, rfl⟩, fun _ => rfl, ⟨rfl, rfl, rfl⟩⟩,
    fun h => ⟨_, exec_count_of_gt h, failedWith_raise s _⟩⟩
  exact (toNat_freqOf_counted s sym).trans (count_inputBytes s sym)

/-- Settles O25: the counters are the occurrence counts of a list of IN_LEN bytes. -/
theorem countTotalsInputLength : Obligations.CountTotalsInputLength := by
  intro s h
  have hfreq : ∀ sym, (s.counted.succeed.freqOf sym).toNat = s.inputBytes.count sym := toNat_freqOf_counted s
  refine ⟨_, exec_count_of_le h, ?_, fun sym => ?_⟩
  · simp only [hfreq, sum_count_inputBytes]
  · rw [hfreq]
    exact List.count_pos_iff.trans (mem_inputBytes s sym)

end Sys2Proof.Machine
end

section
/-! BUILD (42_tree.md R97-R101): its end and its frame; the leaves are the present symbols in ascending order; the size
and the height of the tree; every merge takes the two smallest; the root weighs the whole table. -/

namespace Sys2Proof.Machine

open Sys2Proof

/-! ## The end of BUILD -/

/-- BUILD cannot fail (42_tree.md R97). -/
theorem exec_build (s : State) : exec .build s = .next s.built.succeed := exec_of_ok rfl

@[simp] theorem node_succeed (s : State) (h : Handle) : s.succeed.node h = s.node h := rfl

@[simp] theorem nodeAt_succeed (s : State) (h : Nat) : s.succeed.nodeAt h = s.nodeAt h := rfl

/-- The end of a command that completes leaves the tree as it is (60_exceptions.md R121). -/
theorem sameTree_succeed (s : State) : SameTree s s.succeed := ⟨rfl, rfl, rfl, fun _ => rfl⟩

/-- Without a present symbol BUILD makes the empty tree (42_tree.md R100). -/
theorem emptyTree_built {s : State} (h : presentCount s = 0) : s.built.nodes = 0#9 ∧ s.built.root = 0#9 :=
  ⟨BitVec.eq_of_toNat_eq (by rw [toNat_nodes_built, h]; rfl), BitVec.eq_of_toNat_eq (by rw [toNat_root_built, h]; rfl)⟩

/-- Settles O26: the writes of BUILD are the tree and the emptied code table, and it completes with them. -/
theorem buildAlwaysCompletes : Obligations.BuildAlwaysCompletes := fun s =>
  ⟨_, exec_build s, succeeded_succeed _, rfl, rfl, codeOf_dropCodes (s.commitTree (treeOver s.leafNodes)),
    emptyTree_built, fun _ => rfl, ⟨rfl, rfl, rfl, rfl⟩, ⟨rfl, rfl, rfl, rfl, rfl⟩, fun _ => rfl, ⟨rfl, rfl, rfl⟩⟩

/-! ## The leaves -/

/-- Leaf `h` is the leaf of the `h`-th present symbol (42_tree.md R99). -/
theorem nodeAt_built_eq_leafNode (s : State) {h : Nat} (hh : h < s.presentSymbols.length) :
    s.built.nodeAt h = leafNode s.presentSymbols[h] (s.freqOf s.presentSymbols[h]) := by
  rw [nodeAt_built_leaf s (by rw [length_leafNodes, ← length_presentSymbols]; exact hh)]
  simp only [State.leafNodes, List.getElem_map]

/-- A leaf holds a present symbol, with its counter as weight (42_tree.md R99, R101). -/
theorem leaf_built (s : State) {h : Nat} (hh : h < presentCount s) :
    s.freqOf (s.built.nodeAt h).sym ≠ 0#32 ∧
      (s.built.nodeAt h).weight = (s.freqOf (s.built.nodeAt h).sym).setWidth 40 := by
  rw [← length_presentSymbols] at hh
  rw [nodeAt_built_eq_leafNode s hh]
  exact ⟨(mem_presentSymbols s _).1 (List.getElem_mem hh), rfl⟩

theorem toNat_weight_leaf_built (s : State) {h : Nat} (hh : h < presentCount s) :
    (s.built.nodeAt h).weight.toNat = (s.freqOf (s.built.nodeAt h).sym).toNat := by
  rw [(leaf_built s hh).2]
  exact BitVec.toNat_setWidth_of_le (by decide)

/-- Every present symbol has a leaf (42_tree.md R99). -/
theorem exists_leaf_built {s : State} {sym : Byte} (hp : s.freqOf sym ≠ 0#32) :
    ∃ h, h < presentCount s ∧ (s.built.nodeAt h).sym = sym := by
  obtain ⟨h, hh, rfl⟩ := List.getElem_of_mem ((mem_presentSymbols s sym).2 hp)
  exact ⟨h, length_presentSymbols s ▸ hh, by rw [nodeAt_built_eq_leafNode s hh]; rfl⟩

theorem sym_built_lt_iff (s : State) {h k : Nat} (hh : h < presentCount s) (hk : k < presentCount s) :
    (s.built.nodeAt k).sym.toNat < (s.built.nodeAt h).sym.toNat ↔ k < h := by
  refine ⟨fun hlt => ?_, sym_built_lt s hh⟩
  rcases Nat.lt_trichotomy k h with h1 | rfl | h1
  · exact h1
  · exact absurd hlt (lt_irrefl _)
  · exact absurd hlt (sym_built_lt s hk h1).asymm

/-- The present symbols below the symbol of a leaf are those of the leaves before it (42_tree.md R99). -/
theorem presentBelow_sym_built (s : State) {h : Nat} (hh : h < presentCount s) :
    presentBelow s (s.built.nodeAt h).sym = h := by
  refine Finset.card_eq_of_bijective (fun k _ => (s.built.nodeAt k).sym) (fun sym hsym => ?_) (fun k hk => ?_)
    fun i j hi hj e => ?_
  · obtain ⟨hp, hlt⟩ := (Finset.mem_filter.1 hsym).2
    obtain ⟨k, hk, rfl⟩ := exists_leaf_built hp
    exact ⟨k, (sym_built_lt_iff s hh hk).1 hlt, rfl⟩
  · exact Finset.mem_filter.2 ⟨Finset.mem_univ _, (leaf_built s (hk.trans hh)).1, sym_built_lt s hh hk⟩
  · have hij := sym_built_lt_iff s (hi.trans hh) (hj.trans hh)
    have hji := sym_built_lt_iff s (hj.trans hh) (hi.trans hh)
    simp only [e, lt_self_iff_false, false_iff] at hij hji
    omega

/-- Settles O27: the leaf of a present symbol stands at the number of present symbols below it, and no entry from
`presentCount` on is a leaf. -/
theorem buildLeavesInSymbolOrder : Obligations.BuildLeavesInSymbolOrder := by
  refine fun s => ⟨_, exec_build s, fun sym hp => ?_, fun h hh hl => ?_⟩
  · obtain ⟨h, hh, rfl⟩ := exists_leaf_built hp
    rw [presentBelow_sym_built s hh, nodeAt_succeed]
    exact ⟨hh, (leaf_built_iff s (by omega)).2 hh, rfl, toNat_weight_leaf_built s hh⟩
  · rw [State.succeed_nodes, toNat_nodes_built] at hh
    rw [nodeAt_succeed] at hl ⊢
    have hlt := (leaf_built_iff s (by omega)).1 hl
    exact ⟨(leaf_built s hlt).1, (presentBelow_sym_built s hlt).symm⟩

/-! ## Size and height -/

/-- The tree at the end of BUILD has the shape of 10_state.md R48. -/
theorem treeShape_built_succeed {s : State} (hpos : 1 ≤ presentCount s) : TreeShape s.built.succeed (presentCount s) :=
  (sameTree_succeed s.built).treeShape (treeShape_built s hpos)

/-- A tree of `n` leaves has `n - 1` internal nodes (42_tree.md R100). -/
theorem TreeShape.card_internal {s : State} {n : Nat} (T : TreeShape s n) :
    ((Finset.range s.nodes.toNat).filter (fun h => (s.nodeAt h).leaf = false)).card = n - 1 := by
  have hfilter :
      (Finset.range s.nodes.toNat).filter (fun h => (s.nodeAt h).leaf = false) = Finset.Ico n (2 * n - 1) := by
    ext h
    rw [Finset.mem_filter, Finset.mem_range, Finset.mem_Ico, T.nodes_eq, and_comm]
    refine and_congr_left fun hh => ?_
    rw [← Bool.not_eq_true, T.leaf_iff h hh, not_lt]
  rw [hfilter, Nat.card_Ico]
  omega

/-- Settles O28: the size and the root are those of the list of nodes, and the height is bounded by the shape. -/
theorem buildSizeRootHeight : Obligations.BuildSizeRootHeight := by
  refine fun s => ⟨_, exec_build s, fun h0 => (emptyTree_built h0).1, fun h1 => ?_, fun h2 => ?_⟩
  · have T := treeShape_built_succeed (s := s) (by omega)
    rw [h1] at T
    exact ⟨BitVec.eq_of_toNat_eq T.nodes_eq, BitVec.eq_of_toNat_eq T.root_eq, (T.leaf_iff 0 (by omega)).2 (by omega)⟩
  · have T := treeShape_built_succeed (s := s) (by omega)
    have hle := T.leaves_le
    exact ⟨T.nodes_eq, T.nodes_le, T.root_eq, T.card_internal, fun p h hp => by have := T.pathTo_length hp; omega⟩

/-! ## The merges -/

/-- What a merge takes is read off the tree alone. -/
theorem MergeAt.succeed {s : State} {n p a b : Nat} (M : MergeAt s n p a b) : MergeAt s.succeed n p a b :=
  ⟨M.left_eq, M.right_eq, M.ne, M.weight_eq, M.leaf_eq, M.left_awaiting, M.right_awaiting, M.left_least, M.right_least⟩

/-- Settles O29: every internal node of the tree is a merge of the two smallest. -/
theorem buildMergesSmallestFirst : Obligations.BuildMergesSmallestFirst := by
  refine fun s => ⟨_, exec_build s, fun h hh => ⟨(leaf_built_iff s (by omega)).2 hh, fun k hk => sym_built_lt s hh hk⟩,
    fun hpos => ?_, fun p hn hp => ?_⟩
  · have T := treeShape_built_succeed hpos
    exact ⟨T.nodes_eq, T.root_eq⟩
  · obtain ⟨a, b, M₀⟩ := mergeAt_built s hn hp
    have M := M₀.succeed
    rw [← nodeAt_toNat, ← nodeAt_toNat, M.left_eq, M.right_eq]
    exact ⟨M.leaf_eq, M.weight_eq, M.left_awaiting, M.left_least, M.right_awaiting, M.ne.symm, M.right_least⟩

/-! ## Weights -/

/-- The root weighs what the leaves weigh together: every other entry counts once, at its parent (42_tree.md R101). -/
theorem TreeShape.weight_root {s : State} {n : Nat} (T : TreeShape s n) :
    (s.node s.root).weight.toNat = ∑ h ∈ Finset.range n, (s.nodeAt h).weight.toNat := by
  have hpos := T.leaves_pos
  have hedges : ∑ p ∈ Finset.Ico n (2 * n - 1), (s.nodeAt p).weight.toNat =
      ∑ h ∈ Finset.range (2 * n - 2), (s.nodeAt h).weight.toNat := by
    rw [← T.sum_children (fun h => (s.nodeAt h).weight.toNat)]
    refine Finset.sum_congr rfl fun p hp => ?_
    obtain ⟨hn, hlt⟩ := Finset.mem_Ico.1 hp
    exact T.weight_eq p hlt hn
  have hleaves := Finset.sum_range_add_sum_Ico (fun h => (s.nodeAt h).weight.toNat) (show n ≤ 2 * n - 1 by omega)
  have hroot : ∑ h ∈ Finset.range (2 * n - 1), (s.nodeAt h).weight.toNat =
      ∑ h ∈ Finset.range (2 * n - 2), (s.nodeAt h).weight.toNat + (s.nodeAt (2 * n - 2)).weight.toNat := by
    rw [← Finset.sum_range_succ, show 2 * n - 2 + 1 = 2 * n - 1 by omega]
  rw [← nodeAt_toNat, T.root_eq]
  omega

/-- A sum over the numbered entries of a list is a sum over the list. -/
theorem sum_range_eq_sum_map {α : Type} (l : List α) (f : α → Nat) (g : Nat → Nat)
    (h : ∀ i (hi : i < l.length), g i = f l[i]) : ∑ i ∈ Finset.range l.length, g i = (l.map f).sum := by
  rw [← Fin.sum_univ_fun_getElem, Finset.sum_range]
  exact Finset.sum_congr rfl fun i _ => h i i.isLt

theorem nodup_presentSymbols (s : State) : s.presentSymbols.Nodup := nodup_allSymbols.filter _

/-- A sum weighted by the counters runs over the present symbols only. -/
theorem sum_presentSymbols (s : State) (f : Byte → Nat) :
    (s.presentSymbols.map (fun sym => (s.freqOf sym).toNat * f sym)).sum =
      ∑ sym : Byte, (s.freqOf sym).toNat * f sym := by
  rw [← List.sum_toFinset _ (nodup_presentSymbols s)]
  refine Finset.sum_subset (Finset.subset_univ _) fun sym _ hsym => ?_
  rw [List.mem_toFinset, mem_presentSymbols, not_not] at hsym
  rw [hsym]
  exact Nat.zero_mul _

/-- A sum over the weighted leaves is one over the symbols, weighted by their counters (42_tree.md R99). -/
theorem sum_leaves_built (s : State) (f : Byte → Nat) :
    ∑ h ∈ Finset.range (presentCount s), (s.built.nodeAt h).weight.toNat * f (s.built.nodeAt h).sym =
      ∑ sym : Byte, (s.freqOf sym).toNat * f sym := by
  rw [← sum_presentSymbols, ← length_presentSymbols]
  refine sum_range_eq_sum_map _ _ _ fun h hh => ?_
  rw [toNat_weight_leaf_built s (length_presentSymbols s ▸ hh), nodeAt_built_eq_leafNode s hh]
  rfl

/-- The root of the tree BUILD makes weighs the whole table (42_tree.md R101). -/
theorem weight_root_built {s : State} (hpos : 1 ≤ presentCount s) :
    (s.built.node s.built.root).weight.toNat = ∑ sym : Byte, (s.freqOf sym).toNat := by
  rw [(treeShape_built s hpos).weight_root]
  simpa only [mul_one] using sum_leaves_built s fun _ => 1

/-- A symbol is present where the counters are not all 0 (10_state.md R45). -/
theorem presentCount_pos {s : State} (h : 1 ≤ ∑ sym : Byte, (s.freqOf sym).toNat) : 1 ≤ presentCount s := by
  obtain ⟨sym, -, hsym⟩ := Finset.exists_ne_zero_of_sum_ne_zero (Nat.one_le_iff_ne_zero.1 h)
  exact Finset.card_pos.2 ⟨sym, Finset.mem_filter.2 ⟨Finset.mem_univ _, fun e => hsym (by rw [e]; rfl)⟩⟩

/-- Settles O31: leaves weigh their counters and internal nodes the sum of their children, so the root weighs the sum of
the table, which fits 40 bits as the root's weight does and is the number of input bytes after COUNT. -/
theorem buildWeightsExact : Obligations.BuildWeightsExact := by
  refine ⟨fun s hpos => ⟨_, exec_build s, fun h hh => (leaf_built s hh).2, fun p hn hp => ?_,
    weight_root_built hpos, ?_⟩, fun s hpos hle => ?_⟩
  · simpa only [nodeAt_toNat] using (treeShape_built_succeed hpos).weight_eq p hp hn
  · rw [← weight_root_built hpos]
    exact BitVec.isLt _
  · obtain ⟨u, hu, hsum, -⟩ := countTotalsInputLength s hle
    exact ⟨u, _, hu, exec_build u, (weight_root_built (presentCount_pos (by omega))).trans hsum⟩

end Sys2Proof.Machine
end

section
/-! Optimality (42_tree.md R102): the codes GENCODES writes for the tree BUILD makes cost what the merge loop's nodes
weigh together, and that is no more than the cost of any `PrefixFree` code, whose lengths satisfy Kraft's inequality. -/

namespace Sys2Proof.Machine

open Sys2Proof

/-! ## Depths -/

theorem InnerPath.concat {s : State} {p : List Bool} (hp : InnerPath s p)
    (hl : (s.node (s.follow s.root p)).leaf = false) (b : Bool) : InnerPath s (p ++ [b]) := by
  intro pre hpre hne
  by_cases e : pre = p
  · rw [e]; exact hl
  · exact hp pre ((List.prefix_concat_iff.1 hpre).resolve_left hne) e

section
variable {s : State} {n : Nat} (T : TreeShape s n)
include T

/-- Every leaf has a path from the root (43_codes.md R106). -/
theorem TreeShape.exists_pathTo {h : Nat} (hh : h < n) : ∃ p, PathTo s p h := by
  obtain ⟨p, hp, hin⟩ := T.path_exists (show h < 2 * n - 1 by omega)
  exact ⟨p, hp, (T.leaf_iff h (by omega)).2 hh, hin⟩

/-- The length of the path from the root is a depth function: 0 at the root, one more at a child than at its parent. -/
theorem TreeShape.exists_depth : ∃ depth : Nat → Nat, depth (2 * n - 2) = 0 ∧
    (∀ p, p < 2 * n - 1 → n ≤ p → ∀ b, depth (s.childAt p b) = depth p + 1) ∧
    ∀ path h, h < n → PathTo s path h → path.length = depth h := by
  have hpos := T.leaves_pos
  choose! path hpath hinner using fun h (hh : h < 2 * n - 1) => T.path_exists hh
  have hunique : ∀ h q, h < 2 * n - 1 → s.follow s.root q = BitVec.ofNat 9 h → InnerPath s q → q = path h :=
    fun h q hh hq hin => T.path_unique hin (hinner h hh) (hq.trans (hpath h hh).symm)
  refine ⟨fun h => (path h).length, ?_, fun p hp hn b => ?_, fun q h hh hq => ?_⟩
  · have hroot : s.follow s.root [] = BitVec.ofNat 9 (2 * n - 2) := by
      rw [follow_nil, ← T.root_eq, BitVec.ofNat_toNat, BitVec.setWidth_eq]
    have hnil := hunique (2 * n - 2) [] (by omega) hroot fun pre hpre hne => absurd (List.prefix_nil.1 hpre) hne
    simp only [← hnil, List.length_nil]
  · have hchild := T.child_lt p hp hn
    have hlt : s.childAt p b < 2 * n - 1 := by unfold State.childAt; split <;> omega
    have hl : (s.node (s.follow s.root (path p))).leaf = false := by
      rw [hpath p hp, ← Bool.not_eq_true]
      exact fun hl => absurd ((T.leaf_iff p hp).1 hl) (by omega)
    have hend : s.follow s.root (path p ++ [b]) = BitVec.ofNat 9 (s.childAt p b) := by
      rw [follow_append, hpath p hp]
      cases b <;> simp [State.childAt, State.nodeAt]
    simp only [← hunique _ _ hlt hend ((hinner p hp).concat hl b), List.length_append, List.length_singleton]
  · exact congrArg List.length (hunique h q (by omega) hq.1 hq.2.2)

/-! ## The codes of a tree -/

theorem TreeShape.sym_injective {h k : Nat} (hh : h < n) (hk : k < n) (e : (s.nodeAt h).sym = (s.nodeAt k).sym) :
    h = k := by
  rcases Nat.lt_trichotomy h k with hlt | heq | hlt
  · exact absurd (T.sym_lt k hk h hlt) (by rw [e]; exact lt_irrefl _)
  · exact heq
  · exact absurd (T.sym_lt h hh k hlt) (by rw [e]; exact lt_irrefl _)

/-- The codes of a tree of two or more leaves are the paths to its leaves (43_codes.md R106). -/
theorem TreeShape.mem_treeCodes_iff (h2 : 2 ≤ n) (sym : Byte) (p : List Bool) :
    (sym, p) ∈ s.treeCodes ↔ ∃ h, h < n ∧ PathTo s p h ∧ (s.nodeAt h).sym = sym := by
  have hroot := T.root_eq
  have hnodes := T.nodes_eq
  have hne : s.nodes ≠ 0#9 := fun e => by simp [e] at hnodes; omega
  have hinner : ¬(s.node s.root).leaf = true := fun hl => by
    have := (T.leaf_iff_handle (by omega)).1 hl
    omega
  rw [State.treeCodes, if_neg hne, if_neg hinner,
    mem_visitCodes (by omega) fun x hx hl => (T.child_lt_handle (by omega) hl).imp_right And.left]
  simp only [List.nil_append, pathTo_iff]
  constructor
  · rintro ⟨q, z, rfl, hq, rfl⟩
    exact ⟨z.toNat, (T.leadsTo_le (by omega) hq).2, by simpa using hq, by rw [nodeAt_toNat]⟩
  · rintro ⟨h, -, hq, rfl⟩
    exact ⟨p, _, rfl, hq, rfl⟩

/-- The code of a leaf's symbol is the path to the leaf (43_codes.md R106). -/
theorem TreeShape.lookup_treeCodes (h2 : 2 ≤ n) {h : Nat} (hh : h < n) {p : List Bool} (hp : PathTo s p h) :
    s.treeCodes.lookup (s.nodeAt h).sym = some p := by
  have hmem := T.mem_treeCodes_iff h2 (s.nodeAt h).sym
  cases e : s.treeCodes.lookup (s.nodeAt h).sym with
  | none => exact absurd (List.lookup_eq_none_iff.1 e _ ((hmem p).2 ⟨h, hh, hp, rfl⟩)) (by simp)
  | some q =>
    obtain ⟨l₁, l₂, hl, -⟩ := List.lookup_eq_some_iff.1 e
    obtain ⟨k, hk, hq, hsym⟩ := (hmem q).1 (by rw [hl]; simp)
    obtain rfl := T.sym_injective hk hh hsym
    rw [T.path_unique hq.2.2 hp.2.2 (hq.1.trans hp.1.symm)]

theorem TreeShape.len_codeOf_commitCodes (h2 : 2 ≤ n) {h : Nat} (hh : h < n) {p : List Bool} (hp : PathTo s p h) :
    ((s.commitCodes (codeTable s.treeCodes)).codeOf (s.nodeAt h).sym).len.toNat = p.length := by
  have hlen := T.pathTo_length hp
  have hle := T.leaves_le
  rw [codeOf_commitCodes, T.lookup_treeCodes h2 hh hp]
  exact len_ofBits p (by omega)

/-- The code lengths of a tree, weighted by its leaves, are the total weight of its internal nodes (42_tree.md R102). -/
theorem TreeShape.weighted_codeLength (h2 : 2 ≤ n) :
    ∑ h ∈ Finset.range n, (s.nodeAt h).weight.toNat *
        ((s.commitCodes (codeTable s.treeCodes)).codeOf (s.nodeAt h).sym).len.toNat =
      ∑ p ∈ Finset.Ico n (2 * n - 1), (s.nodeAt p).weight.toNat := by
  obtain ⟨depth, hroot, hchild, hdepth⟩ := T.exists_depth
  rw [← T.weighted_depth depth hroot hchild]
  refine Finset.sum_congr rfl fun h hh => ?_
  have hlt := Finset.mem_range.1 hh
  obtain ⟨p, hp⟩ := T.exists_pathTo hlt
  rw [T.len_codeOf_commitCodes h2 hlt hp, hdepth p h hlt hp]

end

/-- GENCODES completes where a tree is held, with the codes of that tree (43_codes.md R104). -/
theorem exec_gencodes_of_tree {s : State} (h : s.treeValid = true) :
    exec .gencodes s = .next (s.commitCodes (codeTable s.treeCodes)).succeed :=
  exec_of_ok ((gencodesStage_ok_iff s _).2 ⟨h, rfl⟩)

/-! ## The cost of the merges -/

/-- The merge loop's cost is the total weight of the internal nodes of the tree BUILD makes (42_tree.md R97). -/
theorem mergeCost_mergedNodes (s : State) : mergeCost s.mergedNodes =
    ∑ p ∈ Finset.Ico (presentCount s) (2 * presentCount s - 1), (s.built.nodeAt p).weight.toNat := by
  have hlen : 2 * presentCount s - 1 - presentCount s = s.mergedNodes.length := by rw [length_mergedNodes]; omega
  rw [Finset.sum_Ico_eq_sum_range, hlen]
  exact (sum_range_eq_sum_map _ _ _ fun j hj => by rw [nodeAt_built_merged s hj]).symm

/-- The codes GENCODES writes after BUILD cost what the merges do (42_tree.md R102). -/
theorem codeCost_built {s : State} (h2 : 2 ≤ presentCount s) :
    ∑ sym : Byte, (s.freqOf sym).toNat *
        ((s.built.commitCodes (codeTable s.built.treeCodes)).codeOf sym).len.toNat = mergeCost s.mergedNodes := by
  rw [← sum_leaves_built, (treeShape_built s (by omega)).weighted_codeLength h2, mergeCost_mergedNodes]

/-! ## Kraft's inequality -/

/-- A `PrefixFree` code without the empty word is uniquely decodable: of the first words of two equal texts one begins
the other, so they are the same. -/
theorem PrefixFree.uniquelyDecodable {P : Byte → Prop} {c : Byte → List Bool} (hc : PrefixFree P c)
    (hne : ∀ a, P a → c a ≠ []) : InformationTheory.UniquelyDecodable (c '' {a | P a}) := by
  intro L₁
  induction L₁ with
  | nil =>
    intro L₂ _ h₂ e
    cases L₂ with
    | nil => rfl
    | cons w L =>
      obtain ⟨a, ha, rfl⟩ := h₂ w (List.mem_cons_self ..)
      exact absurd (List.append_eq_nil_iff.1 e.symm).1 (hne a ha)
  | cons v L₁ ih =>
    intro L₂ h₁ h₂ e
    obtain ⟨a, ha, rfl⟩ := h₁ v (List.mem_cons_self ..)
    cases L₂ with
    | nil => exact absurd (List.append_eq_nil_iff.1 e).1 (hne a ha)
    | cons w L₂ =>
      obtain ⟨b, hb, rfl⟩ := h₂ w (List.mem_cons_self ..)
      simp only [List.flatten_cons] at e
      have hab : a = b := by
        by_contra hab
        rcases List.prefix_or_prefix_of_prefix (List.prefix_append (c a) L₁.flatten)
          (e ▸ List.prefix_append (c b) L₂.flatten) with hp | hp
        · exact hc a b ha hb hab hp
        · exact hc b a hb ha (Ne.symm hab) hp
      subst hab
      rw [ih L₂ (fun w hw => h₁ w (List.mem_cons_of_mem _ hw)) (fun w hw => h₂ w (List.mem_cons_of_mem _ hw))
        (List.append_cancel_left e)]

/-- Where a second symbol is coded, no code is empty: the empty word begins every other. -/
theorem PrefixFree.ne_nil {P : Byte → Prop} {c : Byte → List Bool} (hc : PrefixFree P c) {a b : Byte} (ha : P a)
    (hb : P b) (hab : a ≠ b) : c a ≠ [] :=
  fun e => hc a b ha hb hab (e ▸ List.nil_prefix)

/-- Kraft's inequality for a `PrefixFree` code, scaled by `2 ^ K` (42_tree.md R102). -/
theorem PrefixFree.kraft {S : Finset Byte} {c : Byte → List Bool} (hc : PrefixFree (· ∈ S) c)
    (hne : ∀ a ∈ S, c a ≠ []) {K : Nat} (hK : ∀ a ∈ S, (c a).length ≤ K) :
    ∑ a ∈ S, 2 ^ (K - (c a).length) ≤ 2 ^ K := by
  have hinj : Set.InjOn c S := fun a ha b hb e => by
    by_contra hab
    exact hc a b ha hb hab (e ▸ List.prefix_rfl)
  have hdec : InformationTheory.UniquelyDecodable ((S.image c : Finset (List Bool)) : Set (List Bool)) := by
    rw [Finset.coe_image]
    exact hc.uniquelyDecodable hne
  have hkraft := InformationTheory.kraft_mcmillan_inequality hdec
  rw [Finset.sum_image hinj, Fintype.card_bool] at hkraft
  have hscale : ∀ a ∈ S, (2 : ℝ) ^ (K - (c a).length) = 2 ^ K * (1 / 2) ^ (c a).length := fun a ha => by
    rw [pow_sub₀ _ two_ne_zero (hK a ha), one_div, inv_pow]
  have hreal : ∑ a ∈ S, (2 : ℝ) ^ (K - (c a).length) ≤ 2 ^ K := by
    rw [Finset.sum_congr rfl hscale, ← Finset.mul_sum]
    exact mul_le_of_le_one_right (by positivity) (by exact_mod_cast hkraft)
  exact_mod_cast hreal

/-! ## No other code costs less -/

/-- The present symbols' counters paired with the lengths of a code. -/
def State.codedWeights (s : State) (c : Byte → List Bool) : List (Nat × Nat) :=
  s.presentSymbols.map fun sym => ((s.freqOf sym).toNat, (c sym).length)

theorem weightedLength_codedWeights (s : State) (c : Byte → List Bool) :
    weightedLength (s.codedWeights c) = ∑ sym : Byte, (s.freqOf sym).toNat * (c sym).length := by
  rw [← sum_presentSymbols, weightedLength, State.codedWeights, List.map_map]
  rfl

theorem kraftSum_codedWeights (s : State) (c : Byte → List Bool) (K : Nat) :
    kraftSum K (s.codedWeights c) = ∑ sym ∈ s.presentSymbols.toFinset, 2 ^ (K - (c sym).length) := by
  rw [List.sum_toFinset _ (nodup_presentSymbols s), kraftSum, State.codedWeights, List.map_map]
  rfl

/-- The weights are those of the keys the merge loop starts from. -/
theorem weights_codedWeights (s : State) (c : Byte → List Bool) :
    (s.codedWeights c).map Prod.fst = (pendingFrom 0 s.leafNodes).map Pending.weight := by
  refine List.ext_getElem (by simp [State.codedWeights, length_presentSymbols]) fun h hh _ => ?_
  simp only [State.codedWeights, pendingFrom_eq, State.leafNodes, List.getElem_map, List.getElem_zipIdx, leafNode]
  exact (BitVec.toNat_setWidth_of_le (by decide)).symm

/-- The merges cost no more than a `PrefixFree` code of two or more present symbols (42_tree.md R102). -/
theorem mergeCost_le_codeCost {s : State} (h2 : 2 ≤ presentCount s) {c : Byte → List Bool}
    (hc : PrefixFree (fun sym => s.freqOf sym ≠ 0#32) c) :
    mergeCost s.mergedNodes ≤ ∑ sym : Byte, (s.freqOf sym).toNat * (c sym).length := by
  have hmem : ∀ sym, sym ∈ s.presentSymbols.toFinset ↔ s.freqOf sym ≠ 0#32 := fun sym => by
    rw [List.mem_toFinset, mem_presentSymbols]
  have hc' : PrefixFree (· ∈ s.presentSymbols.toFinset) c := by simpa only [hmem] using hc
  have hcard : 1 < s.presentSymbols.toFinset.card := by
    rw [List.toFinset_card_of_nodup (nodup_presentSymbols s), length_presentSymbols]; exact h2
  have hne : ∀ a ∈ s.presentSymbols.toFinset, c a ≠ [] := fun a ha => by
    obtain ⟨b, hb, hba⟩ := Finset.exists_mem_ne hcard a
    exact hc'.ne_nil ha hb hba.symm
  obtain ⟨K, hK⟩ : ∃ K, ∀ sym, (c sym).length ≤ K :=
    ⟨Finset.univ.sup (List.length ∘ c), fun sym => Finset.le_sup (f := List.length ∘ c) (Finset.mem_univ sym)⟩
  rw [← weightedLength_codedWeights]
  refine mergeCost_le _ _ _ (weightSum_leafNodes_lt s) _ (weights_codedWeights s c ▸ .refl _) K (fun x hx => ?_) ?_
  · obtain ⟨sym, -, rfl⟩ := List.mem_map.1 hx
    exact hK sym
  · rw [kraftSum_codedWeights]
    exact hc'.kraft hne fun a _ => hK a

/-- Settles O32: the codes written after BUILD cost what the merges do, and no `PrefixFree` code costs less. -/
theorem buildIsOptimal : Obligations.BuildIsOptimal := by
  refine fun s h2 => ⟨_, _, exec_build s, exec_gencodes_of_tree rfl, fun c hc => ?_⟩
  exact (codeCost_built h2).le.trans (mergeCost_le_codeCost h2 hc)

end Sys2Proof.Machine
end

section
/-! The code tables GENCODES writes (43_codes.md R104-R107): the entries for a tree of two or more leaves, for a single
leaf and for the empty tree, what the command keeps, and that such a table is `PrefixFree`. -/

namespace Sys2Proof.Machine

open Sys2Proof

/-! ## What GENCODES keeps -/

/-- A completed GENCODES writes the code table alone (43_codes.md R104). -/
theorem commitCodes_succeed_frame (s : State) (ct : Vector Code 256) :
    SameTree s (s.commitCodes ct).succeed ∧ SameFreq s (s.commitCodes ct).succeed ∧
    SameResults s (s.commitCodes ct).succeed ∧ SameHostRegs s (s.commitCodes ct).succeed ∧
    SameMem s (s.commitCodes ct).succeed ∧ SameOutside s (s.commitCodes ct).succeed :=
  ⟨⟨rfl, rfl, rfl, fun _ => rfl⟩, fun _ => rfl, ⟨rfl, rfl, rfl, rfl⟩, ⟨rfl, rfl, rfl, rfl, rfl⟩, fun _ => rfl,
    ⟨rfl, rfl, rfl⟩⟩

/-! ## The entries, by the size of the tree -/

/-- The empty tree gives no symbol a code (43_codes.md R105). -/
theorem codeOf_commitCodes_of_empty {s : State} (h : s.nodes = 0#9) (sym : Byte) :
    (s.commitCodes (codeTable s.treeCodes)).codeOf sym = Code.none := by
  have hnil : s.treeCodes = [] := if_pos h
  rw [codeOf_commitCodes, hnil]
  rfl

/-- A single leaf's symbol has the one-bit code `0` (43_codes.md R105). -/
theorem TreeShape.treeCodes_of_single {s : State} (T : TreeShape s 1) :
    s.treeCodes = [((s.nodeAt 0).sym, [false])] := by
  have hroot : s.root = BitVec.ofNat 9 0 := BitVec.eq_of_toNat_eq T.root_eq
  have hne : s.nodes ≠ 0#9 := fun e => absurd (e ▸ T.nodes_eq) (by decide)
  have hleaf : (s.node s.root).leaf = true := by
    rw [hroot]
    exact (T.leaf_iff 0 (by omega)).2 (by omega)
  rw [State.treeCodes, if_neg hne, if_pos hleaf, hroot]
  rfl

theorem TreeShape.codeOf_commitCodes_of_single {s : State} (T : TreeShape s 1) (sym : Byte) :
    (s.commitCodes (codeTable s.treeCodes)).codeOf sym =
      if sym = (s.nodeAt 0).sym then Code.ofBits [false] else Code.none := by
  rw [codeOf_commitCodes, T.treeCodes_of_single]
  by_cases h : sym = (s.nodeAt 0).sym
  · rw [if_pos h, h, List.lookup_cons_self]
    rfl
  · rw [if_neg h, List.lookup_cons, beq_false_of_ne h]
    rfl

section
variable {s : State} {n : Nat} (T : TreeShape s n) (h2 : 2 ≤ n)
include T h2

/-- The root of a tree of two or more leaves is internal, so the path to a leaf has a bit (43_codes.md R106). -/
theorem TreeShape.pathTo_length_pos {p : List Bool} {h : Nat} (hp : PathTo s p h) : 1 ≤ p.length := by
  obtain ⟨hend, hleaf, -⟩ := hp
  have hroot := T.root_eq
  by_contra hlt
  obtain rfl : p = [] := List.length_eq_zero_iff.1 (by omega)
  rw [follow_nil] at hend
  rw [State.nodeAt, ← hend] at hleaf
  have := (T.leaf_iff_handle (by omega)).1 hleaf
  omega

/-- The entry of a leaf's symbol holds the path to the leaf (43_codes.md R106). -/
theorem TreeShape.toBits_codeOf_commitCodes {h : Nat} (hh : h < n) {p : List Bool} (hp : PathTo s p h) :
    ((s.commitCodes (codeTable s.treeCodes)).codeOf (s.nodeAt h).sym).toBits = p := by
  have hlen := T.pathTo_length hp
  have hle := T.leaves_le
  rw [codeOf_commitCodes, T.lookup_treeCodes h2 hh hp]
  exact toBits_ofBits p (by omega)

/-- A symbol of no leaf has no code (43_codes.md R106). -/
theorem TreeShape.codeOf_commitCodes_of_no_leaf {sym : Byte} (hno : ∀ h, h < n → (s.nodeAt h).sym ≠ sym) :
    (s.commitCodes (codeTable s.treeCodes)).codeOf sym = Code.none := by
  have hlookup : s.treeCodes.lookup sym = none := List.lookup_eq_none_iff.2 fun ⟨x, p⟩ hx => by
    obtain ⟨h, hh, -, rfl⟩ := (T.mem_treeCodes_iff h2 x p).1 hx
    simpa using (hno h hh).symm
  rw [codeOf_commitCodes, hlookup]
  rfl

/-- A symbol with a code is that of a leaf, and its code is the path to it (43_codes.md R106). -/
theorem TreeShape.pathTo_toBits {sym : Byte}
    (hlen : ((s.commitCodes (codeTable s.treeCodes)).codeOf sym).len ≠ 0#8) :
    ∃ h, PathTo s ((s.commitCodes (codeTable s.treeCodes)).codeOf sym).toBits h ∧ (s.nodeAt h).sym = sym := by
  by_contra hcon
  have hno : ∀ h, h < n → (s.nodeAt h).sym ≠ sym := by
    rintro h hh rfl
    obtain ⟨p, hp⟩ := T.exists_pathTo hh
    exact hcon ⟨h, (T.toBits_codeOf_commitCodes h2 hh hp).symm ▸ hp, rfl⟩
  rw [T.codeOf_commitCodes_of_no_leaf h2 hno] at hlen
  exact hlen rfl

end

/-- Settles O33: a leaf's symbol looks up the path to the leaf in the codes of the tree, any other symbol nothing. -/
theorem gencodesAssignsPaths : Obligations.GencodesAssignsPaths := by
  refine fun s n hvalid T h2 => ⟨_, exec_gencodes_of_tree hvalid, succeeded_succeed _, rfl, fun h hh => ?_,
    fun sym hno => T.codeOf_commitCodes_of_no_leaf h2 hno, commitCodes_succeed_frame s _⟩
  obtain ⟨p, hp⟩ := T.exists_pathTo hh
  have hle := T.leaves_le
  exact ⟨p, hp, T.toBits_codeOf_commitCodes h2 hh hp, T.len_codeOf_commitCodes h2 hh hp, T.pathTo_length_pos h2 hp,
    T.pathTo_length hp, by omega⟩

/-- Settles O34: NO_TREE without a tree; otherwise the codes of the empty tree and of the single leaf. -/
theorem gencodesSmallTrees : Obligations.GencodesSmallTrees := by
  refine fun s => ⟨fun hinvalid => ?_, fun hvalid hempty => ?_, fun hvalid T => ?_⟩
  · exact ⟨_, exec_gencodes_of_no_tree hinvalid, failedWith_raise s _⟩
  · exact ⟨_, exec_gencodes_of_tree hvalid, succeeded_succeed _, rfl, codeOf_commitCodes_of_empty hempty,
      commitCodes_succeed_frame s _⟩
  · refine ⟨_, exec_gencodes_of_tree hvalid, succeeded_succeed _, rfl, fun sym => ?_, commitCodes_succeed_frame s _⟩
    refine (congrArg Code.toBits (T.codeOf_commitCodes_of_single sym)).trans ?_
    split
    · exact toBits_ofBits [false] (by decide)
    · rfl

/-! ## No code begins another -/

/-- The codes of the symbols that have one are `PrefixFree` (43_codes.md R107). -/
def PrefixFreeCodes (code : Byte → Code) : Prop :=
  PrefixFree (fun sym => (code sym).len ≠ 0#8) (fun sym => (code sym).toBits)

/-- A path that begins another one ends at the same leaf, so no two leaves' codes do (43_codes.md R107). -/
theorem TreeShape.prefixFree_treeCodes {s : State} {n : Nat} (T : TreeShape s n) (h2 : 2 ≤ n) :
    PrefixFreeCodes (s.commitCodes (codeTable s.treeCodes)).codeOf := by
  intro a b ha hb hne hpre
  obtain ⟨h, hp, rfl⟩ := T.pathTo_toBits h2 ha
  obtain ⟨k, hq, rfl⟩ := T.pathTo_toBits h2 hb
  obtain ⟨-, hend⟩ := leadsTo_prefix ((pathTo_iff ..).1 hp) ((pathTo_iff ..).1 hq) hpre
  exact hne (by rw [State.nodeAt, State.nodeAt, hend])

/-- The codes of every valid tree are prefix-free; the smaller trees code one symbol at most (43_codes.md R105, R107). -/
theorem TreeOk.prefixFree_treeCodes {s : State} (h : TreeOk s) (hvalid : s.treeValid = true) :
    PrefixFreeCodes (s.commitCodes (codeTable s.treeCodes)).codeOf := by
  rcases h with ⟨hinvalid, -⟩ | ⟨-, hempty, -⟩ | ⟨-, n, T⟩
  · exact absurd (hvalid.symm.trans hinvalid) (by decide)
  · intro a _ ha
    rw [codeOf_commitCodes_of_empty hempty] at ha
    exact absurd rfl ha
  · rcases T.leaves_pos.lt_or_eq with h2 | rfl
    · exact T.prefixFree_treeCodes h2
    · have honly : ∀ sym, ((s.commitCodes (codeTable s.treeCodes)).codeOf sym).len ≠ 0#8 →
          sym = (s.nodeAt 0).sym := by
        intro sym hlen
        by_contra hne
        rw [T.codeOf_commitCodes_of_single, if_neg hne] at hlen
        exact hlen rfl
      exact fun a b ha hb hne _ => hne ((honly a ha).trans (honly b hb).symm)

/-- Settles O35: a valid table is that of the held tree, as is the one GENCODES writes. -/
theorem codeTableIsPrefixFree : Obligations.CodeTableIsPrefixFree := by
  refine fun s hinv => ⟨fun hcodes => ?_, fun hvalid => ⟨_, exec_gencodes_of_tree hvalid, rfl,
    hinv.tree.prefixFree_treeCodes hvalid⟩⟩
  rcases hinv.codes with ⟨hinvalid, -⟩ | ⟨-, hvalid, hct⟩
  · exact absurd (hcodes.symm.trans hinvalid) (by decide)
  · have hheld : s.codeOf = (s.commitCodes (codeTable s.treeCodes)).codeOf :=
      funext fun sym => by simp only [State.codeOf, State.commitCodes_ct, ← hct]
    exact hheld ▸ hinv.tree.prefixFree_treeCodes hvalid

end Sys2Proof.Machine
end

section
/-! The encoder (44_encode.md R109-R112): what ENCODE writes for a payload that fits and which error it raises otherwise;
ENCODE_ALL as the four stages on one input, whose payload always fits. -/

namespace Sys2Proof.Machine

open Sys2Proof

/-! ## ENCODE -/

/-- ENCODE answers the codes of its input where every byte has one and all fit (44_encode.md R109). -/
theorem encodeStage_of_fits {s : State} (hvalid : s.codesValid = true) (hlen : s.inLen.toNat ≤ Config.ibufBytes)
    (hcoded : ∀ b ∈ s.inputBytes, (s.codeOf b).len ≠ 0#8)
    (hfit : payloadLength s.codeOf s.inputBytes ≤ 8 * Config.pbufBytes) :
    encodeStage s = .ok (s.encoded (payloadOf s.codeOf s.inputBytes)) :=
  (encodeStage_ok_iff s _).2 ⟨hvalid, hlen, _, packCodes_ok hcoded (by rwa [Nat.zero_add]), rfl⟩

/-- Where the packing loop fails, ENCODE raises its error (44_encode.md R109). -/
theorem encodeStage_of_error {s : State} {e : CmdError} (hvalid : s.codesValid = true)
    (hlen : s.inLen.toNat ≤ Config.ibufBytes) (hpack : packCodes s.codeOf 0 0 s.inputBytes = .error e) :
    encodeStage s = .error e := by
  rw [encodeStage, if_neg (by simp [hvalid]), if_neg (by omega), hpack]

theorem exec_encode_of_gt {s : State} (hvalid : s.codesValid = true) (hlen : s.inLen.toNat > Config.ibufBytes) :
    exec .encode s = .next (s.raise ⟨.lengthRange, s.inLen⟩) :=
  exec_of_error ((if_neg (by simp [hvalid])).trans (if_pos hlen))

theorem payloadOf_inputBytes (s : State) (code : Byte → Code) :
    payloadOf code s.inputBytes = (List.range s.inLen.toNat).flatMap (fun i => (code (s.ibuf i)).toBits) :=
  List.flatMap_map ..

/-- Payload bit `k` of a completed ENCODE (20_memory.md R69, 44_encode.md R112). -/
theorem pbit_encoded_succeed (s : State) (bits : List Bool) {k : Nat} (hk : k < 8 * ((bits.length + 7) / 8)) :
    (s.encoded bits).succeed.pbit k = bits.getD k false :=
  pbit_writePbuf { s with draws := s.draws + 1 } bits k hk

/-- A completed ENCODE writes the bytes of its payload and no others (20_memory.md R60). -/
theorem sameMemOutside_encoded (s : State) (bits : List Bool) :
    SameMemOutside pbufBase ((bits.length + 7) / 8) s (s.encoded bits).succeed :=
  sameMemOutside_writeBytes (State.encoded_mem ..) (length_payloadBytes bits).le

/-- A number of bits that PBUF holds is not cut by a 32-bit register (10_state.md R29, R33). -/
theorem toNat_ofNat_of_le_pbufBits {n : Nat} (h : n ≤ 8 * Config.pbufBytes) : (BitVec.ofNat 32 n).toNat = n :=
  (BitVec.toNat_ofNat ..).trans (Nat.mod_eq_of_lt (h.trans_lt (by decide)))

/-- Settles O36: ENCODE completes with the payload packed into PBUF. -/
theorem encodePacksCodes : Obligations.EncodePacksCodes := by
  intro s bits hbits hvalid hlen hcoded hfit
  rw [← payloadOf_inputBytes] at hbits
  subst hbits
  have hstage := encodeStage_of_fits hvalid hlen
    (fun b hb => by obtain ⟨i, hi, rfl⟩ := (mem_inputBytes s b).1 hb; exact hcoded i hi)
    (length_payloadOf s.codeOf s.inputBytes ▸ hfit)
  refine ⟨_, exec_of_ok hstage, succeeded_succeed _, fun k hk => ?_, fun k hlo hhi => ?_, sameMemOutside_encoded s _,
    toNat_ofNat_of_le_pbufBits hfit, toNat_ofNat_of_le_pbufBits (Nat.mul_le_mul_left 8 hlen),
    toNat_ofNat_of_le_pbufBits hfit, rfl, fun _ => rfl, ⟨rfl, rfl, rfl, fun _ => rfl⟩, ⟨rfl, fun _ => rfl⟩,
    ⟨rfl, rfl, rfl, rfl, rfl⟩, ⟨rfl, rfl, rfl⟩⟩
  · rw [pbit_encoded_succeed s _ (by omega), List.getD_eq_getElem _ _ hk]
  · rw [pbit_encoded_succeed s _ hhi, List.getD_eq_default _ _ hlo]

/-! ## The errors of ENCODE -/

/-- The input bytes before index `i`, the byte at `i`, and those after it. -/
theorem inputBytes_split (s : State) {i : Nat} (hi : i < s.inLen.toNat) :
    ∃ rest, s.inputBytes = (List.range i).map s.ibuf ++ s.ibuf i :: rest := by
  refine ⟨s.inputBytes.drop (i + 1), ?_⟩
  have htake : (List.range i).map s.ibuf = s.inputBytes.take i := by
    rw [State.inputBytes, ← List.map_take, List.take_range, Nat.min_eq_left hi.le]
  have hget : s.ibuf i = s.inputBytes[i]'(by simpa using hi) := by simp [State.inputBytes]
  rw [htake, hget, ← List.drop_eq_getElem_cons, List.take_append_drop]

theorem payloadLength_map_range (s : State) (code : Byte → Code) (i : Nat) :
    payloadLength code ((List.range i).map s.ibuf) = ∑ j ∈ Finset.range i, (code (s.ibuf j)).len.toNat := by
  rw [payloadLength, List.map_map]
  rfl

/-- The packing loop answers the error of the first byte that fails, as it passes over those before (44_encode.md
R109). -/
theorem packCodes_inputBytes_error {s : State} {i : Nat} {e : CmdError} (hi : i < s.inLen.toNat)
    (hcoded : ∀ j, j < i → (s.codeOf (s.ibuf j)).len ≠ 0#8)
    (hfit : ∑ j ∈ Finset.range i, (s.codeOf (s.ibuf j)).len.toNat ≤ 8 * Config.pbufBytes)
    (herr : ∀ rest, packCodes s.codeOf i (∑ j ∈ Finset.range i, (s.codeOf (s.ibuf j)).len.toNat)
      (s.ibuf i :: rest) = .error e) :
    packCodes s.codeOf 0 0 s.inputBytes = .error e := by
  obtain ⟨rest, hsplit⟩ := inputBytes_split s hi
  have hpre : ∀ b ∈ (List.range i).map s.ibuf, (s.codeOf b).len ≠ 0#8 := by
    simpa only [List.forall_mem_map, List.mem_range] using hcoded
  rw [hsplit, packCodes_skip hpre (by rwa [payloadLength_map_range, Nat.zero_add]), payloadLength_map_range]
  simp only [Nat.zero_add, List.length_map, List.length_range, herr]
  rfl

/-- Settles O37: each test of ENCODE fails with its error where the tests before it pass. -/
theorem encodeErrorsInOrder : Obligations.EncodeErrorsInOrder := by
  refine fun s => ⟨fun hinvalid => ⟨_, exec_encode_of_no_codes hinvalid, failedWith_raise s _⟩,
    fun hvalid hlen => ⟨_, exec_encode_of_gt hvalid hlen, failedWith_raise s _⟩,
    fun hvalid hlen i hi hcoded hfit => ⟨fun hnone => ?_, fun hsome hover => ?_⟩⟩
  · have hpack := packCodes_inputBytes_error hi hcoded hfit fun _ => if_pos hnone
    exact ⟨_, exec_of_error (encodeStage_of_error hvalid hlen hpack), failedWith_raise s _⟩
  · rw [Finset.sum_range_succ] at hover
    have hpack := packCodes_inputBytes_error hi hcoded hfit fun _ => (if_neg hsome).trans (if_pos hover)
    exact ⟨_, exec_of_error (encodeStage_of_error hvalid hlen hpack), failedWith_raise s _⟩

end Sys2Proof.Machine
end

section
/-! ENCODE_ALL (44_encode.md R110, R111): the codes of the counted input cost at most eight bits a byte, so the last of
its four stages always succeeds. -/

namespace Sys2Proof.Machine

open Sys2Proof

/-! ## The codes of the counted input -/

/-- The writes of BUILD and GENCODES one after the other (42_tree.md R97, 43_codes.md R104). -/
def State.coded (s : State) : State := s.built.commitCodes (codeTable s.built.treeCodes)

theorem gencodesStage_built (s : State) : gencodesStage s.built = .ok s.coded := rfl

/-- The code of the only present symbol is one bit long (43_codes.md R105). -/
theorem len_codeOf_coded_of_single {s : State} (h1 : presentCount s = 1) {sym : Byte} (hp : s.freqOf sym ≠ 0#32) :
    (s.coded.codeOf sym).len.toNat = 1 := by
  obtain ⟨h, hh, rfl⟩ := exists_leaf_built hp
  obtain rfl : h = 0 := by omega
  have T := treeShape_built s h1.ge
  rw [h1] at T
  rw [State.coded, T.codeOf_commitCodes_of_single, if_pos rfl]
  rfl

/-- Every present symbol has a code (43_codes.md R105, R106). -/
theorem len_codeOf_coded_ne_zero {s : State} {sym : Byte} (hp : s.freqOf sym ≠ 0#32) :
    (s.coded.codeOf sym).len ≠ 0#8 := by
  obtain ⟨h, hh, rfl⟩ := exists_leaf_built hp
  have T := treeShape_built s (by omega)
  intro e
  rcases T.leaves_pos.lt_or_eq with h2 | h1
  · obtain ⟨p, hpath⟩ := T.exists_pathTo hh
    have hlen : (s.coded.codeOf (s.built.nodeAt h).sym).len.toNat = p.length := T.len_codeOf_commitCodes h2 hh hpath
    rw [e] at hlen
    exact Nat.ne_of_lt (T.pathTo_length_pos h2 hpath) hlen
  · have hlen := len_codeOf_coded_of_single h1.symm hp
    rw [e] at hlen
    exact absurd hlen (by decide)

/-- The code that writes each byte as its own eight bits. -/
def fixedCode (sym : Byte) : List Bool := List.ofFn fun i : Fin 8 => sym[i]

@[simp] theorem length_fixedCode (sym : Byte) : (fixedCode sym).length = 8 := List.length_ofFn

theorem fixedCode_injective : Function.Injective fixedCode := fun _ _ e =>
  BitVec.eq_of_getElem_eq fun i hi => congrFun (List.ofFn_injective e) ⟨i, hi⟩

theorem prefixFree_fixedCode (P : Byte → Prop) : PrefixFree P fixedCode := fun _ _ _ _ hne hpre =>
  hne (fixedCode_injective (hpre.eq_of_length (by simp only [length_fixedCode])))

/-- The weighted length of the codes by the counters. -/
def State.codeCost (s : State) : Nat := ∑ sym : Byte, (s.freqOf sym).toNat * (s.coded.codeOf sym).len.toNat

theorem presentCount_eq_zero_iff (s : State) : presentCount s = 0 ↔ ∀ sym, s.freqOf sym = 0#32 := by
  simp [presentCount, Finset.filter_eq_empty_iff]

theorem codeCost_of_none {s : State} (h0 : presentCount s = 0) : s.codeCost = 0 :=
  Finset.sum_eq_zero fun sym _ => by rw [(presentCount_eq_zero_iff s).1 h0 sym]; exact Nat.zero_mul _

theorem codeCost_of_single {s : State} (h1 : presentCount s = 1) : s.codeCost = ∑ sym : Byte, (s.freqOf sym).toNat := by
  refine Finset.sum_congr rfl fun sym _ => ?_
  by_cases hp : s.freqOf sym = 0#32
  · rw [hp]; exact Nat.zero_mul _
  · rw [len_codeOf_coded_of_single h1 hp, Nat.mul_one]

/-- The codes cost no more than eight bits for each count: two or more symbols cost at most what the fixed code does
(44_encode.md R111). -/
theorem codeCost_le (s : State) : s.codeCost ≤ 8 * ∑ sym : Byte, (s.freqOf sym).toNat := by
  obtain h0 | h1 | h2 : presentCount s = 0 ∨ presentCount s = 1 ∨ 2 ≤ presentCount s := by omega
  · rw [codeCost_of_none h0]; exact Nat.zero_le _
  · rw [codeCost_of_single h1]; exact Nat.le_mul_of_pos_left _ (by decide)
  · calc s.codeCost = mergeCost s.mergedNodes := codeCost_built h2
      _ ≤ ∑ sym : Byte, (s.freqOf sym).toNat * (fixedCode sym).length :=
        mergeCost_le_codeCost h2 (prefixFree_fixedCode _)
      _ = 8 * ∑ sym : Byte, (s.freqOf sym).toNat := by
        simp only [length_fixedCode, Finset.mul_sum, Nat.mul_comm]

/-! ## The payload of the counted input -/

/-- A payload's length is the lengths of the codes, weighted by the counters COUNT writes (41_frequency.md R93). -/
theorem payloadLength_inputBytes (s : State) (code : Byte → Code) :
    payloadLength code s.inputBytes = ∑ sym : Byte, (s.counted.freqOf sym).toNat * (code sym).len.toNat := by
  simp only [toNat_freqOf_counted]
  rw [payloadLength, Finset.sum_list_map_count]
  refine Finset.sum_subset (Finset.subset_univ _) fun sym _ hsym => ?_
  rw [List.count_eq_zero_of_not_mem fun h => hsym (List.mem_toFinset.2 h), zero_smul]

theorem sum_freqOf_counted (s : State) : ∑ sym : Byte, (s.counted.freqOf sym).toNat = s.inLen.toNat := by
  simp only [toNat_freqOf_counted, sum_count_inputBytes]

theorem freqOf_counted_ne_zero {s : State} {b : Byte} (hb : b ∈ s.inputBytes) : s.counted.freqOf b ≠ 0#32 := fun e => by
  have hcount := toNat_freqOf_counted s b
  rw [e] at hcount
  exact (List.count_pos_iff.2 hb).ne hcount

/-- The payload of ENCODE_ALL: the input bytes in the codes of their own tree (44_encode.md R110). -/
def State.ownPayload (s : State) : List Bool := payloadOf s.counted.coded.codeOf s.inputBytes

theorem length_ownPayload (s : State) : s.ownPayload.length = s.counted.codeCost :=
  (length_payloadOf ..).trans (payloadLength_inputBytes s _)

theorem length_ownPayload_le (s : State) : s.ownPayload.length ≤ 8 * s.inLen.toNat := by
  rw [length_ownPayload, ← sum_freqOf_counted]
  exact codeCost_le _

/-- ENCODE of an input under the codes of its own tree succeeds (44_encode.md R111). -/
theorem encodeStage_of_ownCodes {s t : State} (hlen : s.inLen.toNat ≤ Config.ibufBytes) (hvalid : t.codesValid = true)
    (hinLen : t.inLen = s.inLen) (hinput : t.inputBytes = s.inputBytes) (hcodes : t.codeOf = s.counted.coded.codeOf) :
    encodeStage t = .ok (t.encoded s.ownPayload) := by
  have hfit := length_ownPayload_le s
  rw [State.ownPayload, length_payloadOf, ← hinput, ← hcodes] at hfit
  rw [State.ownPayload, ← hinput, ← hcodes]
  refine encodeStage_of_fits hvalid (hinLen ▸ hlen) (fun b hb => ?_)
    (hfit.trans (Nat.mul_le_mul_left 8 hlen))
  rw [hcodes]
  exact len_codeOf_coded_ne_zero (freqOf_counted_ne_zero (hinput ▸ hb))

/-! ## ENCODE_ALL -/

theorem exec_encodeAll_of_gt {s : State} (hlen : s.inLen.toNat > Config.ibufBytes) :
    exec .encodeAll s = .next (s.raise ⟨.lengthRange, s.inLen⟩) :=
  exec_of_error (if_pos hlen)

theorem exec_encodeAll_of_le {s : State} (hlen : s.inLen.toNat ≤ Config.ibufBytes) :
    exec .encodeAll s = .next (s.counted.coded.encoded s.ownPayload).succeed :=
  exec_of_ok ((encodeAllStage_ok_iff s _).2 ⟨s.counted, s.counted.coded, (countStage_ok_iff s _).2 ⟨hlen, rfl⟩,
    gencodesStage_built _, encodeStage_of_ownCodes hlen rfl rfl rfl rfl⟩)

/-- ENCODE_ALL keeps OUT_LEN, the host's registers and what is outside the block (44_encode.md R110). -/
theorem encoded_coded_counted_frame (s : State) (bits : List Bool) :
    (s.counted.coded.encoded bits).succeed.outLen = s.outLen ∧
    SameHostRegs s (s.counted.coded.encoded bits).succeed ∧ SameOutside s (s.counted.coded.encoded bits).succeed := by
  simp [SameHostRegs, SameOutside, State.coded, State.built, State.counted]

/-- The counters that stand after ENCODE_ALL are those of its COUNT (44_encode.md R110). -/
theorem sameFreq_encoded_coded (s : State) (bits : List Bool) : SameFreq s (s.coded.encoded bits).succeed :=
  fun _ => rfl

theorem SameFreq.presentCount {s t : State} (h : SameFreq s t) : presentCount t = presentCount s := by
  simp only [Sys2Proof.Machine.presentCount, h _]

/-- Settles O39: the payload of the counted input fits, so all four stages succeed. -/
theorem encodeAllAlwaysFits : Obligations.EncodeAllAlwaysFits := by
  intro s hlen
  have hpayload := length_ownPayload_le s
  have hbits : (s.counted.coded.encoded s.ownPayload).succeed.bitLen.toNat = s.ownPayload.length :=
    toNat_ofNat_of_le_pbufBits (hpayload.trans (Nat.mul_le_mul_left 8 hlen))
  have hfreq := sameFreq_encoded_coded s.counted s.ownPayload
  have hcost := hbits.trans (length_ownPayload s)
  refine ⟨_, exec_encodeAll_of_le hlen, succeeded_succeed _, rfl, rfl, fun sym => ?_, hbits.trans_le hpayload,
    fun h1 => ?_, fun h0 => BitVec.eq_of_toNat_eq ?_, toNat_ofNat_of_le_pbufBits (Nat.mul_le_mul_left 8 hlen), rfl, ?_,
    encoded_coded_counted_frame s _⟩
  · rw [hfreq, toNat_freqOf_counted, count_inputBytes]
  · rw [hcost, codeCost_of_single (hfreq.presentCount ▸ h1), sum_freqOf_counted]
  · rw [hcost, codeCost_of_none (hfreq.presentCount ▸ h0)]
    rfl
  · rw [hbits]
    exact sameMemOutside_encoded s.counted.coded s.ownPayload

/-! ## The four commands one after the other -/

/-- Written input bytes are read, not drawn, so they are the same whatever the count of draws (20_memory.md R71). -/
theorem inputBytes_of_written {s t : State} (hinLen : t.inLen = s.inLen) (hmem : t.mem = s.mem)
    (hw : ∀ i, i < s.inLen.toNat → s.mem.get? (0x10000 + i) ≠ none) : t.inputBytes = s.inputBytes := by
  rw [State.inputBytes, State.inputBytes, hinLen]
  refine List.map_congr_left fun i hi => ?_
  obtain ⟨b, hb⟩ := Option.ne_none_iff_exists'.1 (hw i (List.mem_range.1 hi))
  exact (byteAt_of_written (s := t) (hmem ▸ hb)).trans (byteAt_of_written hb).symm

/-- BUILD and GENCODES read nothing that the end of the command before them writes (60_exceptions.md R121). -/
theorem built_succeed (s : State) : s.succeed.built = s.built.succeed := rfl

theorem commitCodes_treeCodes_succeed (s : State) :
    s.succeed.commitCodes (codeTable s.succeed.treeCodes) = (s.commitCodes (codeTable s.treeCodes)).succeed := rfl

/-- Where its input is written, ENCODE after the three other commands succeeds with the payload of ENCODE_ALL. -/
theorem exec_encode_of_ownCodes {s : State} (hlen : s.inLen.toNat ≤ Config.ibufBytes)
    (hw : ∀ i, i < s.inLen.toNat → s.mem.get? (0x10000 + i) ≠ none) :
    exec .encode s.counted.coded.succeed.succeed.succeed =
      .next (s.counted.coded.succeed.succeed.succeed.encoded s.ownPayload).succeed :=
  exec_of_ok (encodeStage_of_ownCodes hlen rfl rfl (inputBytes_of_written rfl rfl hw) rfl)

/-- Settles O38: the four commands hand on the states of the four stages, their ends aside, and the last one reads the
same input. -/
theorem encodeAllIsTheFourStages : Obligations.EncodeAllIsTheFourStages := by
  refine fun s => ⟨fun hlen => ⟨_, exec_encodeAll_of_gt hlen, failedWith_raise s _⟩, fun hlen hw => ?_⟩
  have hbuild : exec .build s.counted.succeed = .next s.counted.built.succeed.succeed := by
    rw [exec_build, built_succeed]
  have hgen : exec .gencodes s.counted.built.succeed.succeed = .next s.counted.coded.succeed.succeed.succeed := by
    rw [exec_gencodes_of_tree rfl, commitCodes_treeCodes_succeed, commitCodes_treeCodes_succeed, State.coded]
  exact ⟨_, _, _, _, _, exec_count_of_le hlen, hbuild, hgen, exec_encode_of_ownCodes hlen hw,
    exec_encodeAll_of_le hlen, fun _ => rfl, fun herr => absurd rfl herr⟩

end Sys2Proof.Machine
end

section
/-! The decoder (45_decode.md R114-R119): what a completed DECODE writes and keeps; what it decodes under the empty tree,
a single leaf and two or more leaves; that it reads the tree, BIT_LEN and the payload bits alone. -/

namespace Sys2Proof.Machine

open Sys2Proof

/-! ## The end of DECODE -/

theorem exec_decode_of_ok {s : State} {out : List Byte} (hvalid : s.treeValid = true)
    (hlen : s.bitLen.toNat ≤ 8 * Config.pbufBytes) (hout : s.decodedBytes = .ok out) :
    exec .decode s = .next (s.decoded out).succeed :=
  exec_of_ok ((decodeStage_ok_iff s _).2 ⟨hvalid, hlen, out, hout, rfl⟩)

theorem exec_decode_of_error {s : State} {e : CmdError} (hvalid : s.treeValid = true)
    (hlen : s.bitLen.toNat ≤ 8 * Config.pbufBytes) (hout : s.decodedBytes = .error e) :
    exec .decode s = .next (s.raise e) := by
  have hstage : decodeStage s = .error e := by
    rw [decodeStage, if_neg (by simp [hvalid]), if_neg (by omega), hout]
  exact exec_of_error hstage

/-- A completed DECODE writes OBUF and OUT_LEN alone (45_decode.md R114). -/
theorem decoded_succeed_frame (s : State) (out : List Byte) :
    SameTree s (s.decoded out).succeed ∧ SameCodes s (s.decoded out).succeed ∧ SameFreq s (s.decoded out).succeed ∧
    SameHostRegs s (s.decoded out).succeed ∧ (s.decoded out).succeed.bitLen = s.bitLen ∧
    (s.decoded out).succeed.statInBits = s.statInBits ∧ (s.decoded out).succeed.statOutBits = s.statOutBits ∧
    SameOutside s (s.decoded out).succeed :=
  ⟨⟨rfl, rfl, rfl, fun _ => rfl⟩, ⟨rfl, fun _ => rfl⟩, fun _ => rfl, ⟨rfl, rfl, rfl, rfl, rfl⟩, rfl, rfl, rfl,
    ⟨rfl, rfl, rfl⟩⟩

/-- The decoded bytes stand in OBUF in order (45_decode.md R114). -/
theorem get?_decoded_succeed (s : State) {out : List Byte} {j : Nat} (hj : j < out.length) :
    (s.decoded out).succeed.mem.get? (obufBase + j) = some out[j] := by
  rw [State.succeed_mem, State.decoded_mem, Memory.get?_writeBytes, if_pos ⟨by omega, by omega⟩,
    Nat.add_sub_cancel_left, List.getElem?_eq_getElem hj]

/-- OBUF at and after OUT_LEN is not written (45_decode.md R114). -/
theorem sameMemOutside_decoded (s : State) {out : List Byte} {n : Nat} (h : out.length = n) :
    SameMemOutside obufBase n s (s.decoded out).succeed :=
  sameMemOutside_writeBytes (State.decoded_mem ..) h.le

/-- A number of bytes that OBUF holds is not cut by OUT_LEN (10_state.md R30). -/
theorem toNat_outLen_decoded_succeed (s : State) {out : List Byte} (h : out.length ≤ Config.obufBytes) :
    (s.decoded out).succeed.outLen.toNat = out.length :=
  (BitVec.toNat_ofNat ..).trans (Nat.mod_eq_of_lt (h.trans_lt (by decide)))

/-! ## The empty tree -/

theorem decodedBytes_of_empty {s : State} (hempty : s.nodes = 0#9) (hlen : s.bitLen = 0#32) :
    s.decodedBytes = .ok [] := by
  rw [State.decodedBytes, if_pos hempty, if_neg (not_not.2 hlen)]

theorem decodedBytes_of_empty_of_ne {s : State} (hempty : s.nodes = 0#9) (hlen : s.bitLen ≠ 0#32) :
    s.decodedBytes = .error ⟨.inconsistentPayload, 0#32⟩ := by
  rw [State.decodedBytes, if_pos hempty, if_pos hlen]

/-- Settles O40: no bits decode to no bytes, whose write leaves every buffer byte as it is. -/
theorem decodeWithEmptyTree : Obligations.DecodeWithEmptyTree := by
  refine fun s hvalid hempty => ⟨fun hzero => ?_, fun hne hlen => ?_⟩
  · have hlen : s.bitLen.toNat ≤ 8 * Config.pbufBytes := by rw [hzero]; exact Nat.zero_le _
    exact ⟨_, exec_decode_of_ok hvalid hlen (decodedBytes_of_empty hempty hzero), succeeded_succeed _, rfl,
      fun a => sameMemOutside_decoded s (out := []) (n := 0) rfl a (by omega), decoded_succeed_frame s []⟩
  · exact ⟨_, exec_decode_of_error hvalid hlen (decodedBytes_of_empty_of_ne hempty hne), failedWith_raise s _⟩

/-! ## What the size of the tree decides -/

section
variable {s : State} {n : Nat} (T : TreeShape s n)
include T

/-- Only the empty tree has no entries (10_state.md R49). -/
theorem TreeShape.nodes_ne_zero : s.nodes ≠ 0#9 := by
  intro e
  have hnodes := T.nodes_eq
  have hpos := T.leaves_pos
  rw [e, BitVec.toNat_zero] at hnodes
  omega

/-- The root is a leaf exactly when it is the only one (10_state.md R48). -/
theorem TreeShape.leaf_root_iff : (s.node s.root).leaf = true ↔ n = 1 := by
  have hpos := T.leaves_pos
  have hroot := T.root_eq
  rw [T.leaf_iff_handle (by omega), hroot]
  omega

theorem TreeShape.leaf_root_of_two_le (h2 : 2 ≤ n) : (s.node s.root).leaf = false := by
  rw [← Bool.not_eq_true, T.leaf_root_iff]
  omega

end

/-! ## A single leaf -/

section
variable {s : State} (T : TreeShape s 1)
include T

theorem TreeShape.node_root_of_single : s.node s.root = s.nodeAt 0 :=
  congrArg s.node (BitVec.eq_of_toNat_eq T.root_eq : s.root = BitVec.ofNat 9 0)

/-- Each bit gives the leaf's symbol, whatever the bit (45_decode.md R116). -/
theorem TreeShape.decodedBytes_of_single (hlen : s.bitLen.toNat ≤ Config.obufBytes) :
    s.decodedBytes = .ok (List.replicate s.bitLen.toNat (s.nodeAt 0).sym) := by
  rw [State.decodedBytes, if_neg T.nodes_ne_zero, if_pos (T.leaf_root_iff.2 rfl), if_neg (Nat.not_lt.2 hlen),
    T.node_root_of_single]

theorem TreeShape.decodedBytes_of_single_of_gt (hlen : s.bitLen.toNat > Config.obufBytes) :
    s.decodedBytes = .error ⟨.outputOverflow, BitVec.ofNat 32 Config.obufBytes⟩ := by
  rw [State.decodedBytes, if_neg T.nodes_ne_zero, if_pos (T.leaf_root_iff.2 rfl), if_pos hlen]

end

/-- Settles O41: the decoded bytes are BIT_LEN copies of the leaf's symbol, or too many for OBUF. -/
theorem decodeWithSingleLeaf : Obligations.DecodeWithSingleLeaf := by
  refine fun s hvalid T => ⟨fun hlen => ?_, fun hgt hlen => ?_⟩
  · have hout := T.decodedBytes_of_single hlen
    have hcount : (List.replicate s.bitLen.toNat (s.nodeAt 0).sym).length = s.bitLen.toNat := List.length_replicate
    refine ⟨_, exec_decode_of_ok hvalid (hlen.trans (by decide)) hout, succeeded_succeed _, BitVec.eq_of_toNat_eq ?_,
      fun j hj => ?_, sameMemOutside_decoded s hcount, decoded_succeed_frame s _⟩
    · rw [toNat_outLen_decoded_succeed s (length_decodedBytes hout), hcount]
    · exact (get?_decoded_succeed s (hcount.symm ▸ hj)).trans (congrArg some (List.getElem_replicate _))
  · exact ⟨_, exec_decode_of_error hvalid hlen (T.decodedBytes_of_single_of_gt hgt), failedWith_raise s _⟩

/-! ## Two or more leaves -/

section
variable {s : State} {n : Nat} (T : TreeShape s n) (h2 : 2 ≤ n)
include T h2

theorem TreeShape.decodedBytes_of_two_le : s.decodedBytes = walkBits s.node s.root s.root 0 0 0 s.payloadBits := by
  rw [State.decodedBytes, if_neg T.nodes_ne_zero, if_neg (by simp [T.leaf_root_of_two_le h2])]

variable {cw : List (List Bool × Nat)} (hcw : ∀ c ∈ cw, PathTo s c.1 c.2)
include hcw

/-- Whole codewords give their symbols, and the walk goes on from the root (45_decode.md R115). -/
theorem TreeShape.decodedBytes_codewords_append {rest : List Bool} (hfit : cw.length ≤ Config.obufBytes)
    (hbits : s.payloadBits = cw.flatMap Prod.fst ++ rest) :
    s.decodedBytes = (walkBits s.node s.root s.root (cw.flatMap Prod.fst).length (cw.flatMap Prod.fst).length cw.length
      rest).map (cw.map (fun c => (s.nodeAt c.2).sym) ++ ·) := by
  have hleads : ∀ c ∈ cw.map (Prod.map id (BitVec.ofNat 9)), LeadsTo s s.root c.1 c.2 :=
    List.forall_mem_map.2 fun c hc => (pathTo_iff ..).1 (hcw c hc)
  have hwalk := walkBits_codewords (T.leaf_root_of_two_le h2) _ hleads rest 0 0 (by simpa using hfit)
  simp only [List.flatMap_map, List.map_map, List.length_map, Nat.zero_add] at hwalk
  rw [T.decodedBytes_of_two_le h2, hbits]
  exact hwalk

theorem TreeShape.decodedBytes_codewords (hfit : cw.length ≤ Config.obufBytes)
    (hbits : s.payloadBits = cw.flatMap Prod.fst) :
    s.decodedBytes = .ok (cw.map fun c => (s.nodeAt c.2).sym) := by
  rw [T.decodedBytes_codewords_append h2 hcw hfit (rest := []) (by rw [hbits, List.append_nil]), walkBits,
    if_neg (not_not.2 rfl), Except.map, List.append_nil]

/-- Bits that lead to internal nodes alone end below the root, since every bit descends (45_decode.md R118). -/
theorem TreeShape.decodedBytes_unfinished {q : List Bool} (hfit : cw.length ≤ Config.obufBytes)
    (hbits : s.payloadBits = cw.flatMap Prod.fst ++ q) (hne : q ≠ [])
    (hinner : ∀ pre, pre <+: q → (s.node (s.follow s.root pre)).leaf = false) :
    s.decodedBytes = .error ⟨.inconsistentPayload, BitVec.ofNat 32 (cw.flatMap Prod.fst).length⟩ := by
  have hbelow : s.follow s.root q ≠ s.root := by
    intro e
    have hle := T.innerPath_le fun pre hpre _ => hinner pre hpre
    have hpos := List.length_pos_iff.2 hne
    rw [e, T.root_eq] at hle
    omega
  rw [T.decodedBytes_codewords_append h2 hcw hfit hbits, walkBits_unfinished (fun pre hpre _ => hinner pre hpre) hbelow]
  rfl

/-- A codeword after as many as OBUF holds overflows at its first bit (45_decode.md R114). -/
theorem TreeShape.decodedBytes_overflow {c : List Bool × Nat} {rest : List Bool} (hc : PathTo s c.1 c.2)
    (hfull : cw.length = Config.obufBytes) (hbits : s.payloadBits = cw.flatMap Prod.fst ++ (c.1 ++ rest)) :
    s.decodedBytes = .error ⟨.outputOverflow, BitVec.ofNat 32 (cw.flatMap Prod.fst).length⟩ := by
  have hne : c.1 ≠ [] := List.length_pos_iff.1 (T.pathTo_length_pos h2 hc)
  rw [T.decodedBytes_codewords_append h2 hcw hfull.le hbits, walkBits_leadsTo ((pathTo_iff ..).1 hc) hne, if_pos hfull]
  rfl

end

/-- Settles O42: the decoded bytes are the symbols of the codewords' leaves. -/
theorem decodeWalksCodewords : Obligations.DecodeWalksCodewords := by
  intro s n cw hvalid T h2 hlen hcw hbits hfit
  have hout := T.decodedBytes_codewords h2 (fun c hc => (hcw c hc).2) hfit hbits
  have hcount : (cw.map fun c => (s.nodeAt c.2).sym).length = cw.length := List.length_map ..
  refine ⟨_, exec_decode_of_ok hvalid hlen hout, succeeded_succeed _, ?_, fun j hj => ?_,
    sameMemOutside_decoded s hcount, decoded_succeed_frame s _⟩
  · rw [toNat_outLen_decoded_succeed s (length_decodedBytes hout), hcount]
  · exact (get?_decoded_succeed s (hcount.symm ▸ hj)).trans (congrArg some (List.getElem_map ..))

/-- Settles O43: the walk ends inside the tree, and an error commits nothing. -/
theorem decodeUnfinishedCodewordFails : Obligations.DecodeUnfinishedCodewordFails :=
  fun s _ _ _ hvalid T h2 hlen hcw hbits hfit hne hinner => ⟨_, exec_decode_of_error hvalid hlen
    (T.decodedBytes_unfinished h2 (fun c hc => (hcw c hc).2) hfit hbits hne hinner), failedWith_raise s _⟩

/-- Settles O44: the first 65536 codewords fill OBUF, and the next one overflows. -/
theorem decodeOverflowFails : Obligations.DecodeOverflowFails := by
  intro s n cw c rest hvalid T h2 hlen hcw hfull hbits
  obtain ⟨⟨-, hc⟩, hcw⟩ := List.forall_mem_cons.1 hcw
  rw [List.append_assoc] at hbits
  exact ⟨_, exec_decode_of_error hvalid hlen
    (T.decodedBytes_overflow h2 (fun d hd => (hcw d hd).2) hc hfull hbits), failedWith_raise s _⟩

/-! ## What DECODE reads -/

section
variable {s s' : State} (htree : SameTree s s') (hlen : s'.bitLen = s.bitLen)
  (hbits : ∀ k, k < s.bitLen.toNat → s'.pbit k = s.pbit k)
include htree hlen hbits

theorem decodedBytes_congr : s'.decodedBytes = s.decodedBytes := by
  obtain ⟨-, hnodes, hroot, hnode⟩ := htree
  have hfun : s'.node = s.node := funext hnode
  have hpayload : s'.payloadBits = s.payloadBits := by
    rw [State.payloadBits, State.payloadBits, hlen]
    exact List.map_congr_left fun k hk => hbits k (List.mem_range.1 hk)
  rw [State.decodedBytes, State.decodedBytes, hnodes, hroot, hfun, hlen, hpayload]

/-- DECODE raises the same error in both states, or commits the same bytes (45_decode.md R114). -/
theorem decodeStage_congr : (∃ e, decodeStage s = .error e ∧ decodeStage s' = .error e) ∨
    ∃ out, decodeStage s = .ok (s.decoded out) ∧ decodeStage s' = .ok (s'.decoded out) := by
  rw [decodeStage, decodeStage, htree.1, hlen, decodedBytes_congr htree hlen hbits]
  split
  · exact .inl ⟨_, rfl, rfl⟩
  · split
    · exact .inl ⟨_, rfl, rfl⟩
    · cases s.decodedBytes with
      | ok out => exact .inr ⟨out, rfl, rfl⟩
      | error e => exact .inl ⟨e, rfl, rfl⟩

end

/-- Settles O45: both states end by the same error, or by the same bytes, which stand in OBUF alike. -/
theorem decodeReadsOnlyPayloadBits : Obligations.DecodeReadsOnlyPayloadBits := by
  intro s s' htree hlen hbits
  rcases decodeStage_congr htree hlen hbits with ⟨e, hs, hs'⟩ | ⟨out, hs, hs'⟩
  · exact ⟨_, _, exec_of_error hs, exec_of_error hs', rfl, rfl, fun hok => absurd hok e.code.code_range.1⟩
  · refine ⟨_, _, exec_of_ok hs, exec_of_ok hs', rfl, rfl, fun _ => ⟨rfl, fun j hj => ?_⟩⟩
    have hj : j < out.length := hj.trans_le (Nat.mod_le ..)
    exact (get?_decoded_succeed s' hj).trans (get?_decoded_succeed s hj).symm

end Sys2Proof.Machine
end

section
/-! DECODE after ENCODE_ALL (45_decode.md R120): the payload ENCODE_ALL leaves is read back from PBUF bit by bit, and
under the tree of the counted input it decodes to that input, whatever the number of distinct symbols. -/

namespace Sys2Proof.Machine

open Sys2Proof

/-! ## The payload read back -/

/-- Written payload bytes are read, not drawn: a state that shares them has the payload bits (20_memory.md R70, R71). -/
theorem pbit_of_encodedBytes {s u : State} {bits : List Bool} {k : Nat} (hk : k < 8 * ((bits.length + 7) / 8))
    (hmem : u.mem.get? (pbufBase + (k >>> 3)) = (s.encoded bits).succeed.mem.get? (pbufBase + (k >>> 3))) :
    u.pbit k = bits.getD k false := by
  rw [← pbit_writePbuf { s with draws := u.draws } bits k hk]
  simp only [State.pbit, State.pbuf, State.byteAt, hmem]
  rfl

theorem payloadBits_of_encodedBytes {s u : State} {bits : List Bool} (hfit : bits.length ≤ 8 * Config.pbufBytes)
    (hlen : u.bitLen = (s.encoded bits).succeed.bitLen)
    (hmem : ∀ k, k < Config.pbufBytes → u.mem.get? (pbufBase + k) = (s.encoded bits).succeed.mem.get? (pbufBase + k)) :
    u.payloadBits = bits := by
  have hcount : u.bitLen.toNat = bits.length := by rw [hlen]; exact toNat_ofNat_of_le_pbufBits hfit
  refine List.ext_getElem (by rw [length_payloadBits, hcount]) fun k _ hk => ?_
  have hbyte : k >>> 3 < Config.pbufBytes := by rw [Nat.shiftRight_eq_div_pow]; omega
  simp only [State.payloadBits, List.getElem_map, List.getElem_range]
  rw [pbit_of_encodedBytes (by omega) (hmem _ hbyte), List.getD_eq_getElem _ _ hk]

/-! ## The input decoded -/

theorem inputBytes_of_none {s : State} (h0 : presentCount s.counted = 0) : s.inputBytes = [] :=
  List.eq_nil_iff_forall_not_mem.2 fun b hb =>
    freqOf_counted_ne_zero hb ((presentCount_eq_zero_iff s.counted).1 h0 b)

/-- An input of one distinct symbol is that symbol over and over (45_decode.md R116). -/
theorem inputBytes_of_single {s : State} (h1 : presentCount s.counted = 1) :
    s.inputBytes = List.replicate s.inLen.toNat (s.counted.built.nodeAt 0).sym := by
  refine List.eq_replicate_iff.2 ⟨length_inputBytes s, fun b hb => ?_⟩
  obtain ⟨h, hh, rfl⟩ := exists_leaf_built (freqOf_counted_ne_zero hb)
  obtain rfl : h = 0 := by omega
  rfl

theorem length_ownPayload_of_single {s : State} (h1 : presentCount s.counted = 1) :
    s.ownPayload.length = s.inLen.toNat := by
  rw [length_ownPayload, codeCost_of_single h1, sum_freqOf_counted]

/-- The code of an input byte is the path to the leaf of that byte (43_codes.md R106). -/
theorem exists_leaf_pathTo_code {s : State} (h2 : 2 ≤ presentCount s.counted) {b : Byte} (hb : b ∈ s.inputBytes) :
    ∃ h, PathTo s.counted.built (s.counted.coded.codeOf b).toBits h ∧ (s.counted.built.nodeAt h).sym = b :=
  (treeShape_built s.counted (by omega)).pathTo_toBits h2 (len_codeOf_coded_ne_zero (freqOf_counted_ne_zero hb))

/-- Under the tree of the counted input, the payload of the input decodes to the input (45_decode.md R120). -/
theorem decodedBytes_of_ownPayload {s u : State} (hlen : s.inLen.toNat ≤ Config.obufBytes)
    (htree : SameTree s.counted.built u) (hbits : u.payloadBits = s.ownPayload) :
    u.decodedBytes = .ok s.inputBytes := by
  have hcount : u.bitLen.toNat = s.ownPayload.length := by rw [← hbits, length_payloadBits]
  obtain h0 | h1 | h2 : presentCount s.counted = 0 ∨ presentCount s.counted = 1 ∨ 2 ≤ presentCount s.counted := by omega
  · have hzero : u.bitLen = 0#32 := by
      refine BitVec.eq_of_toNat_eq ?_
      rw [hcount, length_ownPayload, codeCost_of_none h0]
      rfl
    rw [inputBytes_of_none h0]
    exact decodedBytes_of_empty (htree.2.1.trans (emptyTree_built h0).1) hzero
  · have T := htree.treeShape (treeShape_built s.counted h1.ge)
    rw [h1] at T
    rw [length_ownPayload_of_single h1] at hcount
    rw [inputBytes_of_single h1, T.decodedBytes_of_single (hcount.trans_le hlen), hcount, htree.nodeAt]
  · choose! leaf hpath hsym using fun b (hb : b ∈ s.inputBytes) => exists_leaf_pathTo_code h2 hb
    have hout := (htree.treeShape (treeShape_built s.counted (by omega))).decodedBytes_codewords h2
      (cw := s.inputBytes.map fun b => ((s.counted.coded.codeOf b).toBits, leaf b))
      (List.forall_mem_map.2 fun b hb => htree.pathTo (hpath b hb))
      (by rwa [List.length_map, length_inputBytes]) (by rw [hbits, List.flatMap_map]; rfl)
    rw [hout, List.map_map]
    have hid : ∀ b ∈ s.inputBytes, (u.nodeAt (leaf b)).sym = b := fun b hb => by rw [htree.nodeAt, hsym b hb]
    exact congrArg Except.ok ((List.map_congr_left hid).trans (List.map_id _))

/-- Settles O46: the payload is read back from the kept bytes and decodes to the input. -/
theorem decodeInvertsEncodeAll : Obligations.DecodeInvertsEncodeAll := by
  refine fun s hlen hw => ⟨_, exec_encodeAll_of_le hlen, succeeded_succeed _, fun u htree hbitLen hmem => ?_⟩
  have hfit : s.ownPayload.length ≤ 8 * Config.pbufBytes := (length_ownPayload_le s).trans (Nat.mul_le_mul_left 8 hlen)
  have hbits := payloadBits_of_encodedBytes hfit hbitLen hmem
  have hout := decodedBytes_of_ownPayload (u := u) hlen htree hbits
  have hrange : u.bitLen.toNat ≤ 8 * Config.pbufBytes := by rwa [← length_payloadBits, hbits]
  refine ⟨_, exec_decode_of_ok htree.1 hrange hout, succeeded_succeed _, BitVec.eq_of_toNat_eq ?_, fun i hi => ?_⟩
  · rw [toNat_outLen_decoded_succeed u (length_decodedBytes hout), length_inputBytes]
  · obtain ⟨b, hb⟩ := Option.ne_none_iff_exists'.1 (hw i hi)
    have hi : i < s.inputBytes.length := by rwa [length_inputBytes]
    have hbyte : s.inputBytes[i] = b := by
      simp only [State.inputBytes, List.getElem_map, List.getElem_range]
      exact byteAt_of_written hb
    rw [hb, ← hbyte]
    exact get?_decoded_succeed u hi

end Sys2Proof.Machine
end

section
/-! How a transition ends (60_exceptions.md R121-R131): every command completes with a listed result, an error commits
nothing else, which errors each command can raise and in which order, and what the interrupt follows. -/

namespace Sys2Proof.Machine

open Sys2Proof

/-! ## The end of every command -/

/-- No command writes CMD or a register that only the host writes (10_state.md R23, R27, R28, R36, R40). -/
theorem stageOf_sameHostRegs {i : Instr} {s t : State} (h : stageOf i s = .ok t) : SameHostRegs s t := by
  cases i with
  | nop | clear | build => cases h; exact ⟨rfl, rfl, rfl, rfl, rfl⟩
  | count => obtain ⟨-, rfl⟩ := (countStage_ok_iff s t).1 h; exact ⟨rfl, rfl, rfl, rfl, rfl⟩
  | gencodes => obtain ⟨-, rfl⟩ := (gencodesStage_ok_iff s t).1 h; exact ⟨rfl, rfl, rfl, rfl, rfl⟩
  | encode => obtain ⟨-, -, bits, -, rfl⟩ := (encodeStage_ok_iff s t).1 h; exact ⟨rfl, rfl, rfl, rfl, rfl⟩
  | decode => obtain ⟨-, -, out, -, rfl⟩ := (decodeStage_ok_iff s t).1 h; exact ⟨rfl, rfl, rfl, rfl, rfl⟩
  | encodeAll =>
    obtain ⟨s₁, s₃, h₁, h₃, h₄⟩ := (encodeAllStage_ok_iff s t).1 h
    obtain ⟨-, rfl⟩ := (countStage_ok_iff s s₁).1 h₁
    obtain ⟨-, rfl⟩ := (gencodesStage_ok_iff _ s₃).1 h₃
    obtain ⟨-, -, bits, -, rfl⟩ := (encodeStage_ok_iff _ t).1 h₄
    exact ⟨rfl, rfl, rfl, rfl, rfl⟩

theorem coreStep_sameHostRegs {s t : State} (h : coreStep s = .next t) : SameHostRegs s t := by
  rcases coreStep_cases h with ⟨i, s', -, hs, rfl⟩ | ⟨e, rfl⟩
  · exact (stageOf_sameHostRegs hs :)
  · exact ⟨rfl, rfl, rfl, rfl, rfl⟩

/-- A command ends with a listed code, and with no information word on success (60_exceptions.md R121, R123). -/
theorem coreStep_result {s t : State} (h : coreStep s = .next t) :
    t.err.toNat ≤ 8 ∧ (t.err = 0#8 → t.errInfo = 0#32) := by
  rcases coreStep_cases h with ⟨i, s', -, -, rfl⟩ | ⟨e, rfl⟩
  · exact ⟨Nat.zero_le _, fun _ => rfl⟩
  · obtain ⟨hne, hle⟩ := e.code.code_range
    exact ⟨hle, fun h0 => absurd h0 hne⟩

/-- Settles O47: a success has ERR = 0, and an error moves nothing else. -/
theorem errorsCommitNothing : Obligations.ErrorsCommitNothing := by
  intro s t h hne
  rcases coreStep_cases h with ⟨i, s', -, -, rfl⟩ | ⟨e, rfl⟩
  · exact absurd rfl hne
  · exact failedWith_raise s e

/-- Settles O48, part by part of what the core's step leaves. -/
theorem everyCommandCompletes : Obligations.EveryCommandCompletes := by
  intro s
  obtain ⟨t, ht⟩ := exists_coreStep s
  obtain ⟨hbusy, hdone⟩ := coreStep_completes ht
  obtain ⟨hcode, hinfo⟩ := coreStep_result ht
  exact ⟨t, ht, hbusy, hdone, hcode, hinfo, coreStep_sameHostRegs ht, coreStep_sameOutside ht⟩

/-! ## The errors each command can raise -/

/-- The packing loop fails at a byte without a code or at one whose code does not fit (44_encode.md R109). -/
theorem packCodes_error_code {code : Byte → Code} {i t : Nat} {bs : List Byte} {e : CmdError}
    (h : packCodes code i t bs = .error e) : e.code ∈ [.unknownSymbol, .payloadOverflow] := by
  induction bs generalizing i t with
  | nil => cases h
  | cons b bs ih =>
    rw [packCodes] at h
    split at h
    · cases h; simp
    · split at h
      · cases h; simp
      · split at h
        · cases h
        · cases h; exact ih ‹_›

/-- The walk fails at a symbol too many or at an unfinished codeword (45_decode.md R114, R118). -/
theorem walkBits_error_code {node : Handle → Node} {root h : Handle} {start k m : Nat} {bits : List Bool} {e : CmdError}
    (hw : walkBits node root h start k m bits = .error e) : e.code ∈ [.inconsistentPayload, .outputOverflow] := by
  induction bits generalizing h start k m with
  | nil =>
    rw [walkBits] at hw
    split at hw <;> cases hw
    simp
  | cons b bits ih =>
    rw [walkBits] at hw
    generalize (if b then (node h).right else (node h).left) = h' at hw
    split at hw
    · split at hw
      · cases hw; simp
      · split at hw
        · cases hw
        · cases hw; exact ih ‹_›
    · exact ih hw

theorem decodedBytes_error_code {s : State} {e : CmdError} (h : s.decodedBytes = .error e) :
    e.code ∈ [.inconsistentPayload, .outputOverflow] := by
  unfold State.decodedBytes at h
  split at h
  · split at h <;> cases h
    simp
  · split at h
    · split at h <;> cases h
      simp
    · exact walkBits_error_code h

theorem countStage_error_code {s : State} {e : CmdError} (h : countStage s = .error e) : e.code ∈ [.lengthRange] := by
  unfold countStage at h
  split at h <;> cases h
  simp

theorem gencodesStage_error_code {s : State} {e : CmdError} (h : gencodesStage s = .error e) : e.code ∈ [.noTree] := by
  unfold gencodesStage at h
  split at h <;> cases h
  simp

theorem encodeStage_error_code {s : State} {e : CmdError} (h : encodeStage s = .error e) :
    e.code ∈ [.noCodes, .lengthRange, .unknownSymbol, .payloadOverflow] := by
  unfold encodeStage at h
  split at h
  · cases h; simp
  · split at h
    · cases h; simp
    · split at h <;> cases h
      exact List.mem_append_right [.noCodes, .lengthRange] (packCodes_error_code ‹_›)

theorem decodeStage_error_code {s : State} {e : CmdError} (h : decodeStage s = .error e) :
    e.code ∈ [.noTree, .lengthRange, .inconsistentPayload, .outputOverflow] := by
  unfold decodeStage at h
  split at h
  · cases h; simp
  · split at h
    · cases h; simp
    · split at h <;> cases h
      exact List.mem_append_right [.noTree, .lengthRange] (decodedBytes_error_code ‹_›)

/-- A command ends with code 0 or with that of an error its pseudocode answers (60_exceptions.md R121). -/
theorem exec_err_mem {i : Instr} {s : State} {codes : List ErrorCode}
    (h : ∀ e, stageOf i s = .error e → e.code ∈ codes) :
    ∃ t, exec i s = .next t ∧ t.err ∈ 0x00#8 :: codes.map ErrorCode.code := by
  cases hs : stageOf i s with
  | ok t => exact ⟨_, exec_of_ok hs, List.mem_cons_self⟩
  | error e => exact ⟨_, exec_of_error hs, List.mem_cons_of_mem _ (List.mem_map_of_mem (h e hs))⟩

/-- ENCODE_ALL ends with code 0 where its input is in range, since the payload of its own codes fits (44_encode.md
R111). -/
theorem exec_encodeAll_err (s : State) : ∃ t, exec .encodeAll s = .next t ∧ t.err ∈ [0x00#8, 0x04#8] := by
  by_cases hlen : s.inLen.toNat ≤ Config.ibufBytes
  · exact ⟨_, exec_encodeAll_of_le hlen, List.mem_cons_self⟩
  · exact ⟨_, exec_encodeAll_of_gt (not_le.1 hlen), List.mem_cons_of_mem _ List.mem_cons_self⟩

/-- Settles O49, command by command: NOP, CLEAR and BUILD complete, ENCODE_ALL completes or raises LENGTH_RANGE, each
other one raises what its pseudocode answers. -/
theorem errorCodesByCommand : Obligations.ErrorCodesByCommand := by
  intro s
  obtain ⟨t, ht, herr⟩ := exec_encodeAll_err s
  exact ⟨⟨_, exec_nop s, rfl⟩, ⟨_, exec_of_ok (i := .clear) rfl, rfl⟩,
    exec_err_mem (i := .count) (codes := [.lengthRange]) fun _ => countStage_error_code, ⟨_, exec_build s, rfl⟩,
    exec_err_mem (i := .gencodes) (codes := [.noTree]) fun _ => gencodesStage_error_code,
    exec_err_mem (i := .encode) (codes := [.noCodes, .lengthRange, .unknownSymbol, .payloadOverflow])
      fun _ => encodeStage_error_code,
    exec_err_mem (i := .decode) (codes := [.noTree, .lengthRange, .inconsistentPayload, .outputOverflow])
      fun _ => decodeStage_error_code,
    t, ht, List.mem_append_left [0x06#8] herr⟩

/-! ## The order of the checks -/

theorem exec_decode_of_gt {s : State} (hvalid : s.treeValid = true) (hlen : s.bitLen.toNat > 8 * Config.pbufBytes) :
    exec .decode s = .next (s.raise ⟨.lengthRange, s.bitLen⟩) :=
  exec_of_error ((if_neg (by simp [hvalid])).trans (if_pos hlen))

/-- Settles O50: each command raises the error of its first test that fails. -/
theorem preconditionBeforeLength : Obligations.PreconditionBeforeLength := fun s =>
  ⟨fun hinvalid => ⟨_, exec_decode_of_no_tree hinvalid, failedWith_raise s _⟩,
    fun hvalid hlen => ⟨_, exec_decode_of_gt hvalid hlen, failedWith_raise s _⟩,
    fun hinvalid => ⟨_, exec_encode_of_no_codes hinvalid, failedWith_raise s _⟩,
    fun hvalid hlen => ⟨_, exec_encode_of_gt hvalid hlen, failedWith_raise s _⟩⟩

/-! ## Every transition has an outcome -/

/-- While BUSY = 0, the core's turn passes (60_exceptions.md R121, R139). -/
theorem step_of_coreNext_idle {s : State} (hidle : s.busy = false) (hc : s.coreNext) : step s = .next s.popInput := by
  rcases hc with hi | hi
  · rw [popInput_of_nil hi]
    simp [step, hi, coreTurn, hidle]
  · obtain ⟨rest, hi⟩ := List.head?_eq_some_iff.1 hi
    rw [popInput_eq hi]
    simp [step, hi, coreTurn, hidle]

/-- Settles O5: the core's turn is its step on the latched word, or passes. -/
theorem stepRunsLatchedCommand : Obligations.StepRunsLatchedCommand := by
  refine ⟨fun s hbusy hturn => ⟨fun i hdec => ?_, fun r hdec => ?_⟩, fun s => step_of_coreNext_idle⟩
  · rw [step_of_coreNext hbusy hturn]
    exact coreStep_of_ok hdec
  · rw [step_of_coreNext hbusy hturn]
    exact ⟨_, coreStep_of_error hdec, failedWith_raise s.popInput _⟩

theorem exists_step_of_coreNext {s : State} (hc : s.coreNext) : ∃ t, step s = .next t := by
  cases hb : s.busy with
  | false => exact ⟨_, step_of_coreNext_idle hb hc⟩
  | true =>
    rw [step_of_coreNext hb hc]
    exact exists_coreStep s.popInput

theorem step_of_reset {s : State} {rest : List Input} (h : s.inputs = .reset :: rest) :
    step s = .next s.popInput.applyReset := by
  rw [popInput_eq h]
  simp only [step, h]

/-- Settles O51, by the event at the head of the queue. -/
theorem noStepStops : Obligations.NoStepStops := by
  intro s
  rcases hi : s.inputs with _ | ⟨event, rest⟩
  · exact exists_step_of_coreNext (.inl hi)
  · cases event with
    | read x => exact ⟨_, step_of_read hi⟩
    | write x v => exact ⟨_, step_of_write hi⟩
    | core => exact exists_step_of_coreNext (.inr (by rw [hi]; rfl))
    | reset => exact ⟨_, step_of_reset hi⟩

/-! ## The interrupt -/

theorem irq_of_not_done {s : State} (h : s.done = false) : s.irq = false := by rw [State.irq, h, Bool.false_and]

theorem irq_of_done {s : State} (h : s.done = true) : s.irq = s.doneIe := by rw [State.irq, h, Bool.true_and]

/-- DONE_IE is bit 0 of IRQ_EN (10_state.md R27). -/
theorem getLsbD_readReg_irqEn (s : State) : (s.readReg .irqEn).getLsbD 0 = s.doneIe := by
  rw [readReg_irqEn]
  cases s.doneIe <;> rfl

/-- A write of IRQ_EN masks or unmasks the interrupt and keeps DONE (60_exceptions.md R131). -/
theorem irq_writeTarget_irqEn (s : State) (v : Word) : (s.writeTarget v (.reg .irqEn)).irq = (s.done && v.getLsbD 0) :=
  rfl

/-- Settles O18: DONE and DONE_IE are the register bits, and the core's step sets the one and keeps the other. -/
theorem interruptFollowsDone : Obligations.InterruptFollowsDone := by
  refine ⟨fun s => ?_, fun s => ?_⟩
  · have hdone : (s.readReg .status).getLsbD 1 = s.done := getLsbD_statusWord s 1
    rw [hdone, getLsbD_readReg_irqEn, State.irq]
  · obtain ⟨t, ht⟩ := exists_coreStep s
    obtain ⟨-, hdone⟩ := coreStep_completes ht
    obtain ⟨-, hie, -⟩ := coreStep_sameHostRegs ht
    exact ⟨t, ht, (irq_of_done hdone).trans hie⟩

/-- Settles O19: the writes of STATUS and CMD and the reset clear DONE, the write of IRQ_EN moves DONE_IE alone. -/
theorem interruptMaskedAndCleared : Obligations.InterruptMaskedAndCleared := by
  refine ⟨fun s v rest hidle => ⟨fun hi hack => ?_, fun hi => ?_, fun hi hmask => ?_, fun hi hset hdone => ?_⟩,
    fun s rest hi => ⟨_, step_of_reset hi, irq_of_not_done rfl, rfl⟩⟩
  · have hdone : (State.writeTarget { s with inputs := rest } v (.reg .status)).done = false := by
      simp [State.writeTarget, writeReg_status, hack]
    exact ⟨_, step_of_write_word (x := .reg .status) hidle rfl rfl hi, irq_of_not_done hdone, hdone⟩
  · exact ⟨_, step_of_write_word (x := .reg .cmd) hidle rfl rfl hi, irq_of_not_done rfl, rfl⟩
  · exact ⟨_, step_of_write_word (x := .reg .irqEn) hidle rfl rfl hi,
      (irq_writeTarget_irqEn s v).trans (by rw [hmask, Bool.and_false]), rfl⟩
  · exact ⟨_, step_of_write_word (x := .reg .irqEn) hidle rfl rfl hi,
      (irq_writeTarget_irqEn s v).trans (by rw [hdone, hset, Bool.and_self])⟩

end Sys2Proof.Machine
end

section
/-! Reset and hazards (70_reset_and_hazards.md R141, R142, R149, R150): the reset event, a read that follows a write to the
same offset, and accesses that come before the pending command's step. -/

namespace Sys2Proof.Machine

open Sys2Proof

/-! ## Reset -/

/-- Settles O21: the transition is the reset event's, which keeps the rest of the queue and the count of draws. -/
theorem resetEventRestoresReset : Obligations.ResetEventRestoresReset := by
  intro s rest hi
  have hreset : s.popInput.applyReset = { State.reset with inputs := rest, draws := s.draws } := by
    rw [State.applyReset_eq, popInput_eq hi]
  exact ⟨_, step_of_reset hi, hreset, irq_of_not_done rfl⟩

/-! ## Accesses before the core's step -/

/-- While BUSY = 1, a host access moves only the last bus answer and the count of draws (20_memory.md R65, R73, R75). -/
theorem step_of_access_of_busy {s : State} {x : Input} {rest : List Input} (hbusy : s.busy = true)
    (hx : x.isAccess = true) (hi : s.inputs = x :: rest) :
    ∃ r d, s.draws ≤ d ∧ step s = .next { s with inputs := rest, response := r, draws := d } := by
  cases x with
  | read y =>
    rw [step_of_read hi]
    rcases hostRead_cases s.popInput y with e | ⟨target, -, e⟩ <;> rw [e, popInput_eq hi]
    · exact ⟨_, _, le_rfl, rfl⟩
    · exact ⟨_, _, Nat.le_succ _, rfl⟩
  | write y v =>
    rw [step_of_write hi, hostWrite_of_busy (s := s.popInput) hbusy, popInput_eq hi]
    exact ⟨_, _, le_rfl, rfl⟩
  | core | reset => cases hx

/-- Settles O58, by induction on the queue: each access leaves the block as it was, then the core's step ends the
command. -/
theorem pendingCommandIsPerformed : Obligations.PendingCommandIsPerformed := by
  intro s hbusy hall
  induction hi : s.inputs generalizing s with
  | nil =>
    obtain ⟨t, ht⟩ := exists_coreStep s.popInput
    obtain ⟨hidle, hdone⟩ := coreStep_completes ht
    have hcore : step s = .next t := (step_of_coreNext hbusy (.inl hi)).trans ht
    have hpop : s.popInput = { s with inputs := [] } := by rw [State.popInput, hi, List.tail_nil]
    exact ⟨t, ⟨t, hcore, rfl⟩, hidle, hdone, s.response, s.draws, le_rfl, hpop ▸ ht⟩
  | cons x rest ih =>
    rw [hi] at hall
    obtain ⟨hx, hrest⟩ := List.forall_mem_cons.1 hall
    obtain ⟨r, d, hd, hstep⟩ := step_of_access_of_busy hbusy hx hi
    obtain ⟨t, hrun, hidle, hdone, r', d', hd', hcore⟩ :=
      ih { s with inputs := rest, response := r, draws := d } hbusy hrest rfl
    exact ⟨t, ⟨_, hstep, hrun⟩, hidle, hdone, r', d', hd.trans hd', hcore⟩

/-! ## A read after a write -/

/-- The low bits of a word, zero-extended, are the word masked to them (10_state.md R20). -/
theorem setWidth_extractLsb'_low (v : Word) {n : Nat} (hn : n ≤ 32) :
    (v.extractLsb' 0 n).setWidth 32 = v &&& BitVec.ofNat 32 (2 ^ n - 1) := by
  have hpow : 2 ^ n ≤ 2 ^ 32 := Nat.pow_le_pow_right (by decide) hn
  apply BitVec.eq_of_toNat_eq
  rw [BitVec.toNat_setWidth, BitVec.extractLsb'_toNat, BitVec.toNat_and, BitVec.toNat_ofNat,
    Nat.mod_eq_of_lt (a := 2 ^ n - 1) (by omega), Nat.and_two_pow_sub_one_eq_mod, Nat.shiftRight_zero]
  exact Nat.mod_eq_of_lt (by have := v.isLt; have := Nat.mod_le v.toNat (2 ^ n); omega)

/-- Byte `k` of a word just written (20_memory.md R67). -/
theorem byteAt_writeBufferWord (s : State) (a : Nat) (v : Word) {k : Nat} (hk : k < 4) :
    (s.writeBufferWord a v).byteAt (a + k) = v.extractLsb' (8 * k) 8 :=
  byteAt_of_written (get?_writeBufferWord s a v hk)

/-- A buffer word just written reads back whole (20_memory.md R67). -/
theorem bufferWord_writeBufferWord (s : State) (a : Nat) (v : Word) : (s.writeBufferWord a v).bufferWord a = v := by
  have h0 : (s.writeBufferWord a v).byteAt a = v.extractLsb' 0 8 := byteAt_writeBufferWord s a v (k := 0) (by decide)
  rw [State.bufferWord, h0, byteAt_writeBufferWord s a v (k := 1) (by decide),
    byteAt_writeBufferWord s a v (k := 2) (by decide), byteAt_writeBufferWord s a v (k := 3) (by decide)]
  exact wordOfBytes_bytesOfWord v

/-- The bits of a written word that a target keeps, where a read of the target answers those bits and no others: DONE_IE,
IN_LEN, BIT_LEN, NODE_SEL, CT_SEL, the counters and the buffer words (10_state.md R27-R29, R36, R40, R44). -/
def Target.keptBits : Target → Option Word
  | .reg .irqEn => some 0x00000001#32
  | .reg .nodeSel => some 0x000001FF#32
  | .reg .ctSel => some 0x000000FF#32
  | .reg .inLen | .reg .bitLen | .reg (.freq _) | .buffer _ => some 0xFFFFFFFF#32
  | .reg _ => none

/-- A read of a register just written answers the bits it keeps. -/
theorem readReg_writeReg (s : State) (v : Word) {r : Reg} {keep : Word} (hkeep : (Target.reg r).keptBits = some keep) :
    (s.writeReg v r).readReg r = v &&& keep := by
  cases r with
  | irqEn => cases hkeep; exact (zero_append_eq_setWidth _).trans BitVec.and_one_eq_setWidth_ofBool_getLsbD.symm
  | nodeSel => cases hkeep; exact (readReg_nodeSel _).trans (setWidth_extractLsb'_low v (n := 9) (by decide))
  | ctSel => cases hkeep; exact (readReg_ctSel _).trans (setWidth_extractLsb'_low v (n := 8) (by decide))
  | inLen | bitLen => cases hkeep; exact BitVec.and_allOnes.symm
  | freq sym => cases hkeep; exact ((freqOf_setFreq s sym sym v).trans (if_pos rfl)).trans BitVec.and_allOnes.symm
  | _ => cases hkeep

/-- A read of a target just written answers the bits it keeps (20_memory.md R65, R66). -/
theorem readTarget_writeTarget {s : State} (hidle : s.busy = false) (a : Nat) (v : Word) {x : Target} {keep : Word}
    (hkeep : x.keptBits = some keep) : (s.writeTarget v x).readTarget a x = v &&& keep := by
  have hcmd : x ≠ .reg .cmd := by rintro rfl; cases hkeep
  have hidle' : (s.writeTarget v x).busy = false := (busy_writeTarget hcmd s v).trans hidle
  cases x with
  | reg r => exact (readTarget_reg a (.inl hidle')).trans (readReg_writeReg s v hkeep)
  | buffer b =>
    cases hkeep
    rw [readTarget_buffer hidle', State.writeTarget, bufferWord_writeBufferWord]
    exact BitVec.and_allOnes.symm

/-- A host write leaves the events still to come as they are. -/
theorem inputs_writeTarget (s : State) (v : Word) (x : Target) : (s.writeTarget v x).inputs = s.inputs := by
  cases x with
  | buffer a => rfl
  | reg r =>
    cases r
    case status => rw [State.writeTarget, writeReg_status]
    all_goals rfl

/-- A decoded write to an idle block and a read of the same offset: the answer is a read of the written target. -/
theorem stepsTo_write_read {s : State} {a : Nat} {v : Word} {x : Target} (hidle : s.busy = false) (ha : a % 4 = 0)
    (hx : decodeOffset a = some x) (hi : s.inputs = [.write (.word a) v, .read (.word a)]) :
    ∃ t, StepsTo 2 s t ∧
      t.response = .data ((State.writeTarget { s with inputs := [.read (.word a)] } v x).readTarget a x) :=
  ⟨_, ⟨_, step_of_write_word hidle ha hx hi, _, step_of_read_word ha hx (inputs_writeTarget _ v x), rfl⟩, rfl⟩

/-- Settles O15: each offset is decoded to a target that keeps the bits named, and a read answers the kept bits. -/
theorem readAfterWriteSeesValue : Obligations.ReadAfterWriteSeesValue := by
  intro s a v hidle ha hi keep hcases
  have htarget : ∃ x, decodeOffset a = some x ∧ x.keptBits = some keep := by
    rcases hcases with ⟨rfl, rfl⟩ | ⟨rfl, rfl⟩ | ⟨rfl, rfl⟩ | ⟨rfl | rfl | ⟨hlo, hhi⟩ | hbuf, rfl⟩
    · exact ⟨.reg .irqEn, rfl, rfl⟩
    · exact ⟨.reg .nodeSel, rfl, rfl⟩
    · exact ⟨.reg .ctSel, rfl, rfl⟩
    · exact ⟨.reg .inLen, rfl, rfl⟩
    · exact ⟨.reg .bitLen, rfl, rfl⟩
    · refine ⟨.reg (.freq (BitVec.ofNat 8 ((a - 0x400) / 4))), (decodeOffset_freq_iff ha _).2 ?_, rfl⟩
      rw [BitVec.toNat_ofNat]
      omega
    · exact ⟨.buffer a, decodeOffset_of_buffer hbuf, rfl⟩
  obtain ⟨x, hx, hkeep⟩ := htarget
  obtain ⟨t, hrun, ht⟩ := stepsTo_write_read hidle ha hx hi
  have hidle' : State.busy { s with inputs := [.read (.word a)] } = false := hidle
  rw [readTarget_writeTarget hidle' a v hkeep] at ht
  exact ⟨t, hrun, ht⟩

end Sys2Proof.Machine
end
